-- ==== Sys2Proof/Word.lean ====
section
/-! DEFINITION. The word type and the machine's value records: the Golden Token, the flags, a memory
word, a call frame and a thread lump. Only types stand here; what is computed on them is in Machine/. -/

namespace Sys2Proof

/-- A data register, a memory word and an instruction: 32 bits (R6, R20). -/
abbrev Word := BitVec 32

/-- The number of a context register, CR0 to CR15 (R22). -/
abbrev CRNum := Fin 16

/-- The number of a data register, DR0 to DR15 (R20). -/
abbrev DRNum := Fin 16

/-- One permission (R30): R read, W write, X execute, L load, S save, E enter. -/
inductive Perm where
  | r | w | x | l | s | e
deriving DecidableEq, Repr, Inhabited

/-- A set of permissions (R30), one Bool per permission. -/
structure Perms where
  r : Bool := false
  w : Bool := false
  x : Bool := false
  l : Bool := false
  s : Bool := false
  e : Bool := false
deriving DecidableEq, Repr, Inhabited

/-- A Golden Token in the expanded form a context register holds (R30). `version`, `mac` (the seal, C8), `kind` and
`stackInd` are abstract in the spec and are numbers here; `base` and `limit` are absolute word addresses. -/
structure Gt where
  perms    : Perms
  b        : Bool
  g        : Bool
  version  : Nat
  mac      : Nat
  base     : Nat
  limit    : Nat
  kind     : Nat
  stackInd : Nat
  word0    : Word
deriving DecidableEq, Repr, Inhabited

/-- The value of a context register: a GT, or NULL (R31), which is `none`. -/
abbrev CRVal := Option Gt

/-- The four condition flags (R28). -/
structure Flags where
  n : Bool
  z : Bool
  c : Bool
  v : Bool
deriving DecidableEq, Repr, Inhabited

/-- One memory word: plain 32-bit data, or a stored GT kept as its record (R65, decision D5: a model that
does not fix GT_LAYOUT stores the record itself). Log 2. -/
inductive MemWord where
  | data  (w : Word)
  | token (g : Gt)
deriving DecidableEq, Repr, Inhabited

/-- A 2-word call frame (R36): Word 0, the caller's stored E-GT, and Word 1, the return offset NIA packed
with the machine indicators. -/
structure Frame where
  egt : MemWord
  nia : Nat
  mi  : Word
deriving DecidableEq, Repr, Inhabited

/-- A thread lump (R40): CR0 to CR11, CR14, CR15, the data registers, pc, and whether the thread has been
activated before. -/
structure Lump where
  cr        : Vector CRVal 12
  cr14      : CRVal
  cr15      : CRVal
  dr        : Vector Word 16
  pc        : Nat
  activated : Bool
deriving DecidableEq, Repr, Inhabited

end Sys2Proof
end

