-- ==== Sys2Proof/Syntax.lean ====
section
/-! DEFINITION. The instructions: one constructor for each row of spec/opcode_table.json. Every
constructor carries the condition first, since every instruction is conditional (R131). -/

namespace Sys2Proof

/-- The sixteen condition codes (R130). -/
inductive Cond where
  | eq | ne | cs | cc | mi | pl | vs | vc | hi | ls | ge | lt | gt | le | al | nv
deriving DecidableEq, Repr, Inhabited

/-- One instruction, its operand fields as R97 assigns them. `rd` is the register in the `dst` field and
`rs` the one in the `src` field. -/
inductive Instr where
  /-- LOAD CRd, CRs, #slot (R143). -/
  | load (c : Cond) (rd rs : CRNum) (slot : BitVec 15)
  /-- SAVE CRd, CRs, #slot: CRd is the c-list, CRs the GT saved (R148). -/
  | save (c : Cond) (rd rs : CRNum) (slot : BitVec 15)
  /-- CALL CRs, 0xF: Direct mode (R162). -/
  | callDirect (c : Cond) (rs : CRNum)
  /-- CALL CRs, offset: C-List mode, offset 0 to 14 (R161). -/
  | callClist (c : Cond) (rs : CRNum) (offset : BitVec 4)
  /-- RETURN mask (R168). -/
  | ret (c : Cond) (mask : BitVec 12)
  /-- CHANGE CRd, CRs, idx (R181). -/
  | change (c : Cond) (rd rs : CRNum) (idx : BitVec 15)
  /-- SWITCH CRn, CRs (R188). -/
  | switch (c : Cond) (rn rs : CRNum)
  /-- TPERM CRd, #preset: Mode 2, restriction (R209). -/
  | tpermRestrict (c : Cond) (rd : CRNum) (preset : BitVec 4)
  /-- TPERM CRs, #preset, offset: Mode 1, health check; the register is in the `dst` field (R203). -/
  | tpermCheck (c : Cond) (rd : CRNum) (preset : BitVec 4) (offset : BitVec 15)
  /-- LAMBDA CRd (R221). -/
  | lambda (c : Cond) (rd : CRNum)
  /-- ELOADCALL CRd, CRs, #slot (R225). -/
  | eloadcall (c : Cond) (rd rs : CRNum) (slot : BitVec 15)
  /-- XLOADLAMBDA CRd, CRs, #slot (R228). -/
  | xloadlambda (c : Cond) (rd rs : CRNum) (slot : BitVec 15)
  /-- DREAD DRd, CRs, #offset (R241). -/
  | dread (c : Cond) (rd : DRNum) (rs : CRNum) (offset : BitVec 15)
  /-- DWRITE CRd, DRs, #offset (R244). -/
  | dwrite (c : Cond) (rd : CRNum) (rs : DRNum) (offset : BitVec 15)
  /-- BFEXT DRd, DRs, #width, #lsb (R251). -/
  | bfext (c : Cond) (rd rs : DRNum) (width : BitVec 6) (lsb : BitVec 5)
  /-- BFINS DRd, DRs, #width, #lsb (R254). -/
  | bfins (c : Cond) (rd rs : DRNum) (width : BitVec 6) (lsb : BitVec 5)
  /-- MCMP DRd, DRs (R261). -/
  | mcmp (c : Cond) (rd rs : DRNum)
  /-- IADD DRd, DRs, #imm (R265). -/
  | iadd (c : Cond) (rd rs : DRNum) (imm : BitVec 15)
  /-- ISUB DRd, DRs, #imm (R268). -/
  | isub (c : Cond) (rd rs : DRNum) (imm : BitVec 15)
  /-- BRANCH #offset (R281). -/
  | branch (c : Cond) (offset : BitVec 15)
  /-- SHL DRd, DRs, #amount (R285). -/
  | shl (c : Cond) (rd rs : DRNum) (amount : BitVec 15)
  /-- SHR DRd, DRs, #amount (R288). -/
  | shr (c : Cond) (rd rs : DRNum) (amount : BitVec 15)
deriving DecidableEq, Repr

/-- The condition of an instruction, bits 26:23 of its word (R91). -/
def Instr.cond : Instr → Cond
  | .load c _ _ _ => c
  | .save c _ _ _ => c
  | .callDirect c _ => c
  | .callClist c _ _ => c
  | .ret c _ => c
  | .change c _ _ _ => c
  | .switch c _ _ => c
  | .tpermRestrict c _ _ => c
  | .tpermCheck c _ _ _ => c
  | .lambda c _ => c
  | .eloadcall c _ _ _ => c
  | .xloadlambda c _ _ _ => c
  | .dread c _ _ _ => c
  | .dwrite c _ _ _ => c
  | .bfext c _ _ _ _ => c
  | .bfins c _ _ _ _ => c
  | .mcmp c _ _ => c
  | .iadd c _ _ _ => c
  | .isub c _ _ _ => c
  | .branch c _ => c
  | .shl c _ _ _ => c
  | .shr c _ _ _ => c

end Sys2Proof
end

