-- ==== Sys2Proof/WellFormed.lean ====
section
/-! DEFINITION. Which terms of `Instr` stand for an instruction word. The field types already bound every
register number and immediate; three constructors have one value of a field that their row excludes. -/

namespace Sys2Proof

/-- An instruction some word decodes to: CALL's C-List offset is not 15, which selects Direct mode (R102);
RETURN's mask bit 6 is 0 (R99, R166); TPERM's health-check offset is not the sentinel 0x7FFF (R101). -/
def Instr.wf : Instr → Bool
  | .load _ _ _ _ => true
  | .save _ _ _ _ => true
  | .callDirect _ _ => true
  | .callClist _ _ offset => offset != 15#4
  | .ret _ mask => !mask.getLsbD 6
  | .change _ _ _ _ => true
  | .switch _ _ _ => true
  | .tpermRestrict _ _ _ => true
  | .tpermCheck _ _ _ offset => offset != 0x7FFF#15
  | .lambda _ _ => true
  | .eloadcall _ _ _ _ => true
  | .xloadlambda _ _ _ _ => true
  | .dread _ _ _ _ => true
  | .dwrite _ _ _ _ => true
  | .bfext _ _ _ _ _ => true
  | .bfins _ _ _ _ _ => true
  | .mcmp _ _ _ => true
  | .iadd _ _ _ _ => true
  | .isub _ _ _ _ => true
  | .branch _ _ => true
  | .shl _ _ _ _ => true
  | .shr _ _ _ _ => true

end Sys2Proof
end

