-- ==== Sys2Proof/Decode.lean ====
section
/-! DEFINITION. The decoder, total on any word and rejecting by name, and the encoder after it, both from
the format R91, the field table R97 and the opcode map R100. -/

namespace Sys2Proof

/-- The opcode field, bits 31:27 (R91). -/
def opcodeField (w : Word) : BitVec 5 := w.extractLsb' 27 5

/-- The condition field, bits 26:23 (R91). -/
def condField (w : Word) : BitVec 4 := w.extractLsb' 23 4

/-- The destination field, bits 22:19 (R91). -/
def dstField (w : Word) : BitVec 4 := w.extractLsb' 19 4

/-- The source field, bits 18:15 (R91). -/
def srcField (w : Word) : BitVec 4 := w.extractLsb' 15 4

/-- The immediate field, bits 14:0 (R91). -/
def immField (w : Word) : BitVec 15 := w.extractLsb' 0 15

/-- The condition a 4-bit code names (R130). -/
def Cond.ofCode (b : BitVec 4) : Cond :=
  match b.toNat with
  | 0 => .eq | 1 => .ne | 2 => .cs | 3 => .cc
  | 4 => .mi | 5 => .pl | 6 => .vs | 7 => .vc
  | 8 => .hi | 9 => .ls | 10 => .ge | 11 => .lt
  | 12 => .gt | 13 => .le | 14 => .al | _ => .nv

/-- The 4-bit code of a condition (R130). -/
def Cond.code : Cond → BitVec 4
  | .eq => 0 | .ne => 1 | .cs => 2 | .cc => 3
  | .mi => 4 | .pl => 5 | .vs => 6 | .vc => 7
  | .hi => 8 | .ls => 9 | .ge => 10 | .lt => 11
  | .gt => 12 | .le => 13 | .al => 14 | .nv => 15

/-- The register a 4-bit field selects (R20, R22). -/
def regOf (b : BitVec 4) : Fin 16 := b.toFin

/-- The 4-bit field that selects a register. -/
def regCode (i : Fin 16) : BitVec 4 := .ofFin i

/-- The condition of a word, whatever its other bits (R133). -/
def condOf (w : Word) : Cond := Cond.ofCode (condField w)

/-- Why a word is no instruction. -/
inductive Reject where
  /-- The opcode is 20 to 31 (R105). -/
  | undefinedOpcode
  /-- A RETURN with bits 22:12 not zero or bit 6 set (R108). -/
  | returnReserved
  /-- A field the instruction does not use is not zero (R107). -/
  | unusedField
deriving DecidableEq, Repr

/-- `i`, if the bits of the word that `i` does not use are zero (R107). -/
def ifUnusedZero (unusedZero : Bool) (i : Instr) : Except Reject Instr :=
  if unusedZero then .ok i else .error .unusedField

/-- BFEXT's and BFINS's `lsb` sub-field, imm15[4:0] (R104). -/
def lsbField (imm : BitVec 15) : BitVec 5 := imm.extractLsb' 0 5

/-- BFEXT's and BFINS's `width` sub-field, imm15[10:5] (R104). -/
def widthField (imm : BitVec 15) : BitVec 6 := imm.extractLsb' 5 6

/-- BFEXT's and BFINS's unused bits, imm15[14:11] (R104). -/
def bitfieldUnused (imm : BitVec 15) : BitVec 4 := imm.extractLsb' 11 4

/-- The instruction a word stands for (R100; CALL's modes R102, RETURN's layout R99, TPERM's modes R101,
BFEXT's and BFINS's immediate R104, unused fields R107), or the name of the reason it is none. -/
def decode (w : Word) : Except Reject Instr :=
  let c := condOf w
  let dst := dstField w
  let src := srcField w
  let imm := immField w
  match (opcodeField w).toNat with
  | 0 => .ok (.load c (regOf dst) (regOf src) imm)
  | 1 => .ok (.save c (regOf dst) (regOf src) imm)
  | 2 => ifUnusedZero (imm == 0)
      (if dst = 15#4 then .callDirect c (regOf src) else .callClist c (regOf src) dst)
  | 3 =>
      if w.extractLsb' 12 11 = 0#11 ∧ w.getLsbD 6 = false then .ok (.ret c (w.extractLsb' 0 12))
      else .error .returnReserved
  | 4 => .ok (.change c (regOf dst) (regOf src) imm)
  | 5 => ifUnusedZero (imm == 0) (.switch c (regOf dst) (regOf src))
  | 6 =>
      if imm = 0x7FFF#15 then .ok (.tpermRestrict c (regOf dst) src)
      else .ok (.tpermCheck c (regOf dst) src imm)
  | 7 => ifUnusedZero (src == 0 && imm == 0) (.lambda c (regOf dst))
  | 8 => .ok (.eloadcall c (regOf dst) (regOf src) imm)
  | 9 => .ok (.xloadlambda c (regOf dst) (regOf src) imm)
  | 10 => .ok (.dread c (regOf dst) (regOf src) imm)
  | 11 => .ok (.dwrite c (regOf dst) (regOf src) imm)
  | 12 => ifUnusedZero (bitfieldUnused imm == 0)
      (.bfext c (regOf dst) (regOf src) (widthField imm) (lsbField imm))
  | 13 => ifUnusedZero (bitfieldUnused imm == 0)
      (.bfins c (regOf dst) (regOf src) (widthField imm) (lsbField imm))
  | 14 => ifUnusedZero (imm == 0) (.mcmp c (regOf dst) (regOf src))
  | 15 => .ok (.iadd c (regOf dst) (regOf src) imm)
  | 16 => .ok (.isub c (regOf dst) (regOf src) imm)
  | 17 => ifUnusedZero (dst == 0 && src == 0) (.branch c imm)
  | 18 => .ok (.shl c (regOf dst) (regOf src) imm)
  | 19 => .ok (.shr c (regOf dst) (regOf src) imm)
  | _ => .error .undefinedOpcode

/-- A word from its five fields (R121). -/
def mkWord (opcode : BitVec 5) (c : Cond) (dst src : BitVec 4) (imm : BitVec 15) : Word :=
  opcode ++ c.code ++ dst ++ src ++ imm

/-- The immediate of BFEXT and BFINS, `(width << 5) | lsb` (R104). -/
def bitfieldImm (width : BitVec 6) (lsb : BitVec 5) : BitVec 15 := 0#4 ++ width ++ lsb

/-- RETURN's word: opcode 00011, condition, eleven zero bits, mask (R99). -/
def returnWord (c : Cond) (mask : BitVec 12) : Word := 3#5 ++ c.code ++ 0#11 ++ mask

/-- The word of an instruction, zero in every unused field (R97, R99, R100, R121). -/
def encode : Instr → Word
  | .load c rd rs slot => mkWord 0 c (regCode rd) (regCode rs) slot
  | .save c rd rs slot => mkWord 1 c (regCode rd) (regCode rs) slot
  | .callDirect c rs => mkWord 2 c 15 (regCode rs) 0
  | .callClist c rs offset => mkWord 2 c offset (regCode rs) 0
  | .ret c mask => returnWord c mask
  | .change c rd rs idx => mkWord 4 c (regCode rd) (regCode rs) idx
  | .switch c rn rs => mkWord 5 c (regCode rn) (regCode rs) 0
  | .tpermRestrict c rd preset => mkWord 6 c (regCode rd) preset 0x7FFF
  | .tpermCheck c rd preset offset => mkWord 6 c (regCode rd) preset offset
  | .lambda c rd => mkWord 7 c (regCode rd) 0 0
  | .eloadcall c rd rs slot => mkWord 8 c (regCode rd) (regCode rs) slot
  | .xloadlambda c rd rs slot => mkWord 9 c (regCode rd) (regCode rs) slot
  | .dread c rd rs offset => mkWord 10 c (regCode rd) (regCode rs) offset
  | .dwrite c rd rs offset => mkWord 11 c (regCode rd) (regCode rs) offset
  | .bfext c rd rs width lsb => mkWord 12 c (regCode rd) (regCode rs) (bitfieldImm width lsb)
  | .bfins c rd rs width lsb => mkWord 13 c (regCode rd) (regCode rs) (bitfieldImm width lsb)
  | .mcmp c rd rs => mkWord 14 c (regCode rd) (regCode rs) 0
  | .iadd c rd rs imm => mkWord 15 c (regCode rd) (regCode rs) imm
  | .isub c rd rs imm => mkWord 16 c (regCode rd) (regCode rs) imm
  | .branch c offset => mkWord 17 c 0 0 offset
  | .shl c rd rs amount => mkWord 18 c (regCode rd) (regCode rs) amount
  | .shr c rd rs amount => mkWord 19 c (regCode rd) (regCode rs) amount

/-- The instruction the decoder reads from the low `nbits` bits of `w`, the bits above them zero. One
instruction is one word, so no byte order arises (R67, R90). -/
def decodeTableWord (nbits w : Nat) : Option Instr :=
  match decode (BitVec.ofNat 32 (w % 2 ^ nbits)) with
  | .ok i => some i
  | .error _ => none

end Sys2Proof
end

