-- ==== Sys2Proof/Machine/Flags.lean ====
section
/-! DEFINITION. The condition test and the flag functions. -/

namespace Sys2Proof.Machine

/-- CondPass (R130, R132). -/
def condPass (c : Cond) (f : Flags) : Bool :=
  match c with
  | .eq => f.z
  | .ne => !f.z
  | .cs => f.c
  | .cc => !f.c
  | .mi => f.n
  | .pl => !f.n
  | .vs => f.v
  | .vc => !f.v
  | .hi => f.c && !f.z
  | .ls => !f.c || f.z
  | .ge => f.n == f.v
  | .lt => f.n != f.v
  | .gt => !f.z && f.n == f.v
  | .le => f.z || f.n != f.v
  | .al => true
  | .nv => false

/-- SubFlags (R260): the difference modulo 2^32, and N, Z, C (no borrow), V (signed overflow). -/
def subFlags (a b : Word) : Word × Flags :=
  let r := a - b
  (r, { n := r.msb
        z := r == 0
        c := decide (b.toNat ≤ a.toNat)
        v := a.msb != b.msb && r.msb != a.msb })

/-- AddFlags (R260): the sum modulo 2^32, and N, Z, C (carry out of bit 31), V (signed overflow).
PRESUMED: the spec marks C and V here as general knowledge (log 18). -/
def addFlags (a b : Word) : Word × Flags :=
  let r := a + b
  (r, { n := r.msb
        z := r == 0
        c := decide (2 ^ 32 ≤ a.toNat + b.toNat)
        v := a.msb == b.msb && r.msb != a.msb })

end Sys2Proof.Machine
end

