-- ==== Sys2Proof/Config.lean ====
section
/-! DEFINITION. What an implementation fixes: the spec's parameters that have a default (R5), each at the
value this model runs with, and the free values, opaque constants about which nothing can be proved. The
parameters the spec leaves OPEN are not here: they are plain data of `State.params` (log 5). -/

namespace Sys2Proof.Config

/-- The settings of SHIFT_OVERRANGE that give SHL and SHR by 32 or more an effect (R5, R287): the result is 0,
or the amount is taken modulo 32. -/
inductive ShiftOverrange where
  | zero | mod32
deriving DecidableEq, Repr, Inhabited

/-- Free value: which of the two readings of a shift by 32 or more the hardware has. DESIGN CHOICE: the word
runs, under the settings R287 names "for a model that must run such code", not its default refusal (log 16). -/
opaque shiftOverrange : ShiftOverrange

/-- ARITH_IMM_SIGNED: the spec's default, zero-extension (R266, decision D6; log 17). -/
def arithImmSigned : Bool := false

/-- BFEXT_SIGNED: the spec's default, zero-extension (R251, decision D23; log 17). -/
def bfextSigned : Bool := false

/-- The B-modifier bit of a decoded TPERM under TPERM_B_BIT = none (R110, decision D9; log 17). -/
def tpermBmod : Bool := false

/-- The settings of LAMBDA_RETURN_MODEL (R5, R221). -/
inductive LambdaReturnModel where
  | callFrame | refuse
deriving DecidableEq, Repr

/-- LAMBDA_RETURN_MODEL: the spec's default, `call_frame` (R221, decision D19; log 17). -/
def lambdaReturnModel : LambdaReturnModel := .callFrame

/-- The settings of THREAD_MODEL (R5, R184). -/
inductive ThreadModel where
  | lumps | refuse
deriving DecidableEq, Repr

/-- THREAD_MODEL. DESIGN CHOICE: the abstract rule R184 over thread lumps, not the spec's default
`refuse`, so that a CHANGE of CR14 or CR15 runs (log 9). -/
def threadModel : ThreadModel := .lumps

/-- Free value: the flags after a RETURN or a context switch, `any` in the spec (R29, R38, R184; log 8). -/
opaque freeFlags : Nat → Flags

/-- Free value: `cur_egt` after a context switch (R184; log 9). -/
opaque freeCurEgt : Nat → CRVal

/-- Free value: the call stack and `cr5_stack` after a context switch, drawn together because their depths
are always equal (R37, R184; log 9). -/
opaque freeStacks : Nat → List (Frame × CRVal)

/-- Free value: the machine indicators after a context switch (R184; log 9). -/
opaque freeMi : Nat → Word

/-- Free value: what the lump of a thread that nothing has written holds (R184 "whatever the lump holds";
log 10). -/
opaque freshLump : Nat → Lump

/-- Free value: `word0` of a stored GT with its current permissions and B-bit folded in, the 32 bits that
a DREAD or a fetch of that word sees; which bits hold them is GT_LAYOUT, open (R65; log 7). -/
opaque foldWord0 : Word → Perms → Bool → Word

end Sys2Proof.Config
end

