-- ==== Sys2Proof/Machine/State.lean ====
section
/-! DEFINITION. The state of the machine, plain data holding every piece of state the spec names, the
faults and refusals, and the state after reset. -/

namespace Sys2Proof.Machine

/-- A listed memory word: its absolute word address and its content (R60, R62; log 1). -/
abbrev Cell := Nat × MemWord

/-- Memory: a list of cells in one canonical form (`Memory.wf`). -/
abbrev Memory := List Cell

/-- What the abstract predicates of the spec read of the state: the namespace root CR15 and memory
(R41, R66; log 5). -/
structure View where
  root : CRVal
  mem  : Memory
deriving DecidableEq, Repr

/-- An abstract function of a key and the state, as plain data: the answer listed for the key at a view,
else the answer listed for the key at every view, else `otherwise` (log 5). -/
structure Table (κ ρ : Type) where
  atView    : List ((View × κ) × ρ)
  always    : List (κ × ρ)
  otherwise : ρ
deriving DecidableEq, Repr

/-- The parameters the spec leaves OPEN (R5, R41), as plain data that no step changes, so that a statement
about every state quantifies over them (log 5). -/
structure Params where
  /-- PC_WIDTH, at most 31 (R26). -/
  pcWidth        : Fin 32
  /-- CALL_STACK_DEPTH (R36). -/
  callStackDepth : Nat
  /-- VersionOK (R66). -/
  versionOK      : Table Gt Bool
  /-- SealOK (R66). -/
  sealOK         : Table Gt Bool
  /-- FbitOK_load, on a stored word (R66). -/
  fbitLoad       : Table MemWord Bool
  /-- FbitOK_save, on a slot address (R66). -/
  fbitSave       : Table Nat Bool
  /-- `expand`, from a plain non-zero word read as a stored GT (R140). -/
  expand         : Table Word Gt
  /-- NSSplit: the callee's c-list GT and code GT, `none` where undefined (R160). -/
  nsSplit        : Table Gt (Option (Gt × Gt))
  /-- SentinelOK of a GT and Tgt (R188). -/
  sentinelOK     : Table (Gt × BitVec 3) Bool
  /-- TargetLump: from CHANGE's dst and the loaded CR value to a lump number (R184). -/
  targetLump     : Table (CRNum × CRVal) Nat
deriving DecidableEq, Repr

/-- The state of the machine. -/
structure State where
  /-- DR0 to DR15 (R20). -/
  dr        : Vector Word 16
  /-- CR0 to CR15 (R22). -/
  cr        : Vector CRVal 16
  /-- The offset of the current instruction in CR14's code object (R26; log 19). -/
  pc        : Nat
  /-- N, Z, C, V (R28). -/
  flags     : Flags
  /-- The E-GT through which the running abstraction was entered (R35). -/
  curEgt    : CRVal
  /-- The call stack, newest frame first, an abstract list not visible in data memory (R36, decision D29). -/
  callStack : List Frame
  /-- The hidden stack of CR5 values, newest first (R37). -/
  cr5Stack  : List CRVal
  /-- The machine indicators, opaque (R38). -/
  mi        : Word
  /-- Memory (R60, R62). -/
  mem       : Memory
  /-- The thread lumps, by lump number, rising (R40). DESIGN CHOICE: they are held apart from `mem`, and no
  GT reaches them. Whether a lump lies in memory that a GT reaches is open (N9; log 25). -/
  lumps     : List (Nat × Lump)
  /-- Which lump is the current thread's (R40, R184). -/
  curLump   : Nat
  /-- The OPEN parameters (R5, R41); no step changes them. -/
  params    : Params
  /-- The model's own counter of free values drawn (log 8). -/
  freeIndex : Nat
deriving DecidableEq, Repr

/-- How a step of this machine ends without a next state, other than by a refusal. All are terminal and
leave the state as it was before the instruction (R300, R303, R304). -/
inductive Fault where
  /-- PRIV_REG: CHANGE with CRd below CR12, or CR12 to CR15 as an ordinary operand (R302). Safe: the
  hardware raises it too, or may go on where decision D20 does not. -/
  | privReg
  /-- INVALID_OP: opcode 20 to 31, RETURN's reserved bits, SWITCH's target (R302). Safe, as above. -/
  | invalidOp
  /-- FAULT: every capability, bounds, validation, stack and pc-range failure (R302). The spec's labels of
  its causes are not architectural and are not kept (R301; log 11). Safe, as above. -/
  | fault
  /-- The Reboot outcome: RETURN found the call stack empty (R167, R308; log 12). Safe: nothing is said of
  the restarted machine. -/
  | reboot
deriving DecidableEq, Repr

/-- Why the model gives an instruction no meaning, each a reason label of R306. All are safe: nothing can
be proved of a run that reaches one. -/
inductive Refusal where
  /-- An instruction the model does not cover; raised by no arm. -/
  | notModelled (mnemonic : String)
  /-- A non-zero bit in a field the instruction does not use (R107). Raised by `step` on decoding. -/
  | unusedField
  /-- BFEXT or BFINS with width 0 or width + lsb above 32 (R253). -/
  | bitfieldRange
  /-- CR6 as the explicit destination of LOAD, ELOADCALL or XLOADLAMBDA (R144). -/
  | cr6Destination
  /-- TPERM Mode 2 with a defined preset on a GT in CR12 to CR15, a write of a privileged register to which the
  spec gives no meaning (R201, R209, R306; log 15). -/
  | privilegedDestination
  /-- CHANGE to CR14 or CR15 under THREAD_MODEL = refuse, a setting this model does not run with (R184). -/
  | threadModel
  /-- LAMBDA or XLOADLAMBDA under LAMBDA_RETURN_MODEL = refuse, a setting this model does not run with
  (R221). -/
  | lambdaModel
deriving DecidableEq, Repr

/-- What an operation stops with: a `raise` or a `refuse` of the spec's pseudocode (R7). -/
inductive Stop where
  | fault (f : Fault)
  | refuse (r : Refusal)
deriving DecidableEq, Repr

/-- The result of an operation: a value, or the stop it raised. -/
abbrev Res (α : Type) := Except Stop α

/-- The outcome of a step. -/
abbrev Out := Host.Outcome State Fault Refusal

/-- A GT with no permission: what `expand` answers in the reset state's parameters (log 5). -/
def Gt.blank : Gt :=
  { perms := {}, b := false, g := false, version := 0, mac := 0, base := 0, limit := 0, kind := 0,
    stackInd := 0, word0 := 1 }

/-- A table with one answer for every key at every view. -/
def Table.const {κ ρ : Type} (r : ρ) : Table κ ρ := { atView := [], always := [], otherwise := r }

/-- The parameters in the reset state. DESIGN CHOICE: the spec leaves each OPEN (log 5). -/
def Params.reset : Params :=
  { pcWidth := 31
    callStackDepth := 1024
    versionOK := .const true
    sealOK := .const true
    fbitLoad := .const true
    fbitSave := .const true
    expand := .const Gt.blank
    nsSplit := .const none
    sentinelOK := .const false
    targetLump := .const 1 }

/-- The machine right after reset. The spec fixes `pc = 0` (R341) and asks for empty stacks (R42); every
other value is a DESIGN CHOICE (log 3, log 4, log 5). -/
def State.reset : State :=
  { dr := Vector.replicate 16 0
    cr := Vector.replicate 16 none
    pc := 0
    flags := { n := false, z := false, c := false, v := false }
    curEgt := none
    callStack := []
    cr5Stack := []
    mi := 0
    mem := []
    lumps := []
    curLump := 0
    params := Params.reset
    freeIndex := 0 }

end Sys2Proof.Machine
end

