-- ==== Sys2Proof/Machine/Memory.lean ====
section
/-! DEFINITION. Sparse lists sorted by key, and memory over them: the reads and writes of R62 and R65. -/

namespace Sys2Proof.Machine

/-- The entry listed under a key. -/
def assocFind {α : Type} (k : Nat) : List (Nat × α) → Option α
  | [] => none
  | e :: t => if e.1 = k then some e.2 else assocFind k t

/-- A sorted list with the entry of a key set. -/
def assocSet {α : Type} (k : Nat) (v : α) : List (Nat × α) → List (Nat × α)
  | [] => [(k, v)]
  | e :: t =>
    if k < e.1 then (k, v) :: e :: t
    else if e.1 = k then (k, v) :: t
    else e :: assocSet k v t

/-- A list without the entries of a key. -/
def assocErase {α : Type} (k : Nat) (l : List (Nat × α)) : List (Nat × α) :=
  l.filter fun e => e.1 != k

/-- The keys of a list rise strictly. -/
abbrev AssocSorted {α : Type} (l : List (Nat × α)) : Prop := l.Pairwise fun a b => a.1 < b.1

/-- What a word that memory does not list reads as. DESIGN CHOICE: zero (log 3). -/
def Memory.unlisted : MemWord := .data 0

/-- The content of the word at an absolute word address: `SlotRead` (R65). -/
def Memory.readCell (m : Memory) (a : Nat) : MemWord := (assocFind a m).getD Memory.unlisted

/-- Memory with the word at `a` replaced and no other word changed (R62, R65). Writing what an unlisted
word reads as removes the entry. -/
def Memory.writeCell (m : Memory) (a : Nat) (w : MemWord) : Memory :=
  if w = Memory.unlisted then assocErase a m else assocSet a w m

/-- The one canonical form: addresses strictly rising, and no entry equal to what an unlisted word reads
as, so that equal memories are equal lists. -/
abbrev Memory.wf (m : Memory) : Prop := AssocSorted m ∧ ∀ c ∈ m, c.2 ≠ Memory.unlisted

/-- A memory word as 32 bits. A stored GT's bits are its `word0` with the current permissions and B-bit
folded in, a free value (R65; log 7). -/
def MemWord.bits : MemWord → Word
  | .data w => w
  | .token g => Config.foldWord0 g.word0 g.perms g.b

/-- `MemRead(a, 1)`: the 32-bit word at absolute word address `a` (R62). -/
def Memory.readWord (m : Memory) (a : Nat) : Word := MemWord.bits (Memory.readCell m a)

/-- `MemWrite(a, 1, v)` (R62). -/
def Memory.writeWord (m : Memory) (a : Nat) (v : Word) : Memory := Memory.writeCell m a (.data v)

end Sys2Proof.Machine
end

