-- ==== Sys2Proof/Machine/Operands.lean ====
section
/-! DEFINITION. The operand forms: permission sets and presets, register operands, the extensions of imm15
(R98), the bit-field and shift operands. -/

namespace Sys2Proof.Machine

/-- `b`, or the stop. -/
def require (b : Bool) (stop : Stop) : Res Unit := if b then .ok () else .error stop

/-- The set holds the permission. -/
def permIn (p : Perm) (s : Perms) : Bool :=
  match p with
  | .r => s.r
  | .w => s.w
  | .x => s.x
  | .l => s.l
  | .s => s.s
  | .e => s.e

/-- Every permission of `a` is in `b`. -/
def permsSubset (a b : Perms) : Bool :=
  (!a.r || b.r) && (!a.w || b.w) && (!a.x || b.x) && (!a.l || b.l) && (!a.s || b.s) && (!a.e || b.e)

/-- The permissions in both sets. -/
def permsInter (a b : Perms) : Perms :=
  { r := a.r && b.r, w := a.w && b.w, x := a.x && b.x, l := a.l && b.l, s := a.s && b.s, e := a.e && b.e }

/-- The set has no permission. -/
def permsEmpty (a : Perms) : Bool := !(a.r || a.w || a.x || a.l || a.s || a.e)

/-- A legal permission set: domain purity (no Turing permission beside a Church one) and E isolation
(no L or S beside E) (R32). -/
def permsLegal (a : Perms) : Bool :=
  !((a.r || a.w || a.x) && (a.l || a.s || a.e)) && !(a.e && (a.l || a.s))

/-- The permission set {L}, which CR6 receives (R160). -/
def permsL : Perms := { l := true }

/-- The permission set {X}, which CR14 receives (R160, R221). -/
def permsX : Perms := { x := true }

/-- PresetMask (R207); none for the reserved codes 10 to 15 (R206). -/
def presetMask (preset : BitVec 4) : Option Perms :=
  match preset.toNat with
  | 0 => some {}
  | 1 => some { r := true }
  | 2 => some { r := true, w := true }
  | 3 => some { x := true }
  | 4 => some { r := true, x := true }
  | 5 => some { r := true, w := true, x := true }
  | 6 => some { l := true }
  | 7 => some { s := true }
  | 8 => some { e := true }
  | 9 => some { l := true, s := true }
  | _ => none

/-- An ordinary CR operand: CR12 to CR15 raise PRIV_REG (R25, decision D20). -/
def ordinaryCR (i : CRNum) : Res Unit := require (i.val < 12) (.fault .privReg)

/-- CR6 is no explicit destination of the LOAD family (R144). -/
def notCR6 (i : CRNum) : Res Unit := require (i != 6) (.refuse .cr6Destination)

/-- A slot, index, offset or amount: imm15 zero-extended, a count of words or bits (R98). -/
def zextImm (imm : BitVec 15) : Nat := imm.toNat

/-- The immediate of IADD and ISUB (R98, R265; ARITH_IMM_SIGNED). -/
def arithImm (imm : BitVec 15) : Word :=
  if Config.arithImmSigned then imm.signExtend 32 else imm.zeroExtend 32

/-- BRANCH's target as an integer: pc + sext(imm15) (R281). -/
def branchTarget (pc : Nat) (offset : BitVec 15) : Int := pc + offset.toInt

/-- A field inside the register: 1 <= width and width + lsb <= 32 (R104, R253). -/
def bitfieldInRange (width : BitVec 6) (lsb : BitVec 5) : Res Unit :=
  require (1 ≤ width.toNat && width.toNat + lsb.toNat ≤ 32) (.refuse .bitfieldRange)

/-- `mask(width) = 2^width - 1` (R250). -/
def fieldMask (width : Nat) : Word := BitVec.ofNat 32 (2 ^ width - 1)

/-- BFEXT's result: the field at bit 0, the upper bits zero, or copies of the field's top bit under
BFEXT_SIGNED (R251). -/
def bitfieldExtract (x : Word) (width lsb : Nat) : Word :=
  let field := (x >>> lsb) &&& fieldMask width
  if Config.bfextSigned && x.getLsbD (lsb + width - 1) then field ||| ~~~(fieldMask width) else field

/-- BFINS's result: the low `width` bits of `x` replace the field of `old` at `lsb` (R254). -/
def bitfieldInsert (old x : Word) (width lsb : Nat) : Word :=
  let m := fieldMask width <<< lsb
  (old &&& ~~~m) ||| ((x <<< lsb) &&& m)

/-- The amount a shift uses, `none` where its result is 0 (R285, R288). An amount of 32 or more has one of
the two readings of R287, and which is a free value (SHIFT_OVERRANGE; log 16). -/
def shiftAmount (amount : BitVec 15) : Option Nat :=
  if amount.toNat < 32 then some amount.toNat
  else match Config.shiftOverrange with
    | .zero => none
    | .mod32 => some (amount.toNat % 32)

end Sys2Proof.Machine
end

