-- ==== Sys2Proof/Machine/Ops.lean ====
section
/-! DEFINITION. The operations the meanings share: registers, the program counter, the access check, the
routines mLoad and mSave, entering an abstraction, applying a lambda, the return's parts, the context
switch, raising a fault, and running an instruction under its condition. -/

namespace Sys2Proof.Machine

/-! ### Stopping -/

/-- Raising a fault: the one shared operation. The spec describes no trap entry: nothing is saved, no
handler is entered, and the step ends with the fault's name and the state as it was (R303, R304, R309). -/
def raise {α : Type} (f : Fault) : Res α := .error (.fault f)

/-- `raise FAULT` unless `b`. -/
def check (b : Bool) : Res Unit := require b (.fault .fault)

/-- A step's outcome from the result of an operation on the state. -/
def toOutcome : Res State → Out
  | .ok s => .next s
  | .error (.fault f) => .fault f
  | .error (.refuse r) => .refused r

/-! ### Registers -/

/-- `CR[i]` (R22). -/
def State.crAt (s : State) (i : CRNum) : CRVal := s.cr[i.val]

/-- `CR[i] <- g` (R7). -/
def State.setCr (s : State) (i : CRNum) (g : CRVal) : State := { s with cr := s.cr.set i.val g }

/-- `DR[i]` (R20). -/
def State.drAt (s : State) (i : DRNum) : Word := s.dr[i.val]

/-- `DR[i] <- v` (R7). -/
def State.setDr (s : State) (i : DRNum) (v : Word) : State := { s with dr := s.dr.set i.val v }

/-- `Z <- b`, the other flags unchanged (R29: TPERM). -/
def State.setZ (s : State) (b : Bool) : State := { s with flags := { s.flags with z := b } }

/-! ### The program counter -/

/-- The program counter stays inside 0 .. 2^PC_WIDTH - 1 (R27). -/
def pcOk (s : State) (t : Int) : Bool := 0 ≤ t && t < 2 ^ s.params.pcWidth.val

/-- `pc + 1`, or FAULT outside the pc range (R27, decision D30). -/
def nextPc (s : State) : Res Nat := do
  check (pcOk s (s.pc + 1))
  return s.pc + 1

/-- `pc <- pc + 1` (R27). -/
def advance (s : State) : Res State := do
  let n ← nextPc s
  return { s with pc := n }

/-- `pc <- t`, or FAULT outside the pc range (R281). -/
def jump (s : State) (t : Int) : Res State := do
  check (pcOk s t)
  return { s with pc := t.toNat }

/-! ### The abstract predicates -/

/-- What the abstract predicates read of a state (R41; log 5). -/
def State.view (s : State) : View := { root := s.crAt 15, mem := s.mem }

/-- The answer listed for a key. -/
def lookupKey {κ ρ : Type} [DecidableEq κ] (k : κ) : List (κ × ρ) → Option ρ
  | [] => none
  | e :: t => if e.1 = k then some e.2 else lookupKey k t

/-- The answer of a table for a key at a view. -/
def Table.ask {κ ρ : Type} [DecidableEq κ] (t : Table κ ρ) (v : View) (k : κ) : ρ :=
  ((lookupKey (v, k) t.atView).or (lookupKey k t.always)).getD t.otherwise

/-- `Valid = VersionOK and SealOK` (R66), evaluated at the state it is asked in. -/
def valid (s : State) (g : Gt) : Bool :=
  s.params.versionOK.ask s.view g && s.params.sealOK.ask s.view g

/-! ### Capability-checked access -/

/-- `CheckAccess(g, p, off)` (R72): NULL, Valid, permission, bounds; the address. -/
def checkAccess (s : State) (c : CRVal) (p : Perm) (off : Nat) : Res Nat :=
  match c with
  | none => raise .fault
  | some g => do
    check (valid s g)
    check (permIn p g.perms)
    check (g.base + off ≤ g.limit)
    return g.base + off

/-- `pack(g)`: the stored form of a CR value (R65): NULL is the word 0, a GT its record. -/
def pack : CRVal → MemWord
  | none => .data 0
  | some g => .token g

/-- `expand(w, state)` of a stored GT (R140): the record itself, or, of a plain word, the GT the open
GT_LAYOUT gives it, with `word0` that word (log 20). -/
def expandWord (s : State) : MemWord → Gt
  | .token g => g
  | .data w => { s.params.expand.ask s.view w with word0 := w }

/-- `mLoadWord(w)` (R140): NULL for the word 0, else the expanded GT, validated, its G-bit reset. -/
def mLoadWord (s : State) (w : MemWord) : Res CRVal :=
  if w = .data 0 then .ok none
  else do
    let g := expandWord s w
    check (s.params.versionOK.ask s.view g)
    check (s.params.sealOK.ask s.view g)
    check (s.params.fbitLoad.ask s.view w)
    return some { g with g := false }

/-- `mLoad(c, slot, checkL)` (R141). -/
def mLoad (s : State) (c : CRVal) (slot : Nat) (checkL : Bool) : Res CRVal :=
  match c with
  | none => raise .fault
  | some t => do
    check (valid s t)
    check (!checkL || permIn .l t.perms)
    check (t.base + slot ≤ t.limit)
    mLoadWord s (Memory.readCell s.mem (t.base + slot))

/-- The L test of LOAD, ELOADCALL and XLOADLAMBDA is made unless `src` is CR6 (R142). -/
def needsL (src : CRNum) : Bool := src != 6

/-- A GT where NULL will not do, or FAULT (R31, decision D36). -/
def nonNull (c : CRVal) : Res Gt :=
  match c with
  | none => raise .fault
  | some g => .ok g

/-- `mSave(c, slot, g)` (R147): every test, then the slot written with `pack(g)`. -/
def mSave (s : State) (c : CRVal) (slot : Nat) (v : CRVal) : Res State := do
  let a ← checkAccess s c .s slot
  let g ← nonNull v
  check (valid s g)
  check g.b
  check (s.params.fbitSave.ask s.view a)
  return { s with mem := Memory.writeCell s.mem a (pack v) }

/-! ### The call stack -/

/-- `push_frame(pack(cur_egt), (nia, mi))`, and CR5 onto `cr5_stack` (R36, R37, R160, R221). -/
def pushFrame (s : State) (nia : Nat) : State :=
  { s with
    callStack := { egt := pack s.curEgt, nia := nia, mi := s.mi } :: s.callStack
    cr5Stack := s.crAt 5 :: s.cr5Stack }

/-- The call stack is not full (R36, decision D29). -/
def roomForFrame (s : State) : Bool := s.callStack.length < s.params.callStackDepth

/-- A GT with its permissions replaced: what CR6 and CR14 receive (R160, R168, R221). -/
def withPerms (g : Gt) (p : Perms) : CRVal := some { g with perms := p }

/-- `NSSplit(e, state)`, or FAULT where it is undefined (R160). -/
def nsSplit (s : State) (e : Gt) : Res (Gt × Gt) :=
  match s.params.nsSplit.ask s.view e with
  | none => raise .fault
  | some p => .ok p

/-- CR6 and CR14 of the abstraction with c-list `cl` and code `code`: L-only and X-only (R160, R168). -/
def setDomain (s : State) (cl code : Gt) : State :=
  (s.setCr 6 (withPerms cl permsL)).setCr 14 (withPerms code permsX)

/-- `Enter(e)` (R160): the common tail of CALL and ELOADCALL. -/
def enter (s : State) (e : Gt) : Res State := do
  check (valid s e)
  check (permIn .e e.perms)
  let nia ← nextPc s
  check (roomForFrame s)
  let p ← nsSplit s e
  return { setDomain (pushFrame s nia) p.1 p.2 with curEgt := some e, pc := 0 }

/-- LAMBDA's tests and writes on the GT applied (R221), under LAMBDA_RETURN_MODEL. -/
def applyLambda (s : State) (v : CRVal) : Res State := do
  let _ ← checkAccess s v .x 0
  let g ← nonNull v
  let nia ← nextPc s
  check (roomForFrame s)
  match Config.lambdaReturnModel with
  | .callFrame => return { (pushFrame s nia).setCr 14 (withPerms g permsX) with pc := 0 }
  | .refuse => .error (.refuse .lambdaModel)

/-- The registers RETURN's mask can name: CR0 to CR5 and CR7 to CR11 (R168, R169). -/
def maskableCRs : List CRNum := [0, 1, 2, 3, 4, 5, 7, 8, 9, 10, 11]

/-- RETURN's step 5: every CR whose mask bit is 1 becomes NULL (R168). -/
def applyMask (s : State) (mask : BitVec 12) : State :=
  maskableCRs.foldl (fun t n => if mask.getLsbD n.val then t.setCr n none else t) s

/-! ### Free values -/

/-- The flags become `any` (R29; log 8). -/
def anyFlags (s : State) : State :=
  { s with flags := Config.freeFlags s.freeIndex, freeIndex := s.freeIndex + 1 }

/-- A GT within what the spec says of every GT: a legal permission set, `word0` not zero (R31, R32). Free
values that are GTs are drawn within it (log 9). -/
def legalised (g : Gt) : Gt :=
  { g with
    perms := if permsLegal g.perms then g.perms else {}
    word0 := if g.word0 = 0 then 1 else g.word0 }

/-- A stored word within the same limits. -/
def legalisedWord : MemWord → MemWord
  | .data w => .data w
  | .token g => .token (legalised g)

/-- A frame within the same limits, its NIA a PC_WIDTH-bit value (R26, R36). -/
def legalisedFrame (s : State) (f : Frame) : Frame :=
  { f with egt := legalisedWord f.egt, nia := f.nia % 2 ^ s.params.pcWidth.val }

/-! ### The context switch -/

/-- The running thread's saved state, with the pc it resumes at (R184, R40). -/
def savedLump (s : State) (pc : Nat) : Lump :=
  { cr := #v[s.crAt 0, s.crAt 1, s.crAt 2, s.crAt 3, s.crAt 4, s.crAt 5, s.crAt 6, s.crAt 7, s.crAt 8,
      s.crAt 9, s.crAt 10, s.crAt 11]
    cr14 := s.crAt 14
    cr15 := s.crAt 15
    dr := s.dr
    pc := pc
    activated := true }

/-- What a lump that nothing has written holds: free values, not yet activated (R184; log 10). -/
def unwrittenLump (id : Nat) : Lump :=
  let l := Config.freshLump id
  { l with
    cr := l.cr.map (Option.map legalised)
    cr14 := l.cr14.map legalised
    cr15 := l.cr15.map legalised
    pc := 0
    activated := false }

/-- The lump with a number. -/
def lumpAt (lumps : List (Nat × Lump)) (id : Nat) : Lump := (assocFind id lumps).getD (unwrittenLump id)

/-- The thread state of a lump loaded: CR0 to CR11, CR14, CR15, the DRs, and pc, which is 0 at a first
activation. CR12 and CR13 are system-wide and stay (R184, R24). -/
def loadLump (s : State) (l : Lump) : State :=
  { s with
    cr := #v[l.cr[0], l.cr[1], l.cr[2], l.cr[3], l.cr[4], l.cr[5], l.cr[6], l.cr[7], l.cr[8], l.cr[9],
      l.cr[10], l.cr[11], s.crAt 12, s.crAt 13, l.cr14, l.cr15]
    dr := l.dr
    pc := if l.activated then l.pc else 0 }

/-- What the spec leaves `any` after a context switch: flags, `cur_egt`, both stacks, `mi` (R184; log 9).
The stacks are drawn with equal depths, within CALL_STACK_DEPTH (R36, R37). -/
def anyThreadState (s : State) : State :=
  let n := s.freeIndex
  let drawn := (Config.freeStacks n).take s.params.callStackDepth
  { anyFlags s with
    curEgt := (Config.freeCurEgt n).map legalised
    callStack := drawn.map fun p => legalisedFrame s p.1
    cr5Stack := drawn.map fun p => p.2.map legalised
    mi := Config.freeMi n }

/-- `ContextSwitch(dst, g)` (R184): the running thread saved in its lump, the target thread's state
loaded, then `CR[dst] <- g`. The target becomes the current thread (log 9). -/
def contextSwitch (s : State) (dst : CRNum) (g : CRVal) : Res State := do
  let n ← nextPc s
  match Config.threadModel with
  | .lumps =>
    let lumps := assocSet s.curLump (savedLump s n) s.lumps
    let target := s.params.targetLump.ask s.view (dst, g)
    let t := loadLump { s with lumps := lumps, curLump := target } (lumpAt lumps target)
    return (anyThreadState t).setCr dst g
  | .refuse => .error (.refuse .threadModel)

/-! ### Fetch and conditional execution -/

/-- The instruction word at offset `pc` of CR14's code object (R70). -/
def fetch (s : State) : Res Word := do
  let a ← checkAccess s (s.crAt 14) .x s.pc
  return Memory.readWord s.mem a

/-- An instruction under its condition: skipped, which only advances pc, or executed (R131). -/
def underCond (c : Cond) (s : State) (effect : State → Res State) : Out :=
  toOutcome (if condPass c s.flags then effect s else advance s)

/-- What executing a word that is no instruction does (R105, R107, R108). -/
def executeReject : Reject → Res State
  | .undefinedOpcode => raise .invalidOp
  | .returnReserved => raise .invalidOp
  | .unusedField => .error (.refuse .unusedField)

/-- A word that is no instruction: skipped if its condition fails, else stopped by name (R133). -/
def runReject (r : Reject) (c : Cond) (s : State) : Out := underCond c s fun _ => executeReject r

/-! ### Loading a program from outside (log 6) -/

/-- A GT for a loaded code object: X-only, from address 0 up to and including the next fetch (R342). -/
def loaderCode (pc : Nat) : Gt :=
  { perms := permsX, b := false, g := false, version := 0, mac := 0, base := 0, limit := pc, kind := 0,
    stackInd := 0, word0 := 1 }

/-- The GT the next fetch goes through: CR14's where it has X and bounds that cover pc, else a loader's. -/
def fetchToken (s : State) : Gt :=
  match s.crAt 14 with
  | none => loaderCode s.pc
  | some g => if permIn .x g.perms && g.base + s.pc ≤ g.limit then g else loaderCode s.pc

/-- A predicate's table with the answer `true` for a key at a view, unchanged if that is its answer. -/
def Table.allow {κ : Type} [DecidableEq κ] (t : Table κ Bool) (v : View) (k : κ) : Table κ Bool :=
  if t.ask v k then t else { t with atView := ((v, k), true) :: t.atView }

/-- The state with a word placed where the next fetch reads it, and all that this fetch needs: CR14, and
the GT's validity. -/
def placeWord (s : State) (w : Word) : State :=
  let g := fetchToken s
  let t := { s.setCr 14 (some g) with mem := Memory.writeWord s.mem (g.base + s.pc) w }
  { t with params := { t.params with
      versionOK := t.params.versionOK.allow t.view g
      sealOK := t.params.sealOK.allow t.view g } }

end Sys2Proof.Machine
end

