-- ==== Sys2Proof/Machine/Arith.lean ====
section
/-! DEFINITION. MCMP, IADD and ISUB (opcodes 14, 15 and 16), the writers of all four flags. -/

namespace Sys2Proof.Machine

/-- A result written to a DR together with its flags. -/
def setResult (s : State) (rd : DRNum) (r : Word × Flags) : State :=
  { s.setDr rd r.1 with flags := r.2 }

/-- MCMP, executed (R261): the flags of DRd - DRs, nothing stored. -/
def mcmpEffect (rd rs : DRNum) (s : State) : Res State :=
  advance { s with flags := (subFlags (s.drAt rd) (s.drAt rs)).2 }

/-- MCMP (R261, R262). -/
def execMcmp (c : Cond) (rd rs : DRNum) (s : State) : Out :=
  underCond c s (mcmpEffect rd rs)

/-- IADD, executed (R265). -/
def iaddEffect (rd rs : DRNum) (imm : BitVec 15) (s : State) : Res State :=
  advance (setResult s rd (addFlags (s.drAt rs) (arithImm imm)))

/-- IADD (R265, R266). -/
def execIadd (c : Cond) (rd rs : DRNum) (imm : BitVec 15) (s : State) : Out :=
  underCond c s (iaddEffect rd rs imm)

/-- ISUB, executed (R268). -/
def isubEffect (rd rs : DRNum) (imm : BitVec 15) (s : State) : Res State :=
  advance (setResult s rd (subFlags (s.drAt rs) (arithImm imm)))

/-- ISUB (R268). -/
def execIsub (c : Cond) (rd rs : DRNum) (imm : BitVec 15) (s : State) : Out :=
  underCond c s (isubEffect rd rs imm)

end Sys2Proof.Machine
end

