-- ==== Sys2Proof/Machine/BitField.lean ====
section
/-! DEFINITION. BFEXT and BFINS (opcodes 12 and 13). -/

namespace Sys2Proof.Machine

/-- BFEXT, executed (R251). -/
def bfextEffect (rd rs : DRNum) (width : BitVec 6) (lsb : BitVec 5) (s : State) : Res State := do
  bitfieldInRange width lsb
  advance (s.setDr rd (bitfieldExtract (s.drAt rs) width.toNat lsb.toNat))

/-- BFEXT (R251, R253). -/
def execBfext (c : Cond) (rd rs : DRNum) (width : BitVec 6) (lsb : BitVec 5) (s : State) : Out :=
  underCond c s (bfextEffect rd rs width lsb)

/-- BFINS, executed (R254). -/
def bfinsEffect (rd rs : DRNum) (width : BitVec 6) (lsb : BitVec 5) (s : State) : Res State := do
  bitfieldInRange width lsb
  advance (s.setDr rd (bitfieldInsert (s.drAt rd) (s.drAt rs) width.toNat lsb.toNat))

/-- BFINS (R253, R254). -/
def execBfins (c : Cond) (rd rs : DRNum) (width : BitVec 6) (lsb : BitVec 5) (s : State) : Out :=
  underCond c s (bfinsEffect rd rs width lsb)

end Sys2Proof.Machine
end

