-- ==== Sys2Proof/Machine/BranchShift.lean ====
section
/-! DEFINITION. BRANCH, SHL and SHR (opcodes 17, 18 and 19). -/

namespace Sys2Proof.Machine

/-- BRANCH, executed (R281). -/
def branchEffect (offset : BitVec 15) (s : State) : Res State :=
  jump s (branchTarget s.pc offset)

/-- BRANCH (R281, R282). -/
def execBranch (c : Cond) (offset : BitVec 15) (s : State) : Out :=
  underCond c s (branchEffect offset)

/-- SHL, executed (R285). -/
def shlEffect (rd rs : DRNum) (amount : BitVec 15) (s : State) : Res State :=
  advance (s.setDr rd ((shiftAmount amount).elim 0 fun k => s.drAt rs <<< k))

/-- SHL (R285, R287). -/
def execShl (c : Cond) (rd rs : DRNum) (amount : BitVec 15) (s : State) : Out :=
  underCond c s (shlEffect rd rs amount)

/-- SHR, executed (R288): logical, zeros enter at bit 31. -/
def shrEffect (rd rs : DRNum) (amount : BitVec 15) (s : State) : Res State :=
  advance (s.setDr rd ((shiftAmount amount).elim 0 fun k => s.drAt rs >>> k))

/-- SHR (R287, R288). -/
def execShr (c : Cond) (rd rs : DRNum) (amount : BitVec 15) (s : State) : Out :=
  underCond c s (shrEffect rd rs amount)

end Sys2Proof.Machine
end

