-- ==== Sys2Proof/Machine/CallReturn.lean ====
section
/-! DEFINITION. CALL in its two modes and RETURN (opcodes 2 and 3). -/

namespace Sys2Proof.Machine

/-- CALL in Direct mode, executed (R162): CRs itself is the E-GT. -/
def callDirectEffect (rs : CRNum) (s : State) : Res State := do
  ordinaryCR rs
  let e ← nonNull (s.crAt rs)
  enter s e

/-- CALL, Direct mode (R162). -/
def execCallDirect (c : Cond) (rs : CRNum) (s : State) : Out :=
  underCond c s (callDirectEffect rs)

/-- CALL in C-List mode, executed (R161): the E-GT is in slot `offset` of CRs's c-list; the L test is
always made. -/
def callClistEffect (rs : CRNum) (offset : BitVec 4) (s : State) : Res State := do
  ordinaryCR rs
  let v ← mLoad s (s.crAt rs) offset.toNat true
  let e ← nonNull v
  enter s e

/-- CALL, C-List mode (R161). -/
def execCallClist (c : Cond) (rs : CRNum) (offset : BitVec 4) (s : State) : Out :=
  underCond c s (callClistEffect rs offset)

/-- RETURN, executed (R168): the caller's E-GT revalidated, CR6 and CR14 derived again, CR5, pc and the
machine indicators restored, the flags `any`, then the mask. An empty call stack is the Reboot outcome
(R167). A `cr5_stack` shorter than the call stack cannot arise from rule-made states and faults (log 13). -/
def retEffect (mask : BitVec 12) (s : State) : Res State := do
  require (!mask.getLsbD 6) (.fault .invalidOp)
  match s.callStack with
  | [] => raise .reboot
  | f :: frames => do
    let v ← mLoadWord s f.egt
    let e ← nonNull v
    let p ← nsSplit s e
    match s.cr5Stack with
    | [] => raise .fault
    | g5 :: rest =>
      let t := (setDomain s p.1 p.2).setCr 5 g5
      return applyMask (anyFlags { t with
        callStack := frames, cr5Stack := rest, curEgt := some e, pc := f.nia, mi := f.mi }) mask

/-- RETURN (R168). -/
def execRet (c : Cond) (mask : BitVec 12) (s : State) : Out :=
  underCond c s (retEffect mask)

end Sys2Proof.Machine
end

