-- ==== Sys2Proof/Machine/ChangeSwitch.lean ====
section
/-! DEFINITION. CHANGE and SWITCH (opcodes 4 and 5), the writes of the privileged registers. -/

namespace Sys2Proof.Machine

/-- CHANGE, executed (R181): CR12 and CR13 are written directly, CR14 and CR15 by a context switch. -/
def changeEffect (rd rs : CRNum) (idx : BitVec 15) (s : State) : Res State := do
  require (12 ≤ rd.val) (.fault .privReg)
  ordinaryCR rs
  let g ← mLoad s (s.crAt rs) (zextImm idx) true
  if rd = 12 ∨ rd = 13 then advance (s.setCr rd g) else contextSwitch s rd g

/-- CHANGE (R181 to R185). -/
def execChange (c : Cond) (rd rs : CRNum) (idx : BitVec 15) (s : State) : Out :=
  underCond c s (changeEffect rd rs idx)

/-- `Tgt = dst[2:0]` (R103). -/
def switchTgt (rn : CRNum) : BitVec 3 := BitVec.ofNat 3 rn.val

/-- SWITCH, executed (R188): a GT that passes the sentinel test is copied into CR13 or CR15. -/
def switchEffect (rn rs : CRNum) (s : State) : Res State := do
  require (rn == 13 || rn == 15) (.fault .invalidOp)
  ordinaryCR rs
  let g ← nonNull (s.crAt rs)
  check (valid s g)
  check (s.params.sentinelOK.ask s.view (g, switchTgt rn))
  advance (s.setCr rn (some g))

/-- SWITCH (R188, R189). -/
def execSwitch (c : Cond) (rn rs : CRNum) (s : State) : Out :=
  underCond c s (switchEffect rn rs)

end Sys2Proof.Machine
end

