-- ==== Sys2Proof/Machine/Data.lean ====
section
/-! DEFINITION. DREAD and DWRITE (opcodes 10 and 11), the only data loads and stores. -/

namespace Sys2Proof.Machine

/-- DREAD, executed (R241). -/
def dreadEffect (rd : DRNum) (rs : CRNum) (offset : BitVec 15) (s : State) : Res State := do
  ordinaryCR rs
  let a ← checkAccess s (s.crAt rs) .r (zextImm offset)
  advance (s.setDr rd (Memory.readWord s.mem a))

/-- DREAD (R241). -/
def execDread (c : Cond) (rd : DRNum) (rs : CRNum) (offset : BitVec 15) (s : State) : Out :=
  underCond c s (dreadEffect rd rs offset)

/-- DWRITE, executed (R244): the `dst` field names the object's CR, the `src` field the DR stored. -/
def dwriteEffect (rd : CRNum) (rs : DRNum) (offset : BitVec 15) (s : State) : Res State := do
  ordinaryCR rd
  let a ← checkAccess s (s.crAt rd) .w (zextImm offset)
  advance { s with mem := Memory.writeWord s.mem a (s.drAt rs) }

/-- DWRITE (R244). -/
def execDwrite (c : Cond) (rd : CRNum) (rs : DRNum) (offset : BitVec 15) (s : State) : Out :=
  underCond c s (dwriteEffect rd rs offset)

end Sys2Proof.Machine
end

