-- ==== Sys2Proof/Machine/LoadSave.lean ====
section
/-! DEFINITION. LOAD and SAVE (opcodes 0 and 1). -/

namespace Sys2Proof.Machine

/-- The LOAD half shared in form by LOAD, ELOADCALL and XLOADLAMBDA: the operand tests and mLoad with
CR6's M-elevation (R142, R143, R144). -/
def loadToken (s : State) (rd rs : CRNum) (slot : BitVec 15) : Res CRVal := do
  ordinaryCR rd
  ordinaryCR rs
  notCR6 rd
  mLoad s (s.crAt rs) (zextImm slot) (needsL rs)

/-- LOAD, executed (R143). -/
def loadEffect (rd rs : CRNum) (slot : BitVec 15) (s : State) : Res State := do
  let g ← loadToken s rd rs slot
  advance (s.setCr rd g)

/-- LOAD (R143, R144). -/
def execLoad (c : Cond) (rd rs : CRNum) (slot : BitVec 15) (s : State) : Out :=
  underCond c s (loadEffect rd rs slot)

/-- SAVE, executed (R148): CRd is the c-list, CRs the GT saved. -/
def saveEffect (rd rs : CRNum) (slot : BitVec 15) (s : State) : Res State := do
  ordinaryCR rd
  ordinaryCR rs
  let t ← mSave s (s.crAt rd) (zextImm slot) (s.crAt rs)
  advance t

/-- SAVE (R148, R149). -/
def execSave (c : Cond) (rd rs : CRNum) (slot : BitVec 15) (s : State) : Out :=
  underCond c s (saveEffect rd rs slot)

end Sys2Proof.Machine
end

