-- ==== Sys2Proof/Machine/Lambda.lean ====
section
/-! DEFINITION. LAMBDA, ELOADCALL and XLOADLAMBDA (opcodes 7, 8 and 9). -/

namespace Sys2Proof.Machine

/-- LAMBDA, executed (R221). -/
def lambdaEffect (rd : CRNum) (s : State) : Res State := do
  ordinaryCR rd
  applyLambda s (s.crAt rd)

/-- LAMBDA (R221). -/
def execLambda (c : Cond) (rd : CRNum) (s : State) : Out :=
  underCond c s (lambdaEffect rd)

/-- ELOADCALL, executed (R225): the LOAD half is written before CR5 is pushed, so `dst = 5` pushes the
loaded GT (R226); a failed test of either half leaves everything unchanged. -/
def eloadcallEffect (rd rs : CRNum) (slot : BitVec 15) (s : State) : Res State := do
  let v ← loadToken s rd rs slot
  let e ← nonNull v
  enter (s.setCr rd v) e

/-- ELOADCALL (R225, R226). -/
def execEloadcall (c : Cond) (rd rs : CRNum) (slot : BitVec 15) (s : State) : Out :=
  underCond c s (eloadcallEffect rd rs slot)

/-- XLOADLAMBDA, executed (R228). -/
def xloadlambdaEffect (rd rs : CRNum) (slot : BitVec 15) (s : State) : Res State := do
  let v ← loadToken s rd rs slot
  applyLambda (s.setCr rd v) v

/-- XLOADLAMBDA (R228, R229). -/
def execXloadlambda (c : Cond) (rd rs : CRNum) (slot : BitVec 15) (s : State) : Out :=
  underCond c s (xloadlambdaEffect rd rs slot)

end Sys2Proof.Machine
end

