-- ==== Sys2Proof/Machine/Tperm.lean ====
section
/-! DEFINITION. TPERM in its two modes (opcode 6). It raises no fault of its own (R201); only the advance
of pc past the pc range stops it (R27; log 14). -/

namespace Sys2Proof.Machine

/-- Mode 1's three checks on a GT (R203): permissions, validity, bounds. -/
def tpermPasses (s : State) (g : Gt) (m : Perms) (off : Nat) : Bool :=
  permsSubset m g.perms && valid s g && decide (g.base + off ≤ g.limit)

/-- A GT with the B-bit cleared where a passing TPERM carries the B-modifier (R211). -/
def bModified (bmod pass : Bool) (g : Gt) : Gt := if pass && bmod then { g with b := false } else g

/-- TPERM Mode 1 with a given B-modifier, before pc advances (R202, R203, R206, R211). -/
def tpermHealth (bmod : Bool) (rd : CRNum) (preset : BitVec 4) (off : Nat) (s : State) : State :=
  match s.crAt rd, presetMask preset with
  | some g, some m =>
    let ok := tpermPasses s g m off
    (s.setCr rd (some (bModified bmod ok g))).setZ ok
  | _, _ => s.setZ false

/-- TPERM Mode 1, executed (R203). -/
def tpermCheckEffect (rd : CRNum) (preset : BitVec 4) (offset : BitVec 15) (s : State) : Res State :=
  advance (tpermHealth Config.tpermBmod rd preset (zextImm offset) s)

/-- TPERM, Mode 1, health check (R203). -/
def execTpermCheck (c : Cond) (rd : CRNum) (preset : BitVec 4) (offset : BitVec 15) (s : State) : Out :=
  underCond c s (tpermCheckEffect rd preset offset)

/-- TPERM Mode 2 with a given B-modifier, before pc advances (R202, R206, R209, R211). -/
def tpermRestriction (bmod : Bool) (rd : CRNum) (preset : BitVec 4) (s : State) : State :=
  match s.crAt rd, presetMask preset with
  | some g, some m =>
    let p := permsInter g.perms m
    let z := !permsEmpty p
    (s.setCr rd (some (bModified bmod z { g with perms := p }))).setZ z
  | _, _ => s.setZ false

/-- TPERM Mode 2 would write CRd: a GT is there, and the preset is a defined one. On NULL it only sets Z to 0,
which R202 puts before every other rule of TPERM, and so it does on a reserved preset (R206). -/
def tpermWrites (rd : CRNum) (preset : BitVec 4) (s : State) : Bool :=
  (s.crAt rd).isSome && (presetMask preset).isSome

/-- TPERM Mode 2, executed (R202, R206, R209): refused where it would write one of CR12 to CR15, to which the
spec gives no meaning (R201, R306, decision D20; log 15). -/
def tpermRestrictEffect (rd : CRNum) (preset : BitVec 4) (s : State) : Res State := do
  require (rd.val < 12 || !tpermWrites rd preset s) (.refuse .privilegedDestination)
  advance (tpermRestriction Config.tpermBmod rd preset s)

/-- TPERM, Mode 2, restriction (R209). -/
def execTpermRestrict (c : Cond) (rd : CRNum) (preset : BitVec 4) (s : State) : Out :=
  underCond c s (tpermRestrictEffect rd preset)

end Sys2Proof.Machine
end

