-- ==== Sys2Proof/Machine/Dispatch.lean ====
section
/-! DEFINITION. One arm per constructor of Instr, each one call of its meaning. -/

namespace Sys2Proof.Machine

def exec (i : Instr) (s : State) : Host.Outcome State Fault Refusal :=
  match i with
  | .load c rd rs slot => Sys2Proof.Machine.execLoad c rd rs slot s
  | .save c rd rs slot => Sys2Proof.Machine.execSave c rd rs slot s
  | .callDirect c rs => Sys2Proof.Machine.execCallDirect c rs s
  | .callClist c rs offset => Sys2Proof.Machine.execCallClist c rs offset s
  | .ret c mask => Sys2Proof.Machine.execRet c mask s
  | .change c rd rs idx => Sys2Proof.Machine.execChange c rd rs idx s
  | .switch c rn rs => Sys2Proof.Machine.execSwitch c rn rs s
  | .tpermRestrict c rd preset => Sys2Proof.Machine.execTpermRestrict c rd preset s
  | .tpermCheck c rd preset offset => Sys2Proof.Machine.execTpermCheck c rd preset offset s
  | .lambda c rd => Sys2Proof.Machine.execLambda c rd s
  | .eloadcall c rd rs slot => Sys2Proof.Machine.execEloadcall c rd rs slot s
  | .xloadlambda c rd rs slot => Sys2Proof.Machine.execXloadlambda c rd rs slot s
  | .dread c rd rs offset => Sys2Proof.Machine.execDread c rd rs offset s
  | .dwrite c rd rs offset => Sys2Proof.Machine.execDwrite c rd rs offset s
  | .bfext c rd rs width lsb => Sys2Proof.Machine.execBfext c rd rs width lsb s
  | .bfins c rd rs width lsb => Sys2Proof.Machine.execBfins c rd rs width lsb s
  | .mcmp c rd rs => Sys2Proof.Machine.execMcmp c rd rs s
  | .iadd c rd rs imm => Sys2Proof.Machine.execIadd c rd rs imm s
  | .isub c rd rs imm => Sys2Proof.Machine.execIsub c rd rs imm s
  | .branch c offset => Sys2Proof.Machine.execBranch c offset s
  | .shl c rd rs amount => Sys2Proof.Machine.execShl c rd rs amount s
  | .shr c rd rs amount => Sys2Proof.Machine.execShr c rd rs amount s

end Sys2Proof.Machine
end

