-- ==== Sys2Proof/Machine/Step.lean ====
section
/-! DEFINITION. One step of the machine, and placing an instruction where the next step fetches it. -/

namespace Sys2Proof.Machine

/-- Run a fetched word: the instruction it decodes to, or what a word that is no instruction does
(R11, R133). -/
def runWord (w : Word) (s : State) : Out :=
  match decode w with
  | .ok i => exec i s
  | .error r => runReject r (condOf w) s

/-- One step (R11): fetch, which may stop before the condition is known (R133), then run the word. -/
def step (s : State) : Host.Outcome State Fault Refusal :=
  match fetch s with
  | .error (.fault f) => .fault f
  | .error (.refuse r) => .refused r
  | .ok w => runWord w s

/-- The state with the low `nbits` bits of `w` placed as the next instruction: the load of a program from
outside the machine (R343; log 6). -/
def State.withFetchWord (s : State) (nbits w : Nat) : State :=
  placeWord s (BitVec.ofNat 32 (w % 2 ^ nbits))

end Sys2Proof.Machine
end

