-- ==== Sys2Proof/Safety.lean ====
section
/-! DEFINITION. What the statements say of a state: the invariants a launch establishes and every step
keeps, the launch premises of R42, R61 and R342, and the premises under which an instruction completes. -/

namespace Sys2Proof.Machine

/-! ### Premises -/

/-- `pc + 1` is inside the pc range (R27). -/
abbrev State.HasNextPc (s : State) : Prop := s.pc + 1 < 2 ^ s.params.pcWidth.val

/-- The tests of CheckAccess pass on a CR value, and the address is `a` (R72). -/
def Accessible (s : State) (c : CRVal) (p : Perm) (off a : Nat) : Prop :=
  ∃ g, c = some g ∧ valid s g = true ∧ permIn p g.perms = true ∧ g.base + off ≤ g.limit ∧
    a = g.base + off

/-- What mLoadWord makes of a stored word (R140): NULL of the word 0, else the expanded GT if it passes
version, seal and F-bit, with its G-bit reset. -/
def LoadsAs (s : State) (w : MemWord) (v : CRVal) : Prop :=
  (w = .data 0 ∧ v = none) ∨
  (w ≠ .data 0 ∧ valid s (expandWord s w) = true ∧ s.params.fbitLoad.ask s.view w = true ∧
    v = some { expandWord s w with g := false })

/-- What mLoad fetches from slot `slot` of the c-list in a CR value (R141). -/
def SlotHolds (s : State) (c : CRVal) (slot : Nat) (needL : Bool) (v : CRVal) : Prop :=
  ∃ t, c = some t ∧ valid s t = true ∧ (needL = true → t.perms.l = true) ∧ t.base + slot ≤ t.limit ∧
    LoadsAs s (Memory.readCell s.mem (t.base + slot)) v

/-- The tests of Enter pass on an E-GT, and NSSplit gives the callee's c-list and code (R160). -/
def Enterable (s : State) (e cl code : Gt) : Prop :=
  valid s e = true ∧ e.perms.e = true ∧ s.HasNextPc ∧ s.callStack.length < s.params.callStackDepth ∧
    s.params.nsSplit.ask s.view e = some (cl, code)

/-- The tests of LAMBDA pass on the GT applied (R221). -/
def Applicable (s : State) (g : Gt) : Prop :=
  valid s g = true ∧ g.perms.x = true ∧ g.base ≤ g.limit ∧ s.HasNextPc ∧
    s.callStack.length < s.params.callStackDepth

/-- Two memories agree on every word but the one at `a`, read through the model's read of one word. -/
def SameMemoryExcept (m m' : Memory) (a : Nat) : Prop :=
  ∀ b, b ≠ a → Memory.readCell m' b = Memory.readCell m b

/-! ### The launch premise: no data write reaches a c-list, the stack, a lump or the namespace (R61) -/

/-- A range of absolute word addresses, both ends in it. -/
structure Region where
  base  : Nat
  limit : Nat
deriving DecidableEq, Repr

/-- The address is in the region: the bound that every access is held to (R72). -/
abbrev Region.Has (r : Region) (a : Nat) : Prop := r.base ≤ a ∧ a ≤ r.limit

/-- No address is in both regions. -/
abbrev Region.Apart (r q : Region) : Prop := min r.limit q.limit < max r.base q.base

/-- The region of a GT (R30). -/
def regionOf (g : Gt) : Region := { base := g.base, limit := g.limit }

/-- The GT stored in a memory word. -/
def storedToken : MemWord → CRVal
  | .data _ => none
  | .token g => some g

/-- Every answer that a table lists. -/
def Table.range {κ ρ : Type} (t : Table κ ρ) : List ρ :=
  t.atView.map (·.2) ++ t.always.map (·.2) ++ [t.otherwise]

/-- Every CR value that the state holds: in the CRs, `cur_egt`, both stacks, memory and the lumps. -/
def State.valuesHeld (s : State) : List CRVal :=
  s.cr.toList ++ [s.curEgt] ++ s.callStack.map (fun f => storedToken f.egt) ++ s.cr5Stack ++
    s.mem.map (fun c => storedToken c.2) ++ s.lumps.flatMap fun e => e.2.cr.toList ++ [e.2.cr14, e.2.cr15]

/-- Every GT that the state holds, and every GT that a plain word can expand to (R140). -/
def State.tokensHeld (s : State) : List Gt := s.valuesHeld.filterMap id ++ s.params.expand.range

/-- The c-lists: the regions of the GTs with L or S, of CR6, and of the c-lists that NSSplit answers. -/
def State.clistRegions (s : State) : List Region :=
  (s.tokensHeld.filter (fun g => g.perms.l || g.perms.s) ++ (s.crAt 6).toList ++
    s.params.nsSplit.range.filterMap (Option.map Prod.fst)).map regionOf

/-- The thread stack, which is CR12's object, and the namespace roots, CR15's object and those that the
lumps hold for their threads (R23, R61). -/
def State.implicitRegions (s : State) : List Region :=
  ((s.crAt 12).toList ++ (s.crAt 15).toList ++ s.lumps.filterMap fun e => e.2.cr15).map regionOf

/-- What the launch premise keeps apart from data: the c-lists, the thread stack, the namespace, and the
regions in which the platform keeps the thread lumps. No state says where those are, for the model holds the
lumps apart from memory, so they are an argument (log 25, log 26). -/
def State.protectedRegions (s : State) (lumpRegions : List Region) : List Region :=
  s.clistRegions ++ s.implicitRegions ++ lumpRegions

/-- The launch premise of R61 (N9, R342): the region of every GT with R or W overlaps no c-list, no thread
stack, no lump and no namespace. It is a premise on the state a run is launched in, and no step's test. -/
abbrev State.LaunchPremise (s : State) (lumpRegions : List Region) : Prop :=
  ∀ g ∈ s.tokensHeld, (g.perms.r || g.perms.w) = true →
    ∀ r ∈ s.protectedRegions lumpRegions, (regionOf g).Apart r

/-! ### Invariants -/

/-- A GT the spec allows: a legal permission set (R32), `word0` not zero (R31). -/
def tokenLegal (g : Gt) : Bool := permsLegal g.perms && g.word0 != 0

/-- NULL or a legal GT. -/
def crLegal : CRVal → Bool
  | none => true
  | some g => tokenLegal g

/-- Plain data, or a stored legal GT. -/
def wordLegal : MemWord → Bool
  | .data _ => true
  | .token g => tokenLegal g

/-- Every GT a lump holds is legal. -/
abbrev lumpLegal (l : Lump) : Prop :=
  (∀ i : Fin 12, crLegal l.cr[i.val] = true) ∧ crLegal l.cr14 = true ∧ crLegal l.cr15 = true

/-- Every answer of a table has a property. -/
abbrev Table.Answers {κ ρ : Type} (t : Table κ ρ) (p : ρ → Bool) : Prop :=
  (∀ e ∈ t.atView, p e.2 = true) ∧ (∀ e ∈ t.always, p e.2 = true) ∧ p t.otherwise = true

/-- NSSplit's two answers are legal but for their permissions, which the machine replaces. -/
def splitLegal : Option (Gt × Gt) → Bool
  | none => true
  | some p => p.1.word0 != 0 && p.2.word0 != 0

/-- pc, every frame's NIA and every lump's pc are inside the pc range (R26, R27); the two stacks have
equal depth (R37), at most CALL_STACK_DEPTH (R36). -/
abbrev State.ControlInv (s : State) : Prop :=
  s.pc < 2 ^ s.params.pcWidth.val ∧
  s.callStack.length = s.cr5Stack.length ∧
  s.callStack.length ≤ s.params.callStackDepth ∧
  (∀ f ∈ s.callStack, f.nia < 2 ^ s.params.pcWidth.val) ∧
  (∀ e ∈ s.lumps, e.2.pc < 2 ^ s.params.pcWidth.val)

/-- Memory has its canonical form, and so has the list of lumps. -/
abbrev State.FormInv (s : State) : Prop := Memory.wf s.mem ∧ AssocSorted s.lumps

/-- Every GT the state holds is legal: in the CRs, `cur_egt`, both stacks, memory and the lumps, and so are
those the open parameters answer (R32, R342). -/
abbrev State.LegalInv (s : State) : Prop :=
  (∀ i : CRNum, crLegal (s.crAt i) = true) ∧
  crLegal s.curEgt = true ∧
  (∀ f ∈ s.callStack, wordLegal f.egt = true) ∧
  (∀ v ∈ s.cr5Stack, crLegal v = true) ∧
  (∀ c ∈ s.mem, wordLegal c.2 = true) ∧
  (∀ e ∈ s.lumps, lumpLegal e.2) ∧
  s.params.expand.Answers (fun g => permsLegal g.perms) ∧
  s.params.nsSplit.Answers splitLegal

/-! ### The well-formed initial state (R342, R42)

What a launch premise should establish, and the last column of R42. `State.reset` does not meet either, for its CR14 is NULL: a loader outside
the machine builds the state that does (R343; log 6, log 27, log 28). -/

/-- Item 2: CR14 is a valid GT with X, and pc is within its bounds, so the first fetch succeeds (R70). -/
abbrev State.FetchReady (s : State) : Prop := ∃ a, Accessible s (s.crAt 14) .x s.pc a

/-- Two GTs for one object: alike but for their permissions. -/
abbrev SameObject (g h : Gt) : Prop := { g with perms := h.perms } = h

/-- Item 3: CR6 is the c-list GT of the running abstraction, with whatever permissions the loader gives. Which
c-list that is, NSSplit of `cur_egt` says where it is defined. -/
def State.HoldsClist (s : State) : Prop :=
  ∃ g, s.crAt 6 = some g ∧
    ∀ e cl code, s.curEgt = some e → s.params.nsSplit.ask s.view e = some (cl, code) → SameObject g cl

/-- Item 5: `cur_egt` is the E-GT from which NSSplit yields CR6 and CR14. -/
def State.RunsAbstraction (s : State) : Prop :=
  ∃ e cl code clist run, s.curEgt = some e ∧ e.perms.e = true ∧
    s.params.nsSplit.ask s.view e = some (cl, code) ∧
    s.crAt 6 = some clist ∧ SameObject clist cl ∧ s.crAt 14 = some run ∧ SameObject run code

/-- The code object: CR14's. -/
def State.codeRegions (s : State) : List Region := (s.crAt 14).toList.map regionOf

/-- The region of every GT with W or S overlaps none of the regions given. -/
abbrev State.StoresApartFrom (s : State) (regions : List Region) : Prop :=
  ∀ g ∈ s.tokensHeld, (g.perms.w || g.perms.s) = true → ∀ r ∈ regions, (regionOf g).Apart r

/-- The well-formed initial state, item by item. `clists` are the regions of the c-lists that a proof reasons
about, one that SAVE is meant to write left out; `calls` says whether the program will CALL or LAMBDA;
`lumpRegions` is where the platform keeps the lumps (log 27). -/
structure State.WellFormedStart (s : State) (clists lumpRegions : List Region) (calls : Prop) : Prop where
  /-- Item 1, of the CRs and of every other GT held. -/
  legal    : s.LegalInv
  /-- Item 2. -/
  fetches  : s.FetchReady
  /-- Item 3. -/
  clist    : s.HoldsClist
  /-- Item 4, with the pc range and the stack's capacity. -/
  depths   : s.ControlInv
  /-- Item 5. -/
  running  : calls → s.RunsAbstraction
  /-- Item 6: no store through W or S reaches the code object or a c-list of `clists`. -/
  stores   : s.StoresApartFrom (s.codeRegions ++ clists)
  /-- The launch premise of R61, to which item 6 refers. -/
  data     : s.LaunchPremise lumpRegions

/-- The last column of R42's table, row by row: what a launch premise should state of a run from reset. It asks
more than R342 does, which also covers a start within a run: the permissions of CR6 and CR14, `pc = 0`, and empty
stacks. The rows of the data registers, CR13, the flags, `mi` and memory ask nothing. `calls` says whether the
program will execute CALL, ELOADCALL, LAMBDA or XLOADLAMBDA (log 28). -/
structure State.ResetPremise (s : State) (calls : Prop) : Prop where
  /-- CR0 to CR5 and CR7 to CR11: NULL or a legal GT. -/
  ordinary : ∀ i : CRNum, i.val < 12 → i ≠ 6 → crLegal (s.crAt i) = true
  /-- CR6: an L-only c-list GT, -/
  clist    : ∃ g, s.crAt 6 = some g ∧ g.perms = permsL
  /-- and that of the running abstraction. -/
  running  : s.HoldsClist
  /-- CR12: designates the thread stack. -/
  stack    : ∃ g, s.crAt 12 = some g
  /-- CR14: an X-only GT of the code object being run, valid and non-NULL. -/
  code     : ∃ g, s.crAt 14 = some g ∧ g.perms = permsX ∧ valid s g = true
  /-- CR15: the namespace root, which `State.view` hands to the predicates. -/
  root     : ∃ g, s.crAt 15 = some g
  /-- `pc = 0`. -/
  start    : s.pc = 0
  /-- `cur_egt`: the E-GT of the abstraction being run, given whenever a frame will save it. -/
  entered  : calls → s.RunsAbstraction
  /-- Both stacks empty, -/
  frames   : s.callStack = []
  /-- so that the outermost RETURN is the Reboot outcome. -/
  saved    : s.cr5Stack = []

end Sys2Proof.Machine
end

