-- ==== Sys2Proof/Certificates/Slice0/Obligations.lean ====
section
/-! DEFINITION. The statements for the provers. Each docstring names the rules it formalises. A result is
stated as the whole next state: `t = { s with … }` says that every field not named is unchanged. -/

open Sys2Proof Sys2Proof.Machine

/-! ### Encoding and decoding -/

/-- Decoding an encoded well-formed instruction gives it back, with every operand at every value (R91, R97,
R99 to R104). -/
def Obligations.DecodeOfEncode : Prop :=
  ∀ i : Instr, i.wf = true → decode (encode i) = .ok i

/-- Every word that decodes has one meaning: the instruction is well-formed and encodes to that word (R91,
R97, R99, R100, R107). -/
def Obligations.EncodeOfDecode : Prop :=
  ∀ (w : Word) (i : Instr), decode w = .ok i → i.wf = true ∧ encode i = w

/-- The mode of a TPERM word is selected by imm15 alone, 0x7FFF for Mode 2 and an offset for Mode 1; `dst` is
the register and `src` the preset in both (R101). -/
def Obligations.TpermModeSelection : Prop :=
  ∀ w : Word, opcodeField w = 6 →
    (immField w = 0x7FFF → decode w = .ok (.tpermRestrict (condOf w) (regOf (dstField w)) (srcField w))) ∧
    (immField w ≠ 0x7FFF →
      decode w = .ok (.tpermCheck (condOf w) (regOf (dstField w)) (srcField w) (immField w)))

/-- Words written out from the spec's encodings decode to the instructions they stand for (R121 and the
worked examples of files 41 to 49). -/
def Obligations.WordsOfTheSpec : Prop :=
  decode 0x07030004 = .ok (.load .al 0 6 4) ∧
  decode 0x0F090007 = .ok (.save .al 1 2 7) ∧
  decode 0x17780000 = .ok (.callDirect .al 0) ∧
  decode 0x1F000002 = .ok (.ret .al 2) ∧
  decode 0x2F690000 = .ok (.switch .al 13 2) ∧
  decode 0x37290008 = .ok (.tpermCheck .al 5 2 8) ∧
  decode 0x3728FFFF = .ok (.tpermRestrict .al 5 1) ∧
  decode 0x4F0B0005 = .ok (.xloadlambda .al 1 6 5) ∧
  decode 0x5F290008 = .ok (.dwrite .al 5 2 8) ∧
  decode 0x67108104 = .ok (.bfext .al 2 1 8 4) ∧
  decode 0x7F088001 = .ok (.iadd .al 1 1 1) ∧
  decode 0x88807FFF = .ok (.branch .ne 0x7FFF) ∧
  decode 0x9F108004 = .ok (.shr .al 2 1 4)

/-! ### The step -/

/-- A step runs the instruction that the word at offset pc of CR14's code object decodes to (R11, R70). -/
def Obligations.StepRunsDecodedInstruction : Prop :=
  ∀ (s : State) (a : Nat) (i : Instr),
    Accessible s (s.crAt 14) .x s.pc a → decode (Memory.readWord s.mem a) = .ok i →
    step s = exec i s

/-- A fetch through a NULL or invalid CR14, one without X, or beyond its limit is FAULT, whatever the
condition of the word (R70, R133). -/
def Obligations.FetchFaults : Prop :=
  ∀ s : State,
    (∀ g, s.crAt 14 = some g → valid s g = false ∨ g.perms.x = false ∨ g.limit < g.base + s.pc) →
    step s = .fault .fault

/-- A fetched word that is no instruction: skipped if its condition fails; else INVALID_OP for an opcode of
20 to 31 and for a RETURN with bits 22:12 or bit 6 set, and refused for a non-zero field that the instruction
does not use (R105, R107, R108, R133). -/
def Obligations.WordsThatAreNoInstruction : Prop :=
  ∀ (s : State) (w : Word), fetch s = .ok w →
    let op := (opcodeField w).toNat
    let undefinedWord := 20 ≤ op
    let badReturn := op = 3 ∧ ((w >>> 12) % 2048 ≠ 0 ∨ w.getLsbD 6 = true)
    let unusedSet :=
      ((op = 2 ∨ op = 5 ∨ op = 14) ∧ immField w ≠ 0) ∨
      (op = 7 ∧ (srcField w ≠ 0 ∨ immField w ≠ 0)) ∨
      ((op = 12 ∨ op = 13) ∧ 2048 ≤ (immField w).toNat) ∨
      (op = 17 ∧ (dstField w ≠ 0 ∨ srcField w ≠ 0))
    (condPass (condOf w) s.flags = true →
      (undefinedWord ∨ badReturn → step s = .fault .invalidOp) ∧
      (unusedSet → step s = .refused .unusedField)) ∧
    (condPass (condOf w) s.flags = false → undefinedWord ∨ badReturn ∨ unusedSet → s.HasNextPc →
      step s = .next { s with pc := s.pc + 1 })

/-- An instruction whose condition fails changes nothing but pc, which advances by one (R131, R27). -/
def Obligations.FailedConditionSkips : Prop :=
  ∀ (i : Instr) (s : State), condPass i.cond s.flags = false → s.HasNextPc →
    exec i s = .next { s with pc := s.pc + 1 }

/-- The condition is bits 26:23 of the word, and the sixteen codes pass as the table says (R130). -/
def Obligations.ConditionTable : Prop :=
  (∀ w : Word, condOf w = Cond.ofCode (w.extractLsb' 23 4)) ∧
  ∀ f : Flags,
    (condPass (Cond.ofCode 0b0000) f = true ↔ f.z = true) ∧
    (condPass (Cond.ofCode 0b0001) f = true ↔ f.z = false) ∧
    (condPass (Cond.ofCode 0b0010) f = true ↔ f.c = true) ∧
    (condPass (Cond.ofCode 0b0011) f = true ↔ f.c = false) ∧
    (condPass (Cond.ofCode 0b0100) f = true ↔ f.n = true) ∧
    (condPass (Cond.ofCode 0b0101) f = true ↔ f.n = false) ∧
    (condPass (Cond.ofCode 0b0110) f = true ↔ f.v = true) ∧
    (condPass (Cond.ofCode 0b0111) f = true ↔ f.v = false) ∧
    (condPass (Cond.ofCode 0b1000) f = true ↔ f.c = true ∧ f.z = false) ∧
    (condPass (Cond.ofCode 0b1001) f = true ↔ f.c = false ∨ f.z = true) ∧
    (condPass (Cond.ofCode 0b1010) f = true ↔ f.n = f.v) ∧
    (condPass (Cond.ofCode 0b1011) f = true ↔ f.n ≠ f.v) ∧
    (condPass (Cond.ofCode 0b1100) f = true ↔ f.z = false ∧ f.n = f.v) ∧
    (condPass (Cond.ofCode 0b1101) f = true ↔ f.z = true ∨ f.n ≠ f.v) ∧
    condPass (Cond.ofCode 0b1110) f = true ∧
    condPass (Cond.ofCode 0b1111) f = false

/-! ### Invariants -/

/-- The state after reset meets the three invariants, with `pc = 0` and both stacks empty (R42, R341, R342).
Of R342 that is items 1 and 4, and of R42's last column the rows of pc and of the stacks; a launch, not reset,
meets the others (log 27, log 28). The values of its registers and parameters are the model's choice (log 4,
log 5). -/
def Obligations.ResetMeetsTheInvariants : Prop :=
  State.reset.pc = 0 ∧ State.reset.callStack = [] ∧ State.reset.cr5Stack = [] ∧
    State.reset.ControlInv ∧ State.reset.FormInv ∧ State.reset.LegalInv

/-- Every step keeps pc, every frame's NIA and every lump's pc inside the pc range, the two stacks at equal
depth, and the call stack within CALL_STACK_DEPTH (R26, R27, R36, R37). -/
def Obligations.StepKeepsControlInvariant : Prop :=
  ∀ s t : State, s.ControlInv → step s = .next t → t.ControlInv

/-- Every step keeps the canonical form of memory and of the list of lumps. That form, strictly rising keys and
in memory no entry for a word that reads as unlisted, is the model's own choice of representation and no rule
of the spec (log 1). -/
def Obligations.StepKeepsCanonicalForm : Prop :=
  ∀ s t : State, s.FormInv → step s = .next t → t.FormInv

/-- Every step keeps every GT the machine holds legal: domain purity, E isolation, and a non-zero `word0`, in
the registers, the hidden state, memory and the lumps (R31, R32, R342). Two clauses rest on the model's own
reading: the free GTs after a context switch are drawn within these limits (log 9), and a GT expanded from a
plain word has that word as its `word0` (log 20). -/
def Obligations.StepKeepsTokensLegal : Prop :=
  ∀ s t : State, s.LegalInv → step s = .next t → t.LegalInv

/-! ### What each kind of state is written by -/

/-- A Turing-domain instruction other than RETURN writes no context register and no hidden state; only DWRITE
writes memory, only MCMP, IADD and ISUB write flags (R291). -/
def Obligations.TuringDomainFrame : Prop :=
  ∀ (i : Instr) (s t : State), 10 ≤ (opcodeField (encode i)).toNat → exec i s = .next t →
    t = { s with dr := t.dr, flags := t.flags, mem := t.mem, pc := t.pc } ∧
    ((∀ c rd rs offset, i ≠ .dwrite c rd rs offset) → t.mem = s.mem) ∧
    ((∀ c rd rs, i ≠ .mcmp c rd rs) → (∀ c rd rs imm, i ≠ .iadd c rd rs imm) →
      (∀ c rd rs imm, i ≠ .isub c rd rs imm) → t.flags = s.flags)

/-- Which instructions change which privileged register: CR12 only CHANGE CR12, CR13 only CHANGE and SWITCH
of CR13, CR15 only SWITCH CR15 and a context switch, CR14 only an entry, a return or a context switch (R23,
R24, R185). -/
def Obligations.PrivilegedRegisterWriters : Prop :=
  ∀ (i : Instr) (s t : State), exec i s = .next t →
    (t.crAt 12 ≠ s.crAt 12 → ∃ c rs idx, i = .change c 12 rs idx) ∧
    (t.crAt 13 ≠ s.crAt 13 → (∃ c rs idx, i = .change c 13 rs idx) ∨ (∃ c rs, i = .switch c 13 rs)) ∧
    (t.crAt 15 ≠ s.crAt 15 →
      (∃ c rd rs idx, (rd = 14 ∨ rd = 15) ∧ i = .change c rd rs idx) ∨ (∃ c rs, i = .switch c 15 rs)) ∧
    (t.crAt 14 ≠ s.crAt 14 →
      (∃ c rd rs idx, (rd = 14 ∨ rd = 15) ∧ i = .change c rd rs idx) ∨
      (∃ c rs, i = .callDirect c rs) ∨ (∃ c rs offset, i = .callClist c rs offset) ∨
      (∃ c mask, i = .ret c mask) ∨ (∃ c rd, i = .lambda c rd) ∨
      (∃ c rd rs slot, i = .eloadcall c rd rs slot) ∨ (∃ c rd rs slot, i = .xloadlambda c rd rs slot))

/-- Flags are changed only by MCMP, IADD, ISUB, TPERM, RETURN and a context switch, and TPERM changes Z alone
(R29). -/
def Obligations.FlagWriters : Prop :=
  ∀ (i : Instr) (s t : State), exec i s = .next t → t.flags ≠ s.flags →
    (∃ c rd rs, i = .mcmp c rd rs) ∨ (∃ c rd rs imm, i = .iadd c rd rs imm) ∨
    (∃ c rd rs imm, i = .isub c rd rs imm) ∨
    (((∃ c rd p, i = .tpermRestrict c rd p) ∨ (∃ c rd p off, i = .tpermCheck c rd p off)) ∧
      t.flags = { s.flags with z := t.flags.z }) ∨
    (∃ c mask, i = .ret c mask) ∨ (∃ c rd rs idx, (rd = 14 ∨ rd = 15) ∧ i = .change c rd rs idx)

/-- Memory is changed only by SAVE, in the slot it names, and by DWRITE, in the word it names; no write of a
context register reaches memory (R34, R61, R62). In a state that meets the launch premise of R61, no
instruction but SAVE changes a word of a c-list, of the thread stack's object, of a lump's region or of the
namespace; and where every GT with W or S is apart from some regions, as R342 asks for the code object and
c-lists, no instruction changes a word of these. That CALL, RETURN and the LAMBDA family write no word of memory
rests on R36 and the spec's own decision D29, frames being an abstract list not visible in data memory. The form
of the premises is in log 26 and log 27, and that lumps lie outside memory in log 25. -/
def Obligations.MemoryWriters : Prop :=
  ∀ (i : Instr) (s t : State), exec i s = .next t →
    (t.mem ≠ s.mem →
      (∃ c rd rs slot g, i = .save c rd rs slot ∧ s.crAt rd = some g ∧
        SameMemoryExcept s.mem t.mem (g.base + slot.toNat)) ∨
      (∃ c rd rs offset g, i = .dwrite c rd rs offset ∧ s.crAt rd = some g ∧
        SameMemoryExcept s.mem t.mem (g.base + offset.toNat))) ∧
    (∀ lumpRegions : List Region, s.LaunchPremise lumpRegions → (∀ c rd rs slot, i ≠ .save c rd rs slot) →
      ∀ r ∈ s.protectedRegions lumpRegions, ∀ a, r.Has a →
        Memory.readCell t.mem a = Memory.readCell s.mem a) ∧
    (∀ regions : List Region, s.StoresApartFrom regions → ∀ r ∈ regions, ∀ a, r.Has a →
      Memory.readCell t.mem a = Memory.readCell s.mem a)

/-- Data registers are changed only by DREAD, BFEXT, BFINS, IADD, ISUB, SHL and SHR, in their DRd, and by a
context switch (R21). -/
def Obligations.DataRegisterWriters : Prop :=
  ∀ (i : Instr) (s t : State) (j : DRNum), exec i s = .next t → t.drAt j ≠ s.drAt j →
    (∃ c rs offset, i = .dread c j rs offset) ∨ (∃ c rs width lsb, i = .bfext c j rs width lsb) ∨
    (∃ c rs width lsb, i = .bfins c j rs width lsb) ∨ (∃ c rs imm, i = .iadd c j rs imm) ∨
    (∃ c rs imm, i = .isub c j rs imm) ∨ (∃ c rs n, i = .shl c j rs n) ∨ (∃ c rs n, i = .shr c j rs n) ∨
    (∃ c rd rs idx, (rd = 14 ∨ rd = 15) ∧ i = .change c rd rs idx)

/-- No instruction but a context switch makes a capability: every GT a context register holds afterwards has
the region of a GT that a register held, that a stored word expands to, that `cr5_stack` held, or that NSSplit
answers, and outside NSSplit's answers no permission more (R313, R343). -/
def Obligations.CapabilitiesHaveASource : Prop :=
  ∀ (i : Instr) (s t : State) (j : CRNum) (g : Gt), exec i s = .next t → t.crAt j = some g →
    (∀ c rd rs idx, i = .change c rd rs idx → rd = 12 ∨ rd = 13) →
    ∃ h : Gt, g.base = h.base ∧ g.limit = h.limit ∧
      (((∀ p, permIn p g.perms = true → permIn p h.perms = true) ∧
          ((∃ k, s.crAt k = some h) ∨ (∃ a, h = expandWord s (Memory.readCell s.mem a)) ∨
            (j = 5 ∧ ∃ rest, s.cr5Stack = some h :: rest))) ∨
        (∃ e cl code, s.params.nsSplit.ask s.view e = some (cl, code) ∧
          ((j = 6 ∧ h = cl ∧ g.perms = { l := true }) ∨ (j = 14 ∧ h = code ∧ g.perms = { x := true }))))

/-! ### LOAD and SAVE -/

/-- LOAD writes CRd with what the slot holds, NULL of an empty slot, the L test omitted when CRs is CR6
(R140 to R144). -/
def Obligations.LoadResult : Prop :=
  ∀ (c : Cond) (rd rs : CRNum) (slot : BitVec 15) (s : State) (v : CRVal),
    condPass c s.flags = true → rd.val < 12 → rs.val < 12 → rd ≠ 6 →
    SlotHolds s (s.crAt rs) slot.toNat (rs != 6) v → s.HasNextPc →
    ∃ t, exec (.load c rd rs slot) s = .next t ∧ t = { s with cr := t.cr, pc := s.pc + 1 } ∧
      t.crAt rd = v ∧ ∀ j, j ≠ rd → t.crAt j = s.crAt j

/-- SAVE stores CRs's GT, with its current permissions and B-bit, in the slot of CRd's c-list, and writes no
register and no other word (R147, R148). -/
def Obligations.SaveResult : Prop :=
  ∀ (c : Cond) (rd rs : CRNum) (slot : BitVec 15) (s : State) (a : Nat) (g : Gt),
    condPass c s.flags = true → rd.val < 12 → rs.val < 12 →
    Accessible s (s.crAt rd) .s slot.toNat a → s.crAt rs = some g → valid s g = true → g.b = true →
    s.params.fbitSave.ask s.view a = true → s.HasNextPc →
    ∃ t, exec (.save c rd rs slot) s = .next t ∧ t = { s with mem := t.mem, pc := s.pc + 1 } ∧
      Memory.readCell t.mem a = .token g ∧ SameMemoryExcept s.mem t.mem a

/-- An attenuation that a SAVE commits is what a later LOAD of the slot gives: the saved GT with its
permissions and B-bit, the G-bit reset (R34, R65, R140). -/
def Obligations.SaveThenLoad : Prop :=
  ∀ (c c' : Cond) (rd rs rd' rs' : CRNum) (slot : BitVec 15) (s t u : State) (g k : Gt),
    condPass c s.flags = true → exec (.save c rd rs slot) s = .next t →
    s.crAt rs = some g → s.crAt rd = some k → u.mem = t.mem → u.crAt rs' = some k →
    condPass c' u.flags = true → rd'.val < 12 → rs'.val < 12 → rd' ≠ 6 → u.HasNextPc →
    valid u k = true → (rs' ≠ 6 → k.perms.l = true) → valid u g = true →
    u.params.fbitLoad.ask u.view (.token g) = true →
    ∃ v, exec (.load c' rd' rs' slot) u = .next v ∧ v.crAt rd' = some { g with g := false }

/-- The LOAD family stops: FAULT where the slot's content cannot be loaded, and a refusal of CR6 as explicit
destination (R141, R144). -/
def Obligations.LoadStops : Prop :=
  ∀ (c : Cond) (rd rs : CRNum) (slot : BitVec 15) (s : State),
    condPass c s.flags = true → rd.val < 12 → rs.val < 12 →
    (rd ≠ 6 → (∀ v, ¬ SlotHolds s (s.crAt rs) slot.toNat (rs != 6) v) →
      exec (.load c rd rs slot) s = .fault .fault ∧ exec (.eloadcall c rd rs slot) s = .fault .fault ∧
      exec (.xloadlambda c rd rs slot) s = .fault .fault) ∧
    (rd = 6 →
      exec (.load c rd rs slot) s = .refused .cr6Destination ∧
      exec (.eloadcall c rd rs slot) s = .refused .cr6Destination ∧
      exec (.xloadlambda c rd rs slot) s = .refused .cr6Destination)

/-- SAVE raises FAULT when the c-list fails its checks, or the GT saved is NULL, invalid or has B = 0, or the
slot fails its F-bit test; CHANGE raises it when the slot of CRs's c-list cannot be loaded (R147, R149, R181). -/
def Obligations.SaveAndChangeFault : Prop :=
  ∀ (c : Cond) (rd rs : CRNum) (slot : BitVec 15) (s : State),
    condPass c s.flags = true → rs.val < 12 →
    (rd.val < 12 →
      (∀ a, Accessible s (s.crAt rd) .s slot.toNat a → s.params.fbitSave.ask s.view a = true →
        ∀ g, s.crAt rs = some g → valid s g = false ∨ g.b = false) →
      exec (.save c rd rs slot) s = .fault .fault) ∧
    (12 ≤ rd.val → (∀ v, ¬ SlotHolds s (s.crAt rs) slot.toNat true v) →
      exec (.change c rd rs slot) s = .fault .fault)

/-! ### CALL and RETURN -/

/-- CALL in Direct mode enters the abstraction of the E-GT in CRs: the frame and CR5 pushed, CR6 and CR14 the
callee's, `pc = 0` (R160, R162), memory unchanged, for frames are an abstract list (R36, decision D29). -/
def Obligations.CallDirectResult : Prop :=
  ∀ (c : Cond) (rs : CRNum) (s : State) (e cl code : Gt),
    condPass c s.flags = true → rs.val < 12 → s.crAt rs = some e → Enterable s e cl code →
    ∃ t, exec (.callDirect c rs) s = .next t ∧
      t = { s with
        cr := t.cr, pc := 0, curEgt := some e
        callStack := { egt := pack s.curEgt, nia := s.pc + 1, mi := s.mi } :: s.callStack
        cr5Stack := s.crAt 5 :: s.cr5Stack } ∧
      t.crAt 6 = some { cl with perms := { l := true } } ∧
      t.crAt 14 = some { code with perms := { x := true } } ∧
      ∀ j, j ≠ 6 → j ≠ 14 → t.crAt j = s.crAt j

/-- CALL in C-List mode enters the abstraction of the E-GT in slot `offset` of CRs's c-list, with the L test
always made, and writes that E-GT to no register (R160, R161), nor a frame to memory (R36, decision D29). -/
def Obligations.CallClistResult : Prop :=
  ∀ (c : Cond) (rs : CRNum) (offset : BitVec 4) (s : State) (e cl code : Gt),
    condPass c s.flags = true → rs.val < 12 → SlotHolds s (s.crAt rs) offset.toNat true (some e) →
    Enterable s e cl code →
    ∃ t, exec (.callClist c rs offset) s = .next t ∧
      t = { s with
        cr := t.cr, pc := 0, curEgt := some e
        callStack := { egt := pack s.curEgt, nia := s.pc + 1, mi := s.mi } :: s.callStack
        cr5Stack := s.crAt 5 :: s.cr5Stack } ∧
      t.crAt 6 = some { cl with perms := { l := true } } ∧
      t.crAt 14 = some { code with perms := { x := true } } ∧
      ∀ j, j ≠ 6 → j ≠ 14 → t.crAt j = s.crAt j

/-- What the callee sees after either mode of CALL: the data registers, CR0 to CR5, CR7 to CR13, CR15 and the
flags as before, CR6 and CR14 the callee's, `pc = 0` (R163). That the frame holds the caller's E-GT, `pc + 1` and
the machine indicators, and that CR5 is pushed onto `cr5_stack`, is R160 under decisions D16 and D17, which the
spec marks as its own. -/
def Obligations.CalleeInherits : Prop :=
  ∀ (c : Cond) (rs : CRNum) (i : Instr) (s t : State),
    (i = .callDirect c rs ∨ ∃ offset, i = .callClist c rs offset) →
    condPass c s.flags = true → exec i s = .next t →
    (∀ j : DRNum, t.drAt j = s.drAt j) ∧
    (∀ j : CRNum, j ≠ 6 → j ≠ 14 → t.crAt j = s.crAt j) ∧
    (∃ e cl code, t.curEgt = some e ∧ s.params.nsSplit.ask s.view e = some (cl, code) ∧
      t.crAt 6 = some { cl with perms := { l := true } } ∧
      t.crAt 14 = some { code with perms := { x := true } }) ∧
    t.pc = 0 ∧ t.flags = s.flags ∧
    t.callStack = { egt := pack s.curEgt, nia := s.pc + 1, mi := s.mi } :: s.callStack ∧
    t.cr5Stack = s.crAt 5 :: s.cr5Stack

/-- CALL raises FAULT when its E-GT is missing (NULL, or not loadable from the slot) or Enter's tests do not
pass (R160 to R162, R302). -/
def Obligations.CallFaults : Prop :=
  ∀ (c : Cond) (rs : CRNum) (s : State), condPass c s.flags = true → rs.val < 12 →
    ((∀ e cl code, s.crAt rs = some e → ¬ Enterable s e cl code) →
      exec (.callDirect c rs) s = .fault .fault) ∧
    (∀ offset : BitVec 4,
      (∀ e cl code, SlotHolds s (s.crAt rs) offset.toNat true (some e) → ¬ Enterable s e cl code) →
      exec (.callClist c rs offset) s = .fault .fault)

/-- RETURN pops the frame and CR5, derives CR6 and CR14 from the caller's E-GT, restores pc and the machine
indicators, and then makes the registers its mask names NULL; every other register and memory are unchanged
and the flags are any value (R168, R38). That memory plays no part is R36 under decision D29. -/
def Obligations.ReturnResult : Prop :=
  ∀ (c : Cond) (mask : BitVec 12) (s : State) (f : Frame) (frames : List Frame) (g5 : CRVal)
    (rest : List CRVal) (e cl code : Gt),
    condPass c s.flags = true → mask.getLsbD 6 = false →
    s.callStack = f :: frames → s.cr5Stack = g5 :: rest → LoadsAs s f.egt (some e) →
    s.params.nsSplit.ask s.view e = some (cl, code) →
    ∃ t, exec (.ret c mask) s = .next t ∧
      t = { s with
        cr := t.cr, pc := f.nia, flags := t.flags, curEgt := some e, callStack := frames, cr5Stack := rest
        mi := f.mi, freeIndex := t.freeIndex } ∧
      (∀ j : CRNum, j.val < 12 → mask.getLsbD j.val = true → t.crAt j = none) ∧
      (mask.getLsbD 5 = false → t.crAt 5 = g5) ∧
      t.crAt 6 = some { cl with perms := { l := true } } ∧
      t.crAt 14 = some { code with perms := { x := true } } ∧
      (∀ j : CRNum, j.val < 12 → j ≠ 5 → j ≠ 6 → mask.getLsbD j.val = false → t.crAt j = s.crAt j) ∧
      t.crAt 12 = s.crAt 12 ∧ t.crAt 13 = s.crAt 13 ∧ t.crAt 15 = s.crAt 15

/-- RETURN with mask bit 6 set is INVALID_OP; else, on an empty call stack, it is the Reboot outcome, whatever
the mask, and FAULT when the frame's E-GT no longer loads or NSSplit of it is undefined (R108, R166 to R168,
R170). -/
def Obligations.ReturnStops : Prop :=
  ∀ (c : Cond) (mask : BitVec 12) (s : State), condPass c s.flags = true →
    (mask.getLsbD 6 = true → exec (.ret c mask) s = .fault .invalidOp) ∧
    (mask.getLsbD 6 = false → s.callStack = [] → exec (.ret c mask) s = .fault .reboot) ∧
    (∀ f frames, mask.getLsbD 6 = false → s.callStack = f :: frames →
      (∀ e, LoadsAs s f.egt (some e) → s.params.nsSplit.ask s.view e = none) →
      exec (.ret c mask) s = .fault .fault)

/-- A CALL or a LAMBDA followed, whatever ran between, by a RETURN that finds the same stacks brings back pc
behind the entry, CR5, both stacks and the machine indicators, and CR6 and CR14 of the caller's E-GT (R168,
R170, R222). An ELOADCALL or XLOADLAMBDA that loads CR5 itself is left to its result statement. -/
def Obligations.EntryThenReturn : Prop :=
  ∀ (i : Instr) (c c' : Cond) (rd rs : CRNum) (offset : BitVec 4) (slot : BitVec 15) (s t u : State)
    (a cl code : Gt),
    (i = .callDirect c rs ∨ i = .callClist c rs offset ∨ i = .lambda c rd ∨
      (rd ≠ 5 ∧ (i = .eloadcall c rd rs slot ∨ i = .xloadlambda c rd rs slot))) →
    condPass c s.flags = true → exec i s = .next t → s.curEgt = some a →
    u.callStack = t.callStack → u.cr5Stack = t.cr5Stack → condPass c' u.flags = true →
    valid u a = true → u.params.fbitLoad.ask u.view (.token a) = true →
    u.params.nsSplit.ask u.view { a with g := false } = some (cl, code) →
    ∃ v, exec (.ret c' 0) u = .next v ∧ v.pc = s.pc + 1 ∧ v.crAt 5 = s.crAt 5 ∧
      v.callStack = s.callStack ∧ v.cr5Stack = s.cr5Stack ∧ v.mi = s.mi ∧
      v.curEgt = some { a with g := false } ∧
      v.crAt 6 = some { cl with perms := { l := true } } ∧
      v.crAt 14 = some { code with perms := { x := true } } ∧
      v.dr = u.dr ∧ v.mem = u.mem

/-! ### CHANGE and SWITCH -/

/-- CHANGE of CR12 or CR13 writes the register with what slot `idx` of CRs's c-list holds, and nothing else
(R181, R185). -/
def Obligations.ChangeSystemWideResult : Prop :=
  ∀ (c : Cond) (rd rs : CRNum) (idx : BitVec 15) (s : State) (v : CRVal),
    condPass c s.flags = true → rd = 12 ∨ rd = 13 → rs.val < 12 →
    SlotHolds s (s.crAt rs) idx.toNat true v → s.HasNextPc →
    ∃ t, exec (.change c rd rs idx) s = .next t ∧ t = { s with cr := t.cr, pc := s.pc + 1 } ∧
      t.crAt rd = v ∧ ∀ j, j ≠ rd → t.crAt j = s.crAt j

/-- CHANGE of CR14 or CR15 is a context switch: the running thread's registers and resume pc are saved in its
lump, CR0 to CR11, the DRs, the other of CR14 and CR15, and pc come from the target's lump, pc 0 at a first
activation, and CRd receives the loaded GT; CR12, CR13 and the other lumps are unchanged (R184). Memory is
unchanged too, which R184 does not say: that lumps lie outside memory is the model's choice (log 25). The model
runs R184 in place of the spec's default refusal (log 9). -/
def Obligations.ChangeContextSwitchResult : Prop :=
  ∀ (c : Cond) (rd rs : CRNum) (idx : BitVec 15) (s : State) (v : CRVal),
    condPass c s.flags = true → rd = 14 ∨ rd = 15 → rs.val < 12 →
    SlotHolds s (s.crAt rs) idx.toNat true v → s.HasNextPc →
    ∃ t, exec (.change c rd rs idx) s = .next t ∧
      (∃ l, assocFind s.curLump t.lumps = some l ∧
        (∀ j : Fin 12, l.cr[j.val] = s.crAt ⟨j.val, by omega⟩) ∧ l.cr14 = s.crAt 14 ∧
        l.cr15 = s.crAt 15 ∧ l.dr = s.dr ∧ l.pc = s.pc + 1 ∧ l.activated = true) ∧
      (∀ id, id ≠ s.curLump → assocFind id t.lumps = assocFind id s.lumps) ∧
      t.curLump = s.params.targetLump.ask s.view (rd, v) ∧
      (∀ l, assocFind t.curLump t.lumps = some l →
        (∀ j : Fin 12, t.crAt ⟨j.val, by omega⟩ = l.cr[j.val]) ∧ t.dr = l.dr ∧
        t.pc = (if l.activated then l.pc else 0) ∧
        (rd = 14 → t.crAt 15 = l.cr15) ∧ (rd = 15 → t.crAt 14 = l.cr14)) ∧
      (assocFind t.curLump t.lumps = none → t.pc = 0) ∧
      t.crAt rd = v ∧ t.crAt 12 = s.crAt 12 ∧ t.crAt 13 = s.crAt 13 ∧ t.mem = s.mem ∧ t.params = s.params

/-- A thread switched away from and later switched back to resumes behind its CHANGE with its data registers
and CR0 to CR11, if its lump is as the first switch left it (R40, R184). The model runs R184 in place of the
spec's default refusal (log 9) and holds the lumps outside memory (log 25). -/
def Obligations.ThreadResumes : Prop :=
  ∀ (c c' : Cond) (rd rs rd' rs' : CRNum) (idx idx' : BitVec 15) (s t u w : State) (v' : CRVal),
    condPass c s.flags = true → rd = 14 ∨ rd = 15 → exec (.change c rd rs idx) s = .next t →
    assocFind s.curLump u.lumps = assocFind s.curLump t.lumps → u.curLump ≠ s.curLump →
    condPass c' u.flags = true → rd' = 14 ∨ rd' = 15 → rs'.val < 12 →
    SlotHolds u (u.crAt rs') idx'.toNat true v' →
    u.params.targetLump.ask u.view (rd', v') = s.curLump →
    exec (.change c' rd' rs' idx') u = .next w →
    w.pc = s.pc + 1 ∧ w.dr = s.dr ∧ w.curLump = s.curLump ∧
      ∀ j : CRNum, j.val < 12 → w.crAt j = s.crAt j

/-- SWITCH copies a valid GT that passes the sentinel test for Tgt 101 or 111 into CR13 or CR15, and nothing
else (R187, R188). -/
def Obligations.SwitchResult : Prop :=
  ∀ (c : Cond) (rn rs : CRNum) (s : State) (g : Gt),
    condPass c s.flags = true → rs.val < 12 → s.crAt rs = some g → valid s g = true → s.HasNextPc →
    (rn = 13 ∧ s.params.sentinelOK.ask s.view (g, 0b101) = true) ∨
      (rn = 15 ∧ s.params.sentinelOK.ask s.view (g, 0b111) = true) →
    ∃ t, exec (.switch c rn rs) s = .next t ∧ t = { s with cr := t.cr, pc := s.pc + 1 } ∧
      t.crAt rn = some g ∧ ∀ j, j ≠ rn → t.crAt j = s.crAt j

/-- SWITCH of any register but CR13 and CR15 raises INVALID_OP, before its source is looked at; else a NULL or
invalid GT, or one that fails the sentinel test, raises FAULT (R187 to R189). -/
def Obligations.SwitchStops : Prop :=
  ∀ (c : Cond) (rn rs : CRNum) (s : State), condPass c s.flags = true →
    (rn ≠ 13 → rn ≠ 15 → exec (.switch c rn rs) s = .fault .invalidOp) ∧
    (rn = 13 ∨ rn = 15 → rs.val < 12 →
      (∀ g, s.crAt rs = some g → valid s g = false ∨
        s.params.sentinelOK.ask s.view (g, if rn = 13 then 0b101 else 0b111) = false) →
      exec (.switch c rn rs) s = .fault .fault)

/-! ### TPERM -/

/-- Inside the pc range TPERM Mode 1 completes, whatever the register holds; it sets Z exactly when the register
holds a GT with every permission of a defined preset, valid, and with the offset in bounds, and it changes
nothing but Z and pc (R202, R203, R205, R206). That it is FAULT where `pc + 1` is outside the range is the
model's choice (log 14, PcRangeFaults). -/
def Obligations.TpermHealthCheckResult : Prop :=
  ∀ (c : Cond) (rd : CRNum) (preset : BitVec 4) (offset : BitVec 15) (s : State),
    condPass c s.flags = true → s.HasNextPc →
    ∃ t, exec (.tpermCheck c rd preset offset) s = .next t ∧
      t = { s with pc := s.pc + 1, flags := { s.flags with z := t.flags.z } } ∧
      (t.flags.z = true ↔ ∃ g m, s.crAt rd = some g ∧ presetMask preset = some m ∧
        (∀ p, permIn p m = true → permIn p g.perms = true) ∧ valid s g = true ∧
        g.base + offset.toNat ≤ g.limit)

/-- Inside the pc range TPERM Mode 2 completes on CR0 to CR11, and on every register for NULL and for a reserved
preset. NULL and reserved presets set Z to 0 and change no register; else exactly the permissions in both the GT
and the preset remain, and Z says whether any does (R202, R206, R209, R210). That CR12 to CR15 complete for NULL,
where R202 takes precedence over R209, and for a reserved preset is log 15; the forms refused there are in
OperandsThatStop. That it is FAULT where `pc + 1` is outside the range is the model's choice (log 14,
PcRangeFaults). -/
def Obligations.TpermRestrictionResult : Prop :=
  ∀ (c : Cond) (rd : CRNum) (preset : BitVec 4) (s : State),
    condPass c s.flags = true → rd.val < 12 ∨ s.crAt rd = none ∨ presetMask preset = none → s.HasNextPc →
    ∃ t, exec (.tpermRestrict c rd preset) s = .next t ∧
      t = { s with cr := t.cr, pc := s.pc + 1, flags := { s.flags with z := t.flags.z } } ∧
      (∀ j, j ≠ rd → t.crAt j = s.crAt j) ∧
      (s.crAt rd = none ∨ presetMask preset = none → t.crAt rd = s.crAt rd ∧ t.flags.z = false) ∧
      (∀ g m, s.crAt rd = some g → presetMask preset = some m →
        ∃ q, t.crAt rd = some { g with perms := q } ∧
          (∀ p, permIn p q = true ↔ permIn p g.perms = true ∧ permIn p m = true) ∧
          (t.flags.z = true ↔ ∃ p, permIn p q = true))

/-- A TPERM Mode 1 that sets Z makes the DREAD and the DWRITE that its preset covers, with the same register
and offset right after it, complete (R204, R247). -/
def Obligations.TpermThenAccess : Prop :=
  ∀ (c : Cond) (rd : CRNum) (preset : BitVec 4) (offset : BitVec 15) (r : DRNum) (s t : State) (m : Perms),
    condPass c s.flags = true → rd.val < 12 → exec (.tpermCheck c rd preset offset) s = .next t →
    t.flags.z = true → presetMask preset = some m → t.HasNextPc →
    (m.r = true → ∃ u, exec (.dread .eq r rd offset) t = .next u) ∧
    (m.w = true → ∃ u, exec (.dwrite .eq rd r offset) t = .next u)

/-- The ten defined presets and their permissions; codes 10 to 15 have none, and no preset is an illegal set
(R206, R207, R32). -/
def Obligations.PresetTable : Prop :=
  (presetMask 0 = some {} ∧ presetMask 1 = some { r := true } ∧
    presetMask 2 = some { r := true, w := true } ∧ presetMask 3 = some { x := true } ∧
    presetMask 4 = some { r := true, x := true } ∧ presetMask 5 = some { r := true, w := true, x := true } ∧
    presetMask 6 = some { l := true } ∧ presetMask 7 = some { s := true } ∧
    presetMask 8 = some { e := true } ∧ presetMask 9 = some { l := true, s := true }) ∧
  (∀ p : BitVec 4, 10 ≤ p.toNat → presetMask p = none) ∧
  (∀ (p : BitVec 4) (m : Perms), presetMask p = some m → permsLegal m = true)

/-! ### LAMBDA, ELOADCALL, XLOADLAMBDA -/

/-- LAMBDA applies the code object in CRd in the caller's scope: a frame with the running abstraction's E-GT
and `pc + 1`, CR5 pushed, CR14 the target X-only, `pc = 0`, CR6 and every other register unchanged (R221,
under the spec's decision D19), and memory too (R36, decision D29). -/
def Obligations.LambdaResult : Prop :=
  ∀ (c : Cond) (rd : CRNum) (s : State) (g : Gt),
    condPass c s.flags = true → rd.val < 12 → s.crAt rd = some g → Applicable s g →
    ∃ t, exec (.lambda c rd) s = .next t ∧
      t = { s with
        cr := t.cr, pc := 0
        callStack := { egt := pack s.curEgt, nia := s.pc + 1, mi := s.mi } :: s.callStack
        cr5Stack := s.crAt 5 :: s.cr5Stack } ∧
      t.crAt 14 = some { g with perms := { x := true } } ∧ ∀ j, j ≠ 14 → t.crAt j = s.crAt j

/-- ELOADCALL loads CRd and enters the loaded E-GT in one step; its NIA is `pc + 1`, and with CRd = CR5 the
value pushed is the loaded GT (R225, R226). Memory is unchanged (R36, decision D29). -/
def Obligations.EloadcallResult : Prop :=
  ∀ (c : Cond) (rd rs : CRNum) (slot : BitVec 15) (s : State) (e cl code : Gt),
    condPass c s.flags = true → rd.val < 12 → rs.val < 12 → rd ≠ 6 →
    SlotHolds s (s.crAt rs) slot.toNat (rs != 6) (some e) → Enterable s e cl code →
    ∃ t, exec (.eloadcall c rd rs slot) s = .next t ∧
      t = { s with
        cr := t.cr, pc := 0, curEgt := some e
        callStack := { egt := pack s.curEgt, nia := s.pc + 1, mi := s.mi } :: s.callStack
        cr5Stack := (if rd = 5 then some e else s.crAt 5) :: s.cr5Stack } ∧
      t.crAt rd = some e ∧
      t.crAt 6 = some { cl with perms := { l := true } } ∧
      t.crAt 14 = some { code with perms := { x := true } } ∧
      ∀ j, j ≠ rd → j ≠ 6 → j ≠ 14 → t.crAt j = s.crAt j

/-- XLOADLAMBDA loads CRd and applies the loaded code object in one step (R228, R229). Memory is unchanged (R36,
decision D29). -/
def Obligations.XloadlambdaResult : Prop :=
  ∀ (c : Cond) (rd rs : CRNum) (slot : BitVec 15) (s : State) (g : Gt),
    condPass c s.flags = true → rd.val < 12 → rs.val < 12 → rd ≠ 6 →
    SlotHolds s (s.crAt rs) slot.toNat (rs != 6) (some g) → Applicable s g →
    ∃ t, exec (.xloadlambda c rd rs slot) s = .next t ∧
      t = { s with
        cr := t.cr, pc := 0
        callStack := { egt := pack s.curEgt, nia := s.pc + 1, mi := s.mi } :: s.callStack
        cr5Stack := (if rd = 5 then some g else s.crAt 5) :: s.cr5Stack } ∧
      t.crAt rd = some g ∧ t.crAt 14 = some { g with perms := { x := true } } ∧
      ∀ j, j ≠ rd → j ≠ 14 → t.crAt j = s.crAt j

/-- LAMBDA, ELOADCALL and XLOADLAMBDA raise FAULT when the GT applied or entered is NULL or fails its tests;
the fused forms then change nothing, CRd included (R221, R225, R226, R229). -/
def Obligations.LambdaFamilyFaults : Prop :=
  ∀ (c : Cond) (rd rs : CRNum) (slot : BitVec 15) (s : State),
    condPass c s.flags = true → rd.val < 12 → rs.val < 12 →
    ((∀ g, s.crAt rd = some g → ¬ Applicable s g) → exec (.lambda c rd) s = .fault .fault) ∧
    (rd ≠ 6 → (∀ e cl code, SlotHolds s (s.crAt rs) slot.toNat (rs != 6) (some e) →
        ¬ Enterable s e cl code) → exec (.eloadcall c rd rs slot) s = .fault .fault) ∧
    (rd ≠ 6 → (∀ g, SlotHolds s (s.crAt rs) slot.toNat (rs != 6) (some g) → ¬ Applicable s g) →
      exec (.xloadlambda c rd rs slot) s = .fault .fault)

/-- ELOADCALL is LOAD followed by CALL in Direct mode, but for the frame's NIA, which is one less; and
XLOADLAMBDA is LOAD followed by LAMBDA in the same way (R225, R227, R228). -/
def Obligations.FusedAreTheirHalves : Prop :=
  ∀ (c : Cond) (rd rs : CRNum) (slot : BitVec 15) (s t : State),
    condPass c s.flags = true → s.pc + 2 < 2 ^ s.params.pcWidth.val →
    (exec (.eloadcall c rd rs slot) s = .next t →
      ∃ u v f, exec (.load c rd rs slot) s = .next u ∧ exec (.callDirect c rd) u = .next v ∧
        t.callStack = f :: s.callStack ∧
        v = { t with callStack := { f with nia := f.nia + 1 } :: s.callStack }) ∧
    (exec (.xloadlambda c rd rs slot) s = .next t →
      ∃ u v f, exec (.load c rd rs slot) s = .next u ∧ exec (.lambda c rd) u = .next v ∧
        t.callStack = f :: s.callStack ∧
        v = { t with callStack := { f with nia := f.nia + 1 } :: s.callStack })

/-! ### Operands that stop an instruction -/

/-- CR12 to CR15 as an ordinary operand raise PRIV_REG before anything else of the instruction, and CHANGE
raises it for CRd below CR12; TPERM Mode 2 with a defined preset on a GT in CR12 to CR15 and a bit field outside
the register have no meaning and are refused by name (R25, R181, R185, R188, R201, R209, R253, R306). On NULL and
for a reserved preset TPERM is not refused but sets Z to 0 (log 15, TpermRestrictionResult). -/
def Obligations.OperandsThatStop : Prop :=
  ∀ (c : Cond) (s : State), condPass c s.flags = true →
    (∀ (rd rs : CRNum) (n : BitVec 15), 12 ≤ rd.val ∨ 12 ≤ rs.val →
      exec (.load c rd rs n) s = .fault .privReg ∧ exec (.save c rd rs n) s = .fault .privReg ∧
      exec (.eloadcall c rd rs n) s = .fault .privReg ∧ exec (.xloadlambda c rd rs n) s = .fault .privReg) ∧
    (∀ (rd rs : CRNum) (n : BitVec 15), rd.val < 12 ∨ 12 ≤ rs.val →
      exec (.change c rd rs n) s = .fault .privReg) ∧
    (∀ (r : CRNum), 12 ≤ r.val →
      exec (.callDirect c r) s = .fault .privReg ∧
      (∀ offset, exec (.callClist c r offset) s = .fault .privReg) ∧
      exec (.lambda c r) s = .fault .privReg ∧
      (∀ d n, exec (.dread c d r n) s = .fault .privReg ∧ exec (.dwrite c r d n) s = .fault .privReg) ∧
      exec (.switch c 13 r) s = .fault .privReg ∧ exec (.switch c 15 r) s = .fault .privReg ∧
      ∀ preset, s.crAt r ≠ none → presetMask preset ≠ none →
        exec (.tpermRestrict c r preset) s = .refused .privilegedDestination) ∧
    (∀ (rd rs : DRNum) (width : BitVec 6) (lsb : BitVec 5),
      width.toNat = 0 ∨ 32 < width.toNat + lsb.toNat →
      exec (.bfext c rd rs width lsb) s = .refused .bitfieldRange ∧
      exec (.bfins c rd rs width lsb) s = .refused .bitfieldRange)

/-! ### DREAD and DWRITE -/

/-- DREAD writes DRd with the word at base + offset of CRs's object, and nothing else (R240, R241). -/
def Obligations.DreadResult : Prop :=
  ∀ (c : Cond) (rd : DRNum) (rs : CRNum) (offset : BitVec 15) (s : State) (g : Gt),
    condPass c s.flags = true → rs.val < 12 → s.crAt rs = some g → valid s g = true →
    g.perms.r = true → g.base + offset.toNat ≤ g.limit → s.HasNextPc →
    ∃ t, exec (.dread c rd rs offset) s = .next t ∧ t = { s with dr := t.dr, pc := s.pc + 1 } ∧
      t.drAt rd = Memory.readWord s.mem (g.base + offset.toNat) ∧ ∀ j, j ≠ rd → t.drAt j = s.drAt j

/-- DWRITE stores DRs in the word at base + offset of CRd's object, and changes no register and no other word
(R240, R244). -/
def Obligations.DwriteResult : Prop :=
  ∀ (c : Cond) (rd : CRNum) (rs : DRNum) (offset : BitVec 15) (s : State) (g : Gt),
    condPass c s.flags = true → rd.val < 12 → s.crAt rd = some g → valid s g = true →
    g.perms.w = true → g.base + offset.toNat ≤ g.limit → s.HasNextPc →
    ∃ t, exec (.dwrite c rd rs offset) s = .next t ∧ t = { s with mem := t.mem, pc := s.pc + 1 } ∧
      Memory.readWord t.mem (g.base + offset.toNat) = s.drAt rs ∧
      SameMemoryExcept s.mem t.mem (g.base + offset.toNat)

/-- DREAD and DWRITE raise FAULT exactly where the access check fails: a NULL or invalid GT, a missing R or W,
or an offset beyond the limit (R72, R241, R244). -/
def Obligations.DataAccessFaults : Prop :=
  ∀ (c : Cond) (r : CRNum) (d : DRNum) (offset : BitVec 15) (s : State),
    condPass c s.flags = true → r.val < 12 → s.HasNextPc →
    (exec (.dread c d r offset) s = .fault .fault ↔
      ∀ g, s.crAt r = some g → valid s g = false ∨ g.perms.r = false ∨ g.limit < g.base + offset.toNat) ∧
    (exec (.dwrite c r d offset) s = .fault .fault ↔
      ∀ g, s.crAt r = some g → valid s g = false ∨ g.perms.w = false ∨ g.limit < g.base + offset.toNat)

/-! ### Bit fields and shifts -/

/-- BFEXT puts the field of DRs at bit 0 of DRd with zeros above, and changes nothing else (R104, R251). -/
def Obligations.BfextResult : Prop :=
  ∀ (c : Cond) (rd rs : DRNum) (width : BitVec 6) (lsb : BitVec 5) (s : State),
    condPass c s.flags = true → 1 ≤ width.toNat → width.toNat + lsb.toNat ≤ 32 → s.HasNextPc →
    ∃ t, exec (.bfext c rd rs width lsb) s = .next t ∧ t = { s with dr := t.dr, pc := s.pc + 1 } ∧
      (∀ k, (t.drAt rd).getLsbD k =
        (decide (k < width.toNat) && (s.drAt rs).getLsbD (lsb.toNat + k))) ∧
      ∀ j, j ≠ rd → t.drAt j = s.drAt j

/-- BFINS replaces the field of DRd by the low bits of DRs, keeps every other bit of DRd, and changes nothing
else (R104, R254). -/
def Obligations.BfinsResult : Prop :=
  ∀ (c : Cond) (rd rs : DRNum) (width : BitVec 6) (lsb : BitVec 5) (s : State),
    condPass c s.flags = true → 1 ≤ width.toNat → width.toNat + lsb.toNat ≤ 32 → s.HasNextPc →
    ∃ t, exec (.bfins c rd rs width lsb) s = .next t ∧ t = { s with dr := t.dr, pc := s.pc + 1 } ∧
      (∀ k, (t.drAt rd).getLsbD k =
        if lsb.toNat ≤ k ∧ k < lsb.toNat + width.toNat then (s.drAt rs).getLsbD (k - lsb.toNat)
        else (s.drAt rd).getLsbD k) ∧
      ∀ j, j ≠ rd → t.drAt j = s.drAt j

/-- For a legal field, BFINS followed by BFEXT of the same field leaves the low bits of the register inserted,
`DRx & mask(width)`: what the spec derives in R256 from the two instructions' rules (R251, R254). -/
def Obligations.BfinsThenBfext : Prop :=
  ∀ (c : Cond) (x y z : DRNum) (width : BitVec 6) (lsb : BitVec 5) (s : State),
    condPass c s.flags = true → 1 ≤ width.toNat → width.toNat + lsb.toNat ≤ 32 →
    s.pc + 2 < 2 ^ s.params.pcWidth.val →
    ∃ t u, exec (.bfins c y x width lsb) s = .next t ∧ exec (.bfext c z y width lsb) t = .next u ∧
      u.drAt z = s.drAt x &&& BitVec.ofNat 32 (2 ^ width.toNat - 1)

/-- SHL and SHR by 0 to 31 multiply and divide by the power of two, zeros entering; by 32 or more the result is
0, or that of the amount modulo 32; nothing else changes, no flag included (R285, R287, R288). That a shift by 32
or more runs is the model's choice (log 16). -/
def Obligations.ShiftResult : Prop :=
  ∀ (c : Cond) (rd rs : DRNum) (amount : BitVec 15) (s : State),
    condPass c s.flags = true → s.HasNextPc →
    (∃ t, exec (.shl c rd rs amount) s = .next t ∧ t = { s with dr := t.dr, pc := s.pc + 1 } ∧
      ((t.drAt rd).toNat = (s.drAt rs).toNat * 2 ^ amount.toNat % 2 ^ 32 ∨
        32 ≤ amount.toNat ∧
          (t.drAt rd).toNat = (s.drAt rs).toNat * 2 ^ (amount.toNat % 32) % 2 ^ 32) ∧
      ∀ j, j ≠ rd → t.drAt j = s.drAt j) ∧
    (∃ t, exec (.shr c rd rs amount) s = .next t ∧ t = { s with dr := t.dr, pc := s.pc + 1 } ∧
      ((t.drAt rd).toNat = (s.drAt rs).toNat / 2 ^ amount.toNat ∨
        32 ≤ amount.toNat ∧ (t.drAt rd).toNat = (s.drAt rs).toNat / 2 ^ (amount.toNat % 32)) ∧
      ∀ j, j ≠ rd → t.drAt j = s.drAt j)

/-- SHL then SHR by the same amount of 0 to 31 clears the top bits, and SHR then SHL the bottom bits (R290). -/
def Obligations.ShiftThereAndBack : Prop :=
  ∀ (c : Cond) (x y z : DRNum) (amount : BitVec 15) (s t u : State),
    condPass c s.flags = true → amount.toNat < 32 →
    (exec (.shl c y x amount) s = .next t → exec (.shr c z y amount) t = .next u →
      (u.drAt z).toNat = (s.drAt x).toNat % 2 ^ (32 - amount.toNat)) ∧
    (exec (.shr c y x amount) s = .next t → exec (.shl c z y amount) t = .next u →
      (u.drAt z).toNat = (s.drAt x).toNat - (s.drAt x).toNat % 2 ^ amount.toNat)

/-! ### MCMP, IADD, ISUB -/

/-- MCMP writes the flags of DRd - DRs and nothing else: N the sign of the wrapped difference, Z equality, C no
borrow, V signed overflow (R260, R261). -/
def Obligations.McmpResult : Prop :=
  ∀ (c : Cond) (rd rs : DRNum) (s : State), condPass c s.flags = true → s.HasNextPc →
    let a := s.drAt rd
    let b := s.drAt rs
    ∃ t, exec (.mcmp c rd rs) s = .next t ∧ t = { s with flags := t.flags, pc := s.pc + 1 } ∧
      (t.flags.n = true ↔ (a - b).toInt < 0) ∧ (t.flags.z = true ↔ a = b) ∧
      (t.flags.c = true ↔ b.toNat ≤ a.toNat) ∧ (t.flags.v = true ↔ (a - b).toInt ≠ a.toInt - b.toInt)

/-- After `MCMP DRd, DRs` the ordered conditions mean the unsigned and signed comparisons of DRd with DRs
(R130, R135, R260, R262). -/
def Obligations.ConditionsAfterCompare : Prop :=
  ∀ (c : Cond) (rd rs : DRNum) (s t : State), condPass c s.flags = true →
    exec (.mcmp c rd rs) s = .next t →
    let a := s.drAt rd
    let b := s.drAt rs
    (condPass .eq t.flags = true ↔ a = b) ∧ (condPass .ne t.flags = true ↔ a ≠ b) ∧
    (condPass .cs t.flags = true ↔ b.toNat ≤ a.toNat) ∧ (condPass .cc t.flags = true ↔ a.toNat < b.toNat) ∧
    (condPass .hi t.flags = true ↔ b.toNat < a.toNat) ∧ (condPass .ls t.flags = true ↔ a.toNat ≤ b.toNat) ∧
    (condPass .ge t.flags = true ↔ b.toInt ≤ a.toInt) ∧ (condPass .lt t.flags = true ↔ a.toInt < b.toInt) ∧
    (condPass .gt t.flags = true ↔ b.toInt < a.toInt) ∧ (condPass .le t.flags = true ↔ a.toInt ≤ b.toInt)

/-- IADD writes DRd with the wrapped sum of DRs and the zero-extended immediate, and the four flags: N, Z of
the sum, C the carry, V signed overflow (R260, R265). C and V rest on what the spec marks as general knowledge
(log 18). -/
def Obligations.IaddResult : Prop :=
  ∀ (c : Cond) (rd rs : DRNum) (imm : BitVec 15) (s : State), condPass c s.flags = true → s.HasNextPc →
    let a := s.drAt rs
    ∃ t, exec (.iadd c rd rs imm) s = .next t ∧ t = { s with dr := t.dr, flags := t.flags, pc := s.pc + 1 } ∧
      (t.drAt rd).toNat = (a.toNat + imm.toNat) % 2 ^ 32 ∧ (∀ j, j ≠ rd → t.drAt j = s.drAt j) ∧
      (t.flags.n = true ↔ (t.drAt rd).toInt < 0) ∧ (t.flags.z = true ↔ (t.drAt rd).toNat = 0) ∧
      (t.flags.c = true ↔ 2 ^ 32 ≤ a.toNat + imm.toNat) ∧
      (t.flags.v = true ↔ (t.drAt rd).toInt ≠ a.toInt + imm.toNat)

/-- ISUB writes DRd with the wrapped difference of DRs and the zero-extended immediate, and the four flags:
N, Z of the difference, C no borrow, V signed overflow (R260, R268). -/
def Obligations.IsubResult : Prop :=
  ∀ (c : Cond) (rd rs : DRNum) (imm : BitVec 15) (s : State), condPass c s.flags = true → s.HasNextPc →
    let a := s.drAt rs
    ∃ t, exec (.isub c rd rs imm) s = .next t ∧ t = { s with dr := t.dr, flags := t.flags, pc := s.pc + 1 } ∧
      ((t.drAt rd).toNat : Int) = (a.toNat - imm.toNat : Int) % 2 ^ 32 ∧
      (∀ j, j ≠ rd → t.drAt j = s.drAt j) ∧
      (t.flags.n = true ↔ (t.drAt rd).toInt < 0) ∧ (t.flags.z = true ↔ (t.drAt rd).toNat = 0) ∧
      (t.flags.c = true ↔ imm.toNat ≤ a.toNat) ∧
      (t.flags.v = true ↔ (t.drAt rd).toInt ≠ a.toInt - imm.toNat)

/-! ### BRANCH -/

/-- BRANCH sets pc to pc plus the signed offset and changes nothing else; a target outside the pc range raises
FAULT (R280, R281, R282). -/
def Obligations.BranchResult : Prop :=
  ∀ (c : Cond) (offset : BitVec 15) (s : State), condPass c s.flags = true →
    let target : Int := s.pc + offset.toInt
    (0 ≤ target ∧ target < 2 ^ s.params.pcWidth.val →
      exec (.branch c offset) s = .next { s with pc := target.toNat }) ∧
    (target < 0 ∨ 2 ^ s.params.pcWidth.val ≤ target → exec (.branch c offset) s = .fault .fault)

/-- Where `pc + 1` is outside the pc range, every skipped word and every executed instruction that computes
`pc + 1` raises FAULT, and nothing is written (R27, R302): every instruction but RETURN and BRANCH, with CALL and
the LAMBDA family for their NIA and CHANGE of CR14 and CR15 for the pc it saves. Where a form's own tests fail
too, their stop is FAULT as well; operands that stop with another name are in OperandsThatStop, SwitchStops and
LoadStops. FAULT is the model's choice for a skipped word and for TPERM, against R133 and R201 (log 14); for SHL
and SHR by 32 or more, which R287's default refuses (log 16); for a CHANGE of CR14 or CR15 whose slot loads,
which R184's default refuses (log 9); and for TPERM Mode 2 on CR12 to CR15 with NULL or a reserved preset, which
R209's pseudocode refuses (log 15). -/
def Obligations.PcRangeFaults : Prop :=
  ∀ (s : State), ¬ s.HasNextPc →
    (∀ i : Instr, condPass i.cond s.flags = false → exec i s = .fault .fault) ∧
    (∀ (w : Word) (r : Reject), fetch s = .ok w → decode w = .error r → condPass (condOf w) s.flags = false →
      step s = .fault .fault) ∧
    (∀ (c : Cond), condPass c s.flags = true →
      (∀ (rd rs : CRNum) (slot : BitVec 15), rd.val < 12 → rs.val < 12 →
        exec (.save c rd rs slot) s = .fault .fault ∧
        (rd ≠ 6 →
          exec (.load c rd rs slot) s = .fault .fault ∧ exec (.eloadcall c rd rs slot) s = .fault .fault ∧
          exec (.xloadlambda c rd rs slot) s = .fault .fault)) ∧
      (∀ (rd rs : CRNum) (idx : BitVec 15), 12 ≤ rd.val → rs.val < 12 →
        exec (.change c rd rs idx) s = .fault .fault) ∧
      (∀ (rn rs : CRNum), rn = 13 ∨ rn = 15 → rs.val < 12 → exec (.switch c rn rs) s = .fault .fault) ∧
      (∀ (r : CRNum), r.val < 12 →
        exec (.callDirect c r) s = .fault .fault ∧
        (∀ offset, exec (.callClist c r offset) s = .fault .fault) ∧
        exec (.lambda c r) s = .fault .fault ∧
        ∀ d offset, exec (.dread c d r offset) s = .fault .fault ∧
          exec (.dwrite c r d offset) s = .fault .fault) ∧
      (∀ rd preset offset, exec (.tpermCheck c rd preset offset) s = .fault .fault) ∧
      (∀ (rd : CRNum) preset, rd.val < 12 ∨ s.crAt rd = none ∨ presetMask preset = none →
        exec (.tpermRestrict c rd preset) s = .fault .fault) ∧
      (∀ (rd rs : DRNum) (width : BitVec 6) (lsb : BitVec 5),
        1 ≤ width.toNat → width.toNat + lsb.toNat ≤ 32 →
        exec (.bfext c rd rs width lsb) s = .fault .fault ∧
        exec (.bfins c rd rs width lsb) s = .fault .fault) ∧
      (∀ rd rs, exec (.mcmp c rd rs) s = .fault .fault) ∧
      (∀ rd rs imm, exec (.iadd c rd rs imm) s = .fault .fault ∧ exec (.isub c rd rs imm) s = .fault .fault ∧
        exec (.shl c rd rs imm) s = .fault .fault ∧ exec (.shr c rd rs imm) s = .fault .fault))
end

