-- ==== Sys2Proof/Laws/Decode.lean ====
section
/-! SUPPORT. The fields of the words the encoder writes, and the codes of conditions and registers. -/

namespace Sys2Proof

@[simp] theorem ofCode_code (c : Cond) : Cond.ofCode c.code = c := by cases c <;> rfl

@[simp] theorem code_ofCode (b : BitVec 4) : (Cond.ofCode b).code = b := by revert b; decide

@[simp] theorem regOf_regCode (i : Fin 16) : regOf (regCode i) = i := rfl

@[simp] theorem regCode_regOf (b : BitVec 4) : regCode (regOf b) = b := rfl

/-! ### A word from its five fields -/

section mkWord

variable (op : BitVec 5) (c : Cond) (d s : BitVec 4) (m : BitVec 15)

@[simp] theorem opcodeField_mkWord : opcodeField (mkWord op c d s m) = op := by
  apply BitVec.eq_of_getLsbD_eq
  intro k hk
  have h1 : ¬ 27 + k < 15 := by omega
  have h2 : ¬ 27 + k - 15 < 4 := by omega
  have h3 : ¬ 27 + k - 15 - 4 < 4 := by omega
  have h4 : ¬ 27 + k - 15 - 4 - 4 < 4 := by omega
  simp only [opcodeField, mkWord, BitVec.getLsbD_extractLsb', BitVec.getLsbD_append, hk, h1, h2, h3, h4,
    decide_true, Bool.true_and, if_false]
  congr 1
  omega

@[simp] theorem condField_mkWord : condField (mkWord op c d s m) = c.code := by
  apply BitVec.eq_of_getLsbD_eq
  intro k hk
  have h1 : ¬ 23 + k < 15 := by omega
  have h2 : ¬ 23 + k - 15 < 4 := by omega
  have h3 : ¬ 23 + k - 15 - 4 < 4 := by omega
  have h4 : 23 + k - 15 - 4 - 4 < 4 := by omega
  simp only [condField, mkWord, BitVec.getLsbD_extractLsb', BitVec.getLsbD_append, hk, h1, h2, h3, h4,
    decide_true, Bool.true_and, if_false, if_true]
  congr 1
  omega

@[simp] theorem dstField_mkWord : dstField (mkWord op c d s m) = d := by
  apply BitVec.eq_of_getLsbD_eq
  intro k hk
  have h1 : ¬ 19 + k < 15 := by omega
  have h2 : ¬ 19 + k - 15 < 4 := by omega
  have h3 : 19 + k - 15 - 4 < 4 := by omega
  simp only [dstField, mkWord, BitVec.getLsbD_extractLsb', BitVec.getLsbD_append, hk, h1, h2, h3,
    decide_true, Bool.true_and, if_false, if_true]
  congr 1
  omega

@[simp] theorem srcField_mkWord : srcField (mkWord op c d s m) = s := by
  apply BitVec.eq_of_getLsbD_eq
  intro k hk
  have h1 : ¬ 15 + k < 15 := by omega
  have h2 : 15 + k - 15 < 4 := by omega
  simp only [srcField, mkWord, BitVec.getLsbD_extractLsb', BitVec.getLsbD_append, hk, h1, h2,
    decide_true, Bool.true_and, if_false, if_true]
  congr 1
  omega

@[simp] theorem immField_mkWord : immField (mkWord op c d s m) = m := by
  apply BitVec.eq_of_getLsbD_eq
  intro k hk
  simp only [immField, mkWord, BitVec.getLsbD_extractLsb', BitVec.getLsbD_append, Nat.zero_add, hk,
    decide_true, Bool.true_and, if_true]

@[simp] theorem condOf_mkWord : condOf (mkWord op c d s m) = c := by
  simp [condOf]

end mkWord

/-! ### RETURN's word -/

section returnWord

variable (c : Cond) (mask : BitVec 12)

@[simp] theorem opcodeField_returnWord : opcodeField (returnWord c mask) = 3#5 := by
  apply BitVec.eq_of_getLsbD_eq
  intro k hk
  have h1 : ¬ 27 + k < 12 := by omega
  have h2 : ¬ 27 + k - 12 < 11 := by omega
  have h3 : ¬ 27 + k - 12 - 11 < 4 := by omega
  simp only [opcodeField, returnWord, BitVec.getLsbD_extractLsb', BitVec.getLsbD_append, hk, h1, h2, h3,
    decide_true, Bool.true_and, if_false]
  congr 1
  omega

@[simp] theorem condField_returnWord : condField (returnWord c mask) = c.code := by
  apply BitVec.eq_of_getLsbD_eq
  intro k hk
  have h1 : ¬ 23 + k < 12 := by omega
  have h2 : ¬ 23 + k - 12 < 11 := by omega
  have h3 : 23 + k - 12 - 11 < 4 := by omega
  simp only [condField, returnWord, BitVec.getLsbD_extractLsb', BitVec.getLsbD_append, hk, h1, h2, h3,
    decide_true, Bool.true_and, if_false, if_true]
  congr 1
  omega

@[simp] theorem condOf_returnWord : condOf (returnWord c mask) = c := by
  simp [condOf]

@[simp] theorem returnWord_zeros : (returnWord c mask).extractLsb' 12 11 = 0#11 := by
  apply BitVec.eq_of_getLsbD_eq
  intro k hk
  have h1 : ¬ 12 + k < 12 := by omega
  have h2 : 12 + k - 12 < 11 := by omega
  simp only [returnWord, BitVec.getLsbD_extractLsb', BitVec.getLsbD_append, hk, h1, h2,
    decide_true, Bool.true_and, if_false, if_true, BitVec.getLsbD_zero]

@[simp] theorem returnWord_mask : (returnWord c mask).extractLsb' 0 12 = mask := by
  apply BitVec.eq_of_getLsbD_eq
  intro k hk
  simp only [returnWord, BitVec.getLsbD_extractLsb', BitVec.getLsbD_append, Nat.zero_add, hk,
    decide_true, Bool.true_and, if_true]

@[simp] theorem returnWord_getLsbD (k : Nat) (hk : k < 12) :
    (returnWord c mask).getLsbD k = mask.getLsbD k := by
  simp only [returnWord, BitVec.getLsbD_append, hk, if_true]

end returnWord

/-! ### BFEXT's and BFINS's immediate -/

section bitfieldImm

variable (width : BitVec 6) (lsb : BitVec 5)

@[simp] theorem lsbField_bitfieldImm : lsbField (bitfieldImm width lsb) = lsb := by
  apply BitVec.eq_of_getLsbD_eq
  intro k hk
  simp only [lsbField, bitfieldImm, BitVec.getLsbD_extractLsb', BitVec.getLsbD_append, Nat.zero_add, hk,
    decide_true, Bool.true_and, if_true]

@[simp] theorem widthField_bitfieldImm : widthField (bitfieldImm width lsb) = width := by
  apply BitVec.eq_of_getLsbD_eq
  intro k hk
  have h1 : ¬ 5 + k < 5 := by omega
  have h2 : 5 + k - 5 < 6 := by omega
  simp only [widthField, bitfieldImm, BitVec.getLsbD_extractLsb', BitVec.getLsbD_append, hk, h1, h2,
    decide_true, Bool.true_and, if_false, if_true]
  congr 1
  omega

@[simp] theorem bitfieldUnused_bitfieldImm : bitfieldUnused (bitfieldImm width lsb) = 0#4 := by
  apply BitVec.eq_of_getLsbD_eq
  intro k hk
  have h1 : ¬ 11 + k < 5 := by omega
  have h2 : ¬ 11 + k - 5 < 6 := by omega
  simp only [bitfieldUnused, bitfieldImm, BitVec.getLsbD_extractLsb', BitVec.getLsbD_append, hk, h1, h2,
    decide_true, Bool.true_and, if_false, BitVec.getLsbD_zero]

end bitfieldImm

end Sys2Proof
end

