-- ==== Sys2Proof/Laws/Memory.lean ====
section
/-! SUPPORT. The laws of sparse lists and of memory: read after write, and the canonical form kept. -/

namespace Sys2Proof.Machine

variable {α : Type}

theorem assocFind_set (k j : Nat) (v : α) (l : List (Nat × α)) :
    assocFind j (assocSet k v l) = if j = k then some v else assocFind j l := by
  induction l with
  | nil =>
    by_cases h : j = k
    · simp [assocSet, assocFind, h]
    · simp [assocSet, assocFind, h, Ne.symm h]
  | cons e t ih =>
    simp only [assocSet]
    split
    · by_cases h : j = k
      · simp [assocFind, h]
      · simp [assocFind, h, Ne.symm h]
    · split
      · rename_i h1 h2
        subst h2
        by_cases h : j = e.1
        · simp [assocFind, h]
        · simp [assocFind, h, Ne.symm h]
      · rename_i h1 h2
        by_cases h : e.1 = j
        · subst h; simp [assocFind, h2]
        · simp [assocFind, h, ih]

theorem assocFind_erase (k j : Nat) (l : List (Nat × α)) :
    assocFind j (assocErase k l) = if j = k then none else assocFind j l := by
  induction l with
  | nil => simp [assocErase, assocFind]
  | cons e t ih =>
    unfold assocErase at ih ⊢
    by_cases hk : e.1 = k
    · rw [List.filter_cons_of_neg (by simp [hk]), ih]
      by_cases h : j = k
      · simp [h]
      · simp [h, assocFind, hk, Ne.symm h]
    · by_cases h : e.1 = j
      · subst h; simp [hk, assocFind]
      · simp [hk, assocFind, h, ih]

theorem mem_assocSet {k : Nat} {v : α} {l : List (Nat × α)} {e : Nat × α} (h : e ∈ assocSet k v l) :
    e = (k, v) ∨ e ∈ l := by
  induction l with
  | nil => simpa [assocSet] using h
  | cons a t ih =>
    simp only [assocSet] at h
    split at h
    · simpa using h
    · split at h
      · rcases List.mem_cons.mp h with h | h
        · exact .inl h
        · exact .inr (List.mem_cons_of_mem _ h)
      · rcases List.mem_cons.mp h with h | h
        · exact .inr (by simp [h])
        · exact (ih h).imp id (List.mem_cons_of_mem _)

theorem assocSet_sorted (k : Nat) (v : α) {l : List (Nat × α)} (h : AssocSorted l) :
    AssocSorted (assocSet k v l) := by
  induction l with
  | nil => simp [assocSet, AssocSorted]
  | cons a t ih =>
    obtain ⟨ha, ht⟩ := List.pairwise_cons.mp h
    simp only [assocSet]
    split
    · rename_i hk
      refine List.pairwise_cons.mpr ⟨fun b hb => ?_, h⟩
      rcases List.mem_cons.mp hb with rfl | hb
      · exact hk
      · exact lt_trans hk (ha b hb)
    · split
      · rename_i hk
        exact List.pairwise_cons.mpr ⟨fun b hb => hk ▸ ha b hb, ht⟩
      · rename_i h1 h2
        refine List.pairwise_cons.mpr ⟨fun b hb => ?_, ih ht⟩
        rcases mem_assocSet hb with rfl | hb
        · show a.1 < k
          omega
        · exact ha b hb

theorem assocErase_sorted (k : Nat) {l : List (Nat × α)} (h : AssocSorted l) :
    AssocSorted (assocErase k l) := h.filter _

/-- A word read after a write: the written content at its address, the old content elsewhere (R62). -/
theorem readCell_writeCell (m : Memory) (a b : Nat) (w : MemWord) :
    Memory.readCell (Memory.writeCell m a w) b = if b = a then w else Memory.readCell m b := by
  unfold Memory.writeCell Memory.readCell
  split
  · rename_i h
    rw [assocFind_erase]
    by_cases hb : b = a <;> simp [hb, h]
  · rw [assocFind_set]
    by_cases hb : b = a <;> simp [hb]

@[simp] theorem readCell_writeCell_self (m : Memory) (a : Nat) (w : MemWord) :
    Memory.readCell (Memory.writeCell m a w) a = w := by
  simp [readCell_writeCell]

theorem readCell_writeCell_ne (m : Memory) {a b : Nat} (w : MemWord) (h : b ≠ a) :
    Memory.readCell (Memory.writeCell m a w) b = Memory.readCell m b := by
  simp [readCell_writeCell, h]

@[simp] theorem readWord_writeWord_self (m : Memory) (a : Nat) (v : Word) :
    Memory.readWord (Memory.writeWord m a v) a = v := by
  simp [Memory.readWord, Memory.writeWord, MemWord.bits]

/-- Every memory operation keeps the canonical form. -/
theorem writeCell_wf {m : Memory} (a : Nat) (w : MemWord) (h : Memory.wf m) :
    Memory.wf (Memory.writeCell m a w) := by
  unfold Memory.writeCell
  split
  · exact ⟨assocErase_sorted a h.1, fun c hc => h.2 c (List.mem_filter.mp hc).1⟩
  · rename_i hw
    refine ⟨assocSet_sorted a w h.1, fun c hc => ?_⟩
    rcases mem_assocSet hc with rfl | hc
    · exact hw
    · exact h.2 c hc

theorem writeWord_wf {m : Memory} (a : Nat) (v : Word) (h : Memory.wf m) :
    Memory.wf (Memory.writeWord m a v) := writeCell_wf a _ h

/-- The reset state's memory has the canonical form. -/
theorem reset_mem_wf : Memory.wf State.reset.mem := by decide

/-- A cell that is read is listed, or reads as an unlisted word. -/
theorem readCell_cases (m : Memory) (a : Nat) :
    (∃ c ∈ m, c.2 = Memory.readCell m a) ∨ Memory.readCell m a = Memory.unlisted := by
  induction m with
  | nil => exact .inr rfl
  | cons e t ih =>
    by_cases h : e.1 = a
    · exact .inl ⟨e, by simp, by simp [Memory.readCell, assocFind, h]⟩
    · have he : Memory.readCell (e :: t) a = Memory.readCell t a := by
        simp [Memory.readCell, assocFind, h]
      rw [he]
      exact ih.imp (fun ⟨c, hc, h⟩ => ⟨c, List.mem_cons_of_mem _ hc, h⟩) id

/-- A lump that is looked up is listed, or is an unwritten one. -/
theorem lumpAt_cases (l : List (Nat × Lump)) (id : Nat) :
    (∃ e ∈ l, e.2 = lumpAt l id) ∨ lumpAt l id = unwrittenLump id := by
  induction l with
  | nil => exact .inr rfl
  | cons e t ih =>
    by_cases h : e.1 = id
    · exact .inl ⟨e, by simp, by simp [lumpAt, assocFind, h]⟩
    · have he : lumpAt (e :: t) id = lumpAt t id := by simp [lumpAt, assocFind, h]
      rw [he]
      exact ih.imp (fun ⟨c, hc, h⟩ => ⟨c, List.mem_cons_of_mem _ hc, h⟩) (by intro h; exact h)

end Sys2Proof.Machine
end

