-- ==== Sys2Proof/Laws/Result.lean ====
section
/-! SUPPORT. The operations' results: when a bind, a test or an instruction under its condition answers. -/

namespace Sys2Proof.Machine

/-- A sequence of operations answers exactly when each does. -/
theorem bind_eq_ok {α β : Type} (x : Res α) (f : α → Res β) (b : β) :
    (x >>= f) = .ok b ↔ ∃ a, x = .ok a ∧ f a = .ok b := by
  cases x with
  | error e => simp [bind, Except.bind]
  | ok a => simp [bind, Except.bind]

@[simp] theorem ok_bind {α β : Type} (a : α) (f : α → Res β) :
    ((Except.ok a : Res α) >>= f) = f a := rfl

@[simp] theorem error_bind {α β : Type} (e : Stop) (f : α → Res β) :
    ((Except.error e : Res α) >>= f) = .error e := rfl

@[simp] theorem pure_eq_ok {α : Type} (a : α) : (pure a : Res α) = .ok a := rfl

@[simp] theorem raise_eq_error {α : Type} (f : Fault) : (raise f : Res α) = .error (.fault f) := rfl

@[simp] theorem require_true (e : Stop) : require true e = .ok () := rfl

@[simp] theorem require_false (e : Stop) : require false e = .error e := rfl

@[simp] theorem require_eq_ok (b : Bool) (e : Stop) (u : Unit) :
    require b e = .ok u ↔ b = true := by
  cases b <;> simp [require]

@[simp] theorem check_true : check true = .ok () := rfl

@[simp] theorem check_false : check false = .error (.fault .fault) := rfl

@[simp] theorem check_eq_ok (b : Bool) (u : Unit) : check b = .ok u ↔ b = true :=
  require_eq_ok b _ u

@[simp] theorem toOutcome_ok (s : State) : toOutcome (.ok s) = .next s := rfl

@[simp] theorem toOutcome_fault (f : Fault) : toOutcome (.error (.fault f)) = .fault f := rfl

@[simp] theorem toOutcome_refuse (r : Refusal) : toOutcome (.error (.refuse r)) = .refused r := rfl

theorem toOutcome_eq_next (x : Res State) (t : State) : toOutcome x = .next t ↔ x = .ok t := by
  cases x with
  | ok s => simp [toOutcome]
  | error e => cases e <;> simp [toOutcome]

/-- An instruction under its condition answers a next state exactly when it executes to it or is skipped
to it. -/
theorem underCond_eq_next (c : Cond) (s t : State) (effect : State → Res State) :
    underCond c s effect = .next t ↔
      (condPass c s.flags = true ∧ effect s = .ok t) ∨ (condPass c s.flags = false ∧ advance s = .ok t) := by
  unfold underCond
  rw [toOutcome_eq_next]
  cases condPass c s.flags <;> simp

theorem underCond_pass {c : Cond} {s : State} (h : condPass c s.flags = true) (effect : State → Res State) :
    underCond c s effect = toOutcome (effect s) := by
  simp [underCond, h]

theorem underCond_fail {c : Cond} {s : State} (h : condPass c s.flags = false) (effect : State → Res State) :
    underCond c s effect = toOutcome (advance s) := by
  simp [underCond, h]

end Sys2Proof.Machine
end

