-- ==== Sys2Proof/Laws/State.lean ====
section
/-! SUPPORT. The record updates of the state: what each leaves in each field. -/

namespace Sys2Proof.Machine

/-! ### setCr -/

@[simp] theorem setCr_crAt_self (s : State) (i : CRNum) (g : CRVal) : (s.setCr i g).crAt i = g := by
  simp [State.setCr, State.crAt]

@[simp] theorem setCr_crAt_ne (s : State) {i j : CRNum} (g : CRVal) (h : j ≠ i) :
    (s.setCr i g).crAt j = s.crAt j := by
  have : i.val ≠ j.val := fun e => h (Fin.ext e.symm)
  simp [State.setCr, State.crAt, this]

theorem setCr_crAt (s : State) (i j : CRNum) (g : CRVal) :
    (s.setCr i g).crAt j = if j = i then g else s.crAt j := by
  by_cases h : j = i
  · subst h; simp
  · simp [h]

@[simp] theorem setCr_dr (s : State) (i : CRNum) (g : CRVal) : (s.setCr i g).dr = s.dr := rfl
@[simp] theorem setCr_drAt (s : State) (i : CRNum) (g : CRVal) (j : DRNum) :
    (s.setCr i g).drAt j = s.drAt j := rfl
@[simp] theorem setCr_pc (s : State) (i : CRNum) (g : CRVal) : (s.setCr i g).pc = s.pc := rfl
@[simp] theorem setCr_flags (s : State) (i : CRNum) (g : CRVal) : (s.setCr i g).flags = s.flags := rfl
@[simp] theorem setCr_curEgt (s : State) (i : CRNum) (g : CRVal) : (s.setCr i g).curEgt = s.curEgt := rfl
@[simp] theorem setCr_callStack (s : State) (i : CRNum) (g : CRVal) :
    (s.setCr i g).callStack = s.callStack := rfl
@[simp] theorem setCr_cr5Stack (s : State) (i : CRNum) (g : CRVal) :
    (s.setCr i g).cr5Stack = s.cr5Stack := rfl
@[simp] theorem setCr_mi (s : State) (i : CRNum) (g : CRVal) : (s.setCr i g).mi = s.mi := rfl
@[simp] theorem setCr_mem (s : State) (i : CRNum) (g : CRVal) : (s.setCr i g).mem = s.mem := rfl
@[simp] theorem setCr_lumps (s : State) (i : CRNum) (g : CRVal) : (s.setCr i g).lumps = s.lumps := rfl
@[simp] theorem setCr_curLump (s : State) (i : CRNum) (g : CRVal) : (s.setCr i g).curLump = s.curLump := rfl
@[simp] theorem setCr_params (s : State) (i : CRNum) (g : CRVal) : (s.setCr i g).params = s.params := rfl
@[simp] theorem setCr_freeIndex (s : State) (i : CRNum) (g : CRVal) :
    (s.setCr i g).freeIndex = s.freeIndex := rfl

/-- Writing a CR other than CR15 leaves what the abstract predicates read. -/
@[simp] theorem setCr_view (s : State) {i : CRNum} (g : CRVal) (h : i ≠ 15) : (s.setCr i g).view = s.view := by
  simp [State.view, Ne.symm h]

/-! ### setDr -/

@[simp] theorem setDr_drAt_self (s : State) (i : DRNum) (v : Word) : (s.setDr i v).drAt i = v := by
  simp [State.setDr, State.drAt]

@[simp] theorem setDr_drAt_ne (s : State) {i j : DRNum} (v : Word) (h : j ≠ i) :
    (s.setDr i v).drAt j = s.drAt j := by
  have : i.val ≠ j.val := fun e => h (Fin.ext e.symm)
  simp [State.setDr, State.drAt, this]

@[simp] theorem setDr_cr (s : State) (i : DRNum) (v : Word) : (s.setDr i v).cr = s.cr := rfl
@[simp] theorem setDr_crAt (s : State) (i : DRNum) (v : Word) (j : CRNum) :
    (s.setDr i v).crAt j = s.crAt j := rfl
@[simp] theorem setDr_pc (s : State) (i : DRNum) (v : Word) : (s.setDr i v).pc = s.pc := rfl
@[simp] theorem setDr_flags (s : State) (i : DRNum) (v : Word) : (s.setDr i v).flags = s.flags := rfl
@[simp] theorem setDr_curEgt (s : State) (i : DRNum) (v : Word) : (s.setDr i v).curEgt = s.curEgt := rfl
@[simp] theorem setDr_callStack (s : State) (i : DRNum) (v : Word) :
    (s.setDr i v).callStack = s.callStack := rfl
@[simp] theorem setDr_cr5Stack (s : State) (i : DRNum) (v : Word) :
    (s.setDr i v).cr5Stack = s.cr5Stack := rfl
@[simp] theorem setDr_mi (s : State) (i : DRNum) (v : Word) : (s.setDr i v).mi = s.mi := rfl
@[simp] theorem setDr_mem (s : State) (i : DRNum) (v : Word) : (s.setDr i v).mem = s.mem := rfl
@[simp] theorem setDr_lumps (s : State) (i : DRNum) (v : Word) : (s.setDr i v).lumps = s.lumps := rfl
@[simp] theorem setDr_curLump (s : State) (i : DRNum) (v : Word) : (s.setDr i v).curLump = s.curLump := rfl
@[simp] theorem setDr_params (s : State) (i : DRNum) (v : Word) : (s.setDr i v).params = s.params := rfl
@[simp] theorem setDr_freeIndex (s : State) (i : DRNum) (v : Word) :
    (s.setDr i v).freeIndex = s.freeIndex := rfl
@[simp] theorem setDr_view (s : State) (i : DRNum) (v : Word) : (s.setDr i v).view = s.view := rfl

/-! ### setZ -/

@[simp] theorem setZ_flags (s : State) (b : Bool) : (s.setZ b).flags = { s.flags with z := b } := rfl
@[simp] theorem setZ_dr (s : State) (b : Bool) : (s.setZ b).dr = s.dr := rfl
@[simp] theorem setZ_cr (s : State) (b : Bool) : (s.setZ b).cr = s.cr := rfl
@[simp] theorem setZ_crAt (s : State) (b : Bool) (j : CRNum) : (s.setZ b).crAt j = s.crAt j := rfl
@[simp] theorem setZ_pc (s : State) (b : Bool) : (s.setZ b).pc = s.pc := rfl
@[simp] theorem setZ_curEgt (s : State) (b : Bool) : (s.setZ b).curEgt = s.curEgt := rfl
@[simp] theorem setZ_callStack (s : State) (b : Bool) : (s.setZ b).callStack = s.callStack := rfl
@[simp] theorem setZ_cr5Stack (s : State) (b : Bool) : (s.setZ b).cr5Stack = s.cr5Stack := rfl
@[simp] theorem setZ_mi (s : State) (b : Bool) : (s.setZ b).mi = s.mi := rfl
@[simp] theorem setZ_mem (s : State) (b : Bool) : (s.setZ b).mem = s.mem := rfl
@[simp] theorem setZ_lumps (s : State) (b : Bool) : (s.setZ b).lumps = s.lumps := rfl
@[simp] theorem setZ_curLump (s : State) (b : Bool) : (s.setZ b).curLump = s.curLump := rfl
@[simp] theorem setZ_params (s : State) (b : Bool) : (s.setZ b).params = s.params := rfl
@[simp] theorem setZ_freeIndex (s : State) (b : Bool) : (s.setZ b).freeIndex = s.freeIndex := rfl

/-! ### pushFrame -/

@[simp] theorem pushFrame_callStack (s : State) (n : Nat) :
    (pushFrame s n).callStack = { egt := pack s.curEgt, nia := n, mi := s.mi } :: s.callStack := rfl
@[simp] theorem pushFrame_cr5Stack (s : State) (n : Nat) :
    (pushFrame s n).cr5Stack = s.crAt 5 :: s.cr5Stack := rfl
@[simp] theorem pushFrame_dr (s : State) (n : Nat) : (pushFrame s n).dr = s.dr := rfl
@[simp] theorem pushFrame_cr (s : State) (n : Nat) : (pushFrame s n).cr = s.cr := rfl
@[simp] theorem pushFrame_crAt (s : State) (n : Nat) (j : CRNum) : (pushFrame s n).crAt j = s.crAt j := rfl
@[simp] theorem pushFrame_pc (s : State) (n : Nat) : (pushFrame s n).pc = s.pc := rfl
@[simp] theorem pushFrame_flags (s : State) (n : Nat) : (pushFrame s n).flags = s.flags := rfl
@[simp] theorem pushFrame_curEgt (s : State) (n : Nat) : (pushFrame s n).curEgt = s.curEgt := rfl
@[simp] theorem pushFrame_mi (s : State) (n : Nat) : (pushFrame s n).mi = s.mi := rfl
@[simp] theorem pushFrame_mem (s : State) (n : Nat) : (pushFrame s n).mem = s.mem := rfl
@[simp] theorem pushFrame_lumps (s : State) (n : Nat) : (pushFrame s n).lumps = s.lumps := rfl
@[simp] theorem pushFrame_curLump (s : State) (n : Nat) : (pushFrame s n).curLump = s.curLump := rfl
@[simp] theorem pushFrame_params (s : State) (n : Nat) : (pushFrame s n).params = s.params := rfl
@[simp] theorem pushFrame_freeIndex (s : State) (n : Nat) : (pushFrame s n).freeIndex = s.freeIndex := rfl

/-! ### setDomain -/

@[simp] theorem setDomain_crAt_six (s : State) (cl code : Gt) :
    (setDomain s cl code).crAt 6 = withPerms cl permsL := by
  simp [setDomain]

@[simp] theorem setDomain_crAt_fourteen (s : State) (cl code : Gt) :
    (setDomain s cl code).crAt 14 = withPerms code permsX := by
  simp [setDomain]

@[simp] theorem setDomain_crAt_ne (s : State) (cl code : Gt) {j : CRNum} (h6 : j ≠ 6) (h14 : j ≠ 14) :
    (setDomain s cl code).crAt j = s.crAt j := by
  simp [setDomain, h6, h14]

@[simp] theorem setDomain_dr (s : State) (cl code : Gt) : (setDomain s cl code).dr = s.dr := rfl
@[simp] theorem setDomain_pc (s : State) (cl code : Gt) : (setDomain s cl code).pc = s.pc := rfl
@[simp] theorem setDomain_flags (s : State) (cl code : Gt) : (setDomain s cl code).flags = s.flags := rfl
@[simp] theorem setDomain_curEgt (s : State) (cl code : Gt) : (setDomain s cl code).curEgt = s.curEgt := rfl
@[simp] theorem setDomain_callStack (s : State) (cl code : Gt) :
    (setDomain s cl code).callStack = s.callStack := rfl
@[simp] theorem setDomain_cr5Stack (s : State) (cl code : Gt) :
    (setDomain s cl code).cr5Stack = s.cr5Stack := rfl
@[simp] theorem setDomain_mi (s : State) (cl code : Gt) : (setDomain s cl code).mi = s.mi := rfl
@[simp] theorem setDomain_mem (s : State) (cl code : Gt) : (setDomain s cl code).mem = s.mem := rfl
@[simp] theorem setDomain_lumps (s : State) (cl code : Gt) : (setDomain s cl code).lumps = s.lumps := rfl
@[simp] theorem setDomain_curLump (s : State) (cl code : Gt) :
    (setDomain s cl code).curLump = s.curLump := rfl
@[simp] theorem setDomain_params (s : State) (cl code : Gt) : (setDomain s cl code).params = s.params := rfl
@[simp] theorem setDomain_freeIndex (s : State) (cl code : Gt) :
    (setDomain s cl code).freeIndex = s.freeIndex := rfl

/-! ### applyMask -/

theorem foldl_mask_frame {α : Type} (proj : State → α) (h : ∀ s i g, proj (State.setCr s i g) = proj s)
    (mask : BitVec 12) (l : List CRNum) (s : State) :
    proj (l.foldl (fun t n => if mask.getLsbD n.val then t.setCr n none else t) s) = proj s := by
  induction l generalizing s with
  | nil => rfl
  | cons n l ih => simp only [List.foldl_cons, ih]; split <;> simp [h]

@[simp] theorem applyMask_dr (s : State) (m : BitVec 12) : (applyMask s m).dr = s.dr :=
  foldl_mask_frame State.dr (fun _ _ _ => rfl) m _ s
@[simp] theorem applyMask_pc (s : State) (m : BitVec 12) : (applyMask s m).pc = s.pc :=
  foldl_mask_frame State.pc (fun _ _ _ => rfl) m _ s
@[simp] theorem applyMask_flags (s : State) (m : BitVec 12) : (applyMask s m).flags = s.flags :=
  foldl_mask_frame State.flags (fun _ _ _ => rfl) m _ s
@[simp] theorem applyMask_curEgt (s : State) (m : BitVec 12) : (applyMask s m).curEgt = s.curEgt :=
  foldl_mask_frame State.curEgt (fun _ _ _ => rfl) m _ s
@[simp] theorem applyMask_callStack (s : State) (m : BitVec 12) :
    (applyMask s m).callStack = s.callStack :=
  foldl_mask_frame State.callStack (fun _ _ _ => rfl) m _ s
@[simp] theorem applyMask_cr5Stack (s : State) (m : BitVec 12) :
    (applyMask s m).cr5Stack = s.cr5Stack :=
  foldl_mask_frame State.cr5Stack (fun _ _ _ => rfl) m _ s
@[simp] theorem applyMask_mi (s : State) (m : BitVec 12) : (applyMask s m).mi = s.mi :=
  foldl_mask_frame State.mi (fun _ _ _ => rfl) m _ s
@[simp] theorem applyMask_mem (s : State) (m : BitVec 12) : (applyMask s m).mem = s.mem :=
  foldl_mask_frame State.mem (fun _ _ _ => rfl) m _ s
@[simp] theorem applyMask_lumps (s : State) (m : BitVec 12) : (applyMask s m).lumps = s.lumps :=
  foldl_mask_frame State.lumps (fun _ _ _ => rfl) m _ s
@[simp] theorem applyMask_curLump (s : State) (m : BitVec 12) : (applyMask s m).curLump = s.curLump :=
  foldl_mask_frame State.curLump (fun _ _ _ => rfl) m _ s
@[simp] theorem applyMask_params (s : State) (m : BitVec 12) : (applyMask s m).params = s.params :=
  foldl_mask_frame State.params (fun _ _ _ => rfl) m _ s
@[simp] theorem applyMask_freeIndex (s : State) (m : BitVec 12) :
    (applyMask s m).freeIndex = s.freeIndex :=
  foldl_mask_frame State.freeIndex (fun _ _ _ => rfl) m _ s

theorem foldl_mask_crAt (mask : BitVec 12) (l : List CRNum) (s : State) (j : CRNum) :
    (l.foldl (fun t n => if mask.getLsbD n.val then t.setCr n none else t) s).crAt j =
      if j ∈ l ∧ mask.getLsbD j.val = true then none else s.crAt j := by
  induction l generalizing s with
  | nil => simp
  | cons n l ih =>
    rw [List.foldl_cons, ih]
    by_cases hj : j = n
    · subst hj
      by_cases hm : mask.getLsbD j.val = true <;> simp [hm]
    · by_cases hm : mask.getLsbD n.val = true <;> simp [hm, hj]

/-- RETURN's mask makes exactly the named, maskable registers NULL. -/
theorem applyMask_crAt (s : State) (mask : BitVec 12) (j : CRNum) :
    (applyMask s mask).crAt j =
      if j ∈ maskableCRs ∧ mask.getLsbD j.val = true then none else s.crAt j :=
  foldl_mask_crAt mask maskableCRs s j

/-- The maskable registers: CR0 to CR11 but CR6 (R168, R169). -/
theorem mem_maskableCRs (j : CRNum) : j ∈ maskableCRs ↔ j.val < 12 ∧ j ≠ 6 := by
  revert j
  decide

/-- RETURN's mask changes context registers alone. -/
theorem applyMask_eq (s : State) (mask : BitVec 12) : applyMask s mask = { s with cr := (applyMask s mask).cr } := by
  have h := applyMask_dr s mask
  have h1 := applyMask_pc s mask
  have h2 := applyMask_flags s mask
  have h3 := applyMask_curEgt s mask
  have h4 := applyMask_callStack s mask
  have h5 := applyMask_cr5Stack s mask
  have h6 := applyMask_mi s mask
  have h7 := applyMask_mem s mask
  have h8 := applyMask_lumps s mask
  have h9 := applyMask_curLump s mask
  have h10 := applyMask_params s mask
  have h11 := applyMask_freeIndex s mask
  cases hm : applyMask s mask
  simp_all

/-! ### anyFlags -/

@[simp] theorem anyFlags_flags (s : State) : (anyFlags s).flags = Config.freeFlags s.freeIndex := rfl
@[simp] theorem anyFlags_freeIndex (s : State) : (anyFlags s).freeIndex = s.freeIndex + 1 := rfl
@[simp] theorem anyFlags_dr (s : State) : (anyFlags s).dr = s.dr := rfl
@[simp] theorem anyFlags_cr (s : State) : (anyFlags s).cr = s.cr := rfl
@[simp] theorem anyFlags_crAt (s : State) (j : CRNum) : (anyFlags s).crAt j = s.crAt j := rfl
@[simp] theorem anyFlags_pc (s : State) : (anyFlags s).pc = s.pc := rfl
@[simp] theorem anyFlags_curEgt (s : State) : (anyFlags s).curEgt = s.curEgt := rfl
@[simp] theorem anyFlags_callStack (s : State) : (anyFlags s).callStack = s.callStack := rfl
@[simp] theorem anyFlags_cr5Stack (s : State) : (anyFlags s).cr5Stack = s.cr5Stack := rfl
@[simp] theorem anyFlags_mi (s : State) : (anyFlags s).mi = s.mi := rfl
@[simp] theorem anyFlags_mem (s : State) : (anyFlags s).mem = s.mem := rfl
@[simp] theorem anyFlags_lumps (s : State) : (anyFlags s).lumps = s.lumps := rfl
@[simp] theorem anyFlags_curLump (s : State) : (anyFlags s).curLump = s.curLump := rfl
@[simp] theorem anyFlags_params (s : State) : (anyFlags s).params = s.params := rfl

/-! ### anyThreadState -/

@[simp] theorem anyThreadState_flags (s : State) :
    (anyThreadState s).flags = Config.freeFlags s.freeIndex := rfl
@[simp] theorem anyThreadState_curEgt (s : State) :
    (anyThreadState s).curEgt = (Config.freeCurEgt s.freeIndex).map legalised := rfl
@[simp] theorem anyThreadState_dr (s : State) : (anyThreadState s).dr = s.dr := rfl
@[simp] theorem anyThreadState_cr (s : State) : (anyThreadState s).cr = s.cr := rfl
@[simp] theorem anyThreadState_crAt (s : State) (j : CRNum) : (anyThreadState s).crAt j = s.crAt j := rfl
@[simp] theorem anyThreadState_pc (s : State) : (anyThreadState s).pc = s.pc := rfl
@[simp] theorem anyThreadState_mem (s : State) : (anyThreadState s).mem = s.mem := rfl
@[simp] theorem anyThreadState_lumps (s : State) : (anyThreadState s).lumps = s.lumps := rfl
@[simp] theorem anyThreadState_curLump (s : State) : (anyThreadState s).curLump = s.curLump := rfl
@[simp] theorem anyThreadState_params (s : State) : (anyThreadState s).params = s.params := rfl

/-! ### loadLump -/

@[simp] theorem loadLump_dr (s : State) (l : Lump) : (loadLump s l).dr = l.dr := rfl
@[simp] theorem loadLump_pc (s : State) (l : Lump) :
    (loadLump s l).pc = if l.activated then l.pc else 0 := rfl
@[simp] theorem loadLump_flags (s : State) (l : Lump) : (loadLump s l).flags = s.flags := rfl
@[simp] theorem loadLump_mem (s : State) (l : Lump) : (loadLump s l).mem = s.mem := rfl
@[simp] theorem loadLump_lumps (s : State) (l : Lump) : (loadLump s l).lumps = s.lumps := rfl
@[simp] theorem loadLump_curLump (s : State) (l : Lump) : (loadLump s l).curLump = s.curLump := rfl
@[simp] theorem loadLump_params (s : State) (l : Lump) : (loadLump s l).params = s.params := rfl
@[simp] theorem loadLump_crAt_twelve (s : State) (l : Lump) : (loadLump s l).crAt 12 = s.crAt 12 := rfl
@[simp] theorem loadLump_crAt_thirteen (s : State) (l : Lump) : (loadLump s l).crAt 13 = s.crAt 13 := rfl
@[simp] theorem loadLump_crAt_fourteen (s : State) (l : Lump) : (loadLump s l).crAt 14 = l.cr14 := rfl
@[simp] theorem loadLump_crAt_fifteen (s : State) (l : Lump) : (loadLump s l).crAt 15 = l.cr15 := rfl

/-- CR0 to CR11 come from the lump (R184). -/
theorem loadLump_crAt_low (s : State) (l : Lump) (j : Fin 12) :
    (loadLump s l).crAt ⟨j.val, by omega⟩ = l.cr[j.val] := by
  fin_cases j <;> rfl

/-- The lump of the running thread holds CR0 to CR11 (R184). -/
theorem savedLump_cr (s : State) (pc : Nat) (j : Fin 12) :
    (savedLump s pc).cr[j.val] = s.crAt ⟨j.val, by omega⟩ := by
  fin_cases j <;> rfl

end Sys2Proof.Machine
end

