-- ==== Sys2Proof/Laws/Ops.lean ====
section
/-! SUPPORT. One lemma for each shared operation that says once when it answers and what. -/

namespace Sys2Proof.Machine

/-! ### The program counter -/

theorem pcOk_natCast (s : State) (n : Nat) : pcOk s (n : Int) = decide (n < 2 ^ s.params.pcWidth.val) := by
  unfold pcOk
  have h : ((n : Int) < 2 ^ s.params.pcWidth.val) ↔ n < 2 ^ s.params.pcWidth.val := by exact_mod_cast Iff.rfl
  simp [h]

theorem nextPc_eq_ok (s : State) (n : Nat) : nextPc s = .ok n ↔ s.HasNextPc ∧ n = s.pc + 1 := by
  have h : pcOk s ((s.pc : Int) + 1) = decide s.HasNextPc := pcOk_natCast s (s.pc + 1)
  simp only [nextPc, bind_eq_ok, h, check_eq_ok, pure_eq_ok, Except.ok.injEq, exists_const,
    decide_eq_true_eq, @eq_comm _ n]

theorem nextPc_fault {s : State} (h : ¬ s.HasNextPc) : nextPc s = .error (.fault .fault) := by
  have h' : pcOk s ((s.pc : Int) + 1) = false := by
    have := pcOk_natCast s (s.pc + 1)
    push_cast at this
    rw [this]
    exact decide_eq_false h
  simp [nextPc, h']

theorem advance_eq_ok (s t : State) : advance s = .ok t ↔ s.HasNextPc ∧ t = { s with pc := s.pc + 1 } := by
  simp only [advance, bind_eq_ok, nextPc_eq_ok, pure_eq_ok, Except.ok.injEq]
  constructor
  · rintro ⟨n, ⟨h, rfl⟩, rfl⟩; exact ⟨h, rfl⟩
  · rintro ⟨h, rfl⟩; exact ⟨_, ⟨h, rfl⟩, rfl⟩

theorem advance_ok {s : State} (h : s.HasNextPc) : advance s = .ok { s with pc := s.pc + 1 } :=
  (advance_eq_ok s _).mpr ⟨h, rfl⟩

theorem advance_fault {s : State} (h : ¬ s.HasNextPc) : advance s = .error (.fault .fault) := by
  simp [advance, nextPc_fault h]

theorem jump_eq_ok (s t : State) (d : Int) :
    jump s d = .ok t ↔ 0 ≤ d ∧ d < 2 ^ s.params.pcWidth.val ∧ t = { s with pc := d.toNat } := by
  simp only [jump, bind_eq_ok, check_eq_ok, pcOk, pure_eq_ok, Except.ok.injEq, exists_const,
    Bool.and_eq_true, decide_eq_true_eq, and_assoc, @eq_comm _ t]

/-! ### Operand tests -/

@[simp] theorem ordinaryCR_eq_ok (i : CRNum) (u : Unit) : ordinaryCR i = .ok u ↔ i.val < 12 := by
  simp [ordinaryCR]

theorem ordinaryCR_ok {i : CRNum} (h : i.val < 12) : ordinaryCR i = .ok () := by simp [h]

theorem ordinaryCR_fault {i : CRNum} (h : ¬ i.val < 12) : ordinaryCR i = .error (.fault .privReg) := by
  simp [ordinaryCR, require, h]

@[simp] theorem notCR6_eq_ok (i : CRNum) (u : Unit) : notCR6 i = .ok u ↔ i ≠ 6 := by
  simp [notCR6]

@[simp] theorem nonNull_eq_ok (v : CRVal) (g : Gt) : nonNull v = .ok g ↔ v = some g := by
  cases v <;> simp [nonNull]

@[simp] theorem nsSplit_eq_ok (s : State) (e : Gt) (p : Gt × Gt) :
    nsSplit s e = .ok p ↔ s.params.nsSplit.ask s.view e = some p := by
  unfold nsSplit
  cases s.params.nsSplit.ask s.view e <;> simp

/-! ### Access and capability loads -/

/-- CheckAccess answers exactly the address of an accessible word (R72). -/
theorem checkAccess_eq_ok (s : State) (c : CRVal) (p : Perm) (off a : Nat) :
    checkAccess s c p off = .ok a ↔ Accessible s c p off a := by
  cases c with
  | none => simp [checkAccess, Accessible]
  | some g =>
    simp only [checkAccess, Accessible, bind_eq_ok, check_eq_ok, pure_eq_ok, Except.ok.injEq, exists_const,
      Option.some.injEq, exists_eq_left', decide_eq_true_eq, @eq_comm _ a]

theorem checkAccess_eq (s : State) (c : CRVal) (p : Perm) (off : Nat) :
    (∃ a, checkAccess s c p off = .ok a) ∨ checkAccess s c p off = .error (.fault .fault) := by
  cases c with
  | none => exact .inr rfl
  | some g =>
    simp only [checkAccess]
    cases valid s g <;> cases permIn p g.perms <;> by_cases h : g.base + off ≤ g.limit <;> simp [h]

/-- CheckAccess raises FAULT where the word is not accessible, and nothing else (R72). -/
theorem checkAccess_fault {s : State} {c : CRVal} {p : Perm} {off : Nat}
    (h : ∀ a, ¬ Accessible s c p off a) : checkAccess s c p off = .error (.fault .fault) := by
  rcases checkAccess_eq s c p off with ⟨a, ha⟩ | h'
  · exact absurd ((checkAccess_eq_ok ..).mp ha) (h a)
  · exact h'

/-- mLoadWord answers what the stored word loads as (R140). -/
theorem mLoadWord_eq_ok (s : State) (w : MemWord) (v : CRVal) : mLoadWord s w = .ok v ↔ LoadsAs s w v := by
  unfold mLoadWord LoadsAs
  by_cases h : w = .data 0
  · simp [h, @eq_comm _ v]
  · simp only [h, if_false, bind_eq_ok, check_eq_ok, pure_eq_ok, Except.ok.injEq, exists_const, valid,
      Bool.and_eq_true, false_and, false_or, ne_eq, not_false_eq_true, true_and, and_assoc, @eq_comm _ v]

theorem mLoadWord_eq (s : State) (w : MemWord) :
    (∃ v, mLoadWord s w = .ok v) ∨ mLoadWord s w = .error (.fault .fault) := by
  unfold mLoadWord
  by_cases h : w = .data 0
  · simp [h]
  · simp only [h, if_false]
    cases s.params.versionOK.ask s.view (expandWord s w) <;>
      cases s.params.sealOK.ask s.view (expandWord s w) <;>
        cases s.params.fbitLoad.ask s.view w <;> simp

/-- mLoad answers what the slot holds (R141). -/
theorem mLoad_eq_ok (s : State) (c : CRVal) (slot : Nat) (needL : Bool) (v : CRVal) :
    mLoad s c slot needL = .ok v ↔ SlotHolds s c slot needL v := by
  cases c with
  | none => simp [mLoad, SlotHolds]
  | some t =>
    simp only [mLoad, SlotHolds, bind_eq_ok, check_eq_ok, mLoadWord_eq_ok, Option.some.injEq,
      exists_eq_left', exists_const, decide_eq_true_eq]
    cases needL <;> simp [permIn]

theorem mLoad_eq (s : State) (c : CRVal) (slot : Nat) (needL : Bool) :
    (∃ v, mLoad s c slot needL = .ok v) ∨ mLoad s c slot needL = .error (.fault .fault) := by
  cases c with
  | none => exact .inr rfl
  | some t =>
    simp only [mLoad]
    rcases mLoadWord_eq s (Memory.readCell s.mem (t.base + slot)) with ⟨v, hv⟩ | hv <;> rw [hv] <;>
      cases valid s t <;> cases (!needL || permIn .l t.perms) <;>
        by_cases h : t.base + slot ≤ t.limit <;> simp [h]

/-- mLoad raises FAULT where the slot's content cannot be loaded, and nothing else (R141). -/
theorem mLoad_fault {s : State} {c : CRVal} {slot : Nat} {needL : Bool}
    (h : ∀ v, ¬ SlotHolds s c slot needL v) : mLoad s c slot needL = .error (.fault .fault) := by
  rcases mLoad_eq s c slot needL with ⟨v, hv⟩ | h'
  · exact absurd ((mLoad_eq_ok ..).mp hv) (h v)
  · exact h'

/-- mSave answers memory with the one slot written, when every test passes (R147). -/
theorem mSave_eq_ok (s : State) (c : CRVal) (slot : Nat) (v : CRVal) (t : State) :
    mSave s c slot v = .ok t ↔
      ∃ a g, Accessible s c .s slot a ∧ v = some g ∧ valid s g = true ∧ g.b = true ∧
        s.params.fbitSave.ask s.view a = true ∧ t = { s with mem := Memory.writeCell s.mem a (.token g) } := by
  simp only [mSave, bind_eq_ok, checkAccess_eq_ok, nonNull_eq_ok, check_eq_ok, pure_eq_ok,
    Except.ok.injEq, exists_const]
  constructor
  · rintro ⟨a, ha, g, rfl, hg, hb, hf, rfl⟩
    exact ⟨a, g, ha, rfl, hg, hb, hf, rfl⟩
  · rintro ⟨a, g, ha, rfl, hg, hb, hf, rfl⟩
    exact ⟨a, ha, g, rfl, hg, hb, hf, rfl⟩

/-! ### Entering, applying, switching -/

/-- The state after Enter on an E-GT that NSSplit divides into `cl` and `code` (R160). -/
def entered (s : State) (e cl code : Gt) : State :=
  { setDomain (pushFrame s (s.pc + 1)) cl code with curEgt := some e, pc := 0 }

/-- Enter answers exactly the state entered, when its tests pass (R160). -/
theorem enter_eq_ok (s : State) (e : Gt) (t : State) :
    enter s e = .ok t ↔ ∃ cl code, Enterable s e cl code ∧ t = entered s e cl code := by
  simp only [enter, bind_eq_ok, check_eq_ok, nextPc_eq_ok, nsSplit_eq_ok, pure_eq_ok, Except.ok.injEq,
    exists_const, Enterable, entered, permIn, roomForFrame, decide_eq_true_eq]
  constructor
  · rintro ⟨hv, he, n, ⟨hn, rfl⟩, hr, ⟨cl, code⟩, hs, rfl⟩
    exact ⟨cl, code, ⟨hv, he, hn, hr, hs⟩, rfl⟩
  · rintro ⟨cl, code, ⟨hv, he, hn, hr, hs⟩, rfl⟩
    exact ⟨hv, he, _, ⟨hn, rfl⟩, hr, (cl, code), hs, rfl⟩

/-- The state after a lambda target is applied (R221). -/
def applied (s : State) (g : Gt) : State :=
  { (pushFrame s (s.pc + 1)).setCr 14 (withPerms g permsX) with pc := 0 }

/-- Applying a lambda target answers exactly the state applied, when its tests pass (R221). -/
theorem applyLambda_eq_ok (s : State) (v : CRVal) (t : State) :
    applyLambda s v = .ok t ↔ ∃ g, v = some g ∧ Applicable s g ∧ t = applied s g := by
  simp only [applyLambda, bind_eq_ok, check_eq_ok, checkAccess_eq_ok, nonNull_eq_ok, nextPc_eq_ok,
    Config.lambdaReturnModel, pure_eq_ok, Except.ok.injEq, exists_const, Accessible, Applicable, applied,
    permIn, roomForFrame, decide_eq_true_eq, Nat.add_zero]
  constructor
  · rintro ⟨a, ⟨g, rfl, hv, hx, hb, rfl⟩, g', hg, n, ⟨hn, rfl⟩, hr, rfl⟩
    cases hg
    exact ⟨g, rfl, ⟨hv, hx, hb, hn, hr⟩, rfl⟩
  · rintro ⟨g, rfl, ⟨hv, hx, hb, hn, hr⟩, rfl⟩
    exact ⟨_, ⟨g, rfl, hv, hx, hb, rfl⟩, g, rfl, _, ⟨hn, rfl⟩, hr, rfl⟩

/-- The state after RETURN's steps 1 to 4 and 6, before the mask: the popped frame's pc and indicators, the popped
CR5, and the caller's CR6 and CR14 (R168). -/
def returned (s : State) (f : Frame) (frames : List Frame) (g5 : CRVal) (rest : List CRVal)
    (e cl code : Gt) : State :=
  anyFlags { (setDomain s cl code).setCr 5 g5 with
    callStack := frames, cr5Stack := rest, curEgt := some e, pc := f.nia, mi := f.mi }

/-- RETURN answers exactly the state returned to, masked, when its tests pass (R168). -/
theorem retEffect_eq_ok (mask : BitVec 12) (s t : State) :
    retEffect mask s = .ok t ↔
      mask.getLsbD 6 = false ∧ ∃ f frames g5 rest e cl code, s.callStack = f :: frames ∧
        s.cr5Stack = g5 :: rest ∧ LoadsAs s f.egt (some e) ∧
        s.params.nsSplit.ask s.view e = some (cl, code) ∧
        t = applyMask (returned s f frames g5 rest e cl code) mask := by
  simp only [retEffect, bind_eq_ok, require_eq_ok, exists_const, Bool.not_eq_true']
  refine and_congr_right fun _ => ?_
  rcases hcs : s.callStack with _ | ⟨f, frames⟩
  · simp
  · simp only [bind_eq_ok, mLoadWord_eq_ok, nonNull_eq_ok, nsSplit_eq_ok]
    rcases h5 : s.cr5Stack with _ | ⟨g5, rest⟩
    · simp
    · simp only [pure_eq_ok, Except.ok.injEq]
      constructor
      · rintro ⟨_, hv, e, rfl, ⟨cl, code⟩, hs, rfl⟩
        exact ⟨f, frames, g5, rest, e, cl, code, rfl, rfl, hv, hs, rfl⟩
      · rintro ⟨_, _, _, _, e, cl, code, hf, hg, hv, hs, rfl⟩
        obtain ⟨rfl, rfl⟩ := List.cons.inj hf
        obtain ⟨rfl, rfl⟩ := List.cons.inj hg
        exact ⟨_, hv, e, rfl, (cl, code), hs, rfl⟩

/-- The number of the target's lump, from CHANGE's dst and the loaded CR value (R184). -/
def switchTarget (s : State) (dst : CRNum) (g : CRVal) : Nat := s.params.targetLump.ask s.view (dst, g)

/-- The lumps after the running thread is saved (R184). -/
def lumpsSaved (s : State) : List (Nat × Lump) := assocSet s.curLump (savedLump s (s.pc + 1)) s.lumps

/-- The state after a context switch (R184). -/
def switched (s : State) (dst : CRNum) (g : CRVal) : State :=
  (anyThreadState (loadLump { s with lumps := lumpsSaved s, curLump := switchTarget s dst g }
    (lumpAt (lumpsSaved s) (switchTarget s dst g)))).setCr dst g

/-- A context switch answers exactly the state switched to (R184). -/
theorem contextSwitch_eq_ok (s : State) (dst : CRNum) (g : CRVal) (t : State) :
    contextSwitch s dst g = .ok t ↔ s.HasNextPc ∧ t = switched s dst g := by
  simp only [contextSwitch, bind_eq_ok, nextPc_eq_ok, Config.threadModel, pure_eq_ok, Except.ok.injEq]
  constructor
  · rintro ⟨n, ⟨hn, rfl⟩, rfl⟩; exact ⟨hn, rfl⟩
  · rintro ⟨hn, rfl⟩; exact ⟨_, ⟨hn, rfl⟩, rfl⟩

/-! ### Loads of the LOAD family, and fetch -/

/-- The LOAD half answers what the slot holds, for operands it may name (R142, R143, R144). -/
theorem loadToken_eq_ok (s : State) (rd rs : CRNum) (slot : BitVec 15) (v : CRVal) :
    loadToken s rd rs slot = .ok v ↔
      rd.val < 12 ∧ rs.val < 12 ∧ rd ≠ 6 ∧ SlotHolds s (s.crAt rs) slot.toNat (rs != 6) v := by
  simp [loadToken, bind_eq_ok, mLoad_eq_ok, zextImm, needsL]

/-- Fetch answers the word at offset pc of CR14's code object (R70). -/
theorem fetch_eq_ok (s : State) (w : Word) :
    fetch s = .ok w ↔ ∃ a, Accessible s (s.crAt 14) .x s.pc a ∧ w = Memory.readWord s.mem a := by
  simp only [fetch, bind_eq_ok, checkAccess_eq_ok, pure_eq_ok, Except.ok.injEq, @eq_comm _ w]

theorem fetch_fault {s : State} (h : ∀ a, ¬ Accessible s (s.crAt 14) .x s.pc a) :
    fetch s = .error (.fault .fault) := by
  simp [fetch, checkAccess_fault h]

/-- A step that answers has fetched a word and run it. -/
theorem step_eq_next (s t : State) : step s = .next t ↔ ∃ w, fetch s = .ok w ∧ runWord w s = .next t := by
  unfold step
  cases h : fetch s with
  | error e => cases e <;> simp
  | ok w => simp

/-- Running a word that answers either ran the instruction it decodes to, or skipped it. -/
theorem runWord_eq_next (w : Word) (s t : State) :
    runWord w s = .next t ↔
      (∃ i, decode w = .ok i ∧ exec i s = .next t) ∨
      (∃ r, decode w = .error r ∧ condPass (condOf w) s.flags = false ∧ advance s = .ok t) := by
  unfold runWord
  cases h : decode w with
  | ok i => simp
  | error r =>
    simp only [runReject, underCond_eq_next]
    cases r <;> simp [executeReject]

/-! ### Placing a word -/

@[simp] theorem ask_allow_self {κ : Type} [DecidableEq κ] (t : Table κ Bool) (v : View) (k : κ) :
    (t.allow v k).ask v k = true := by
  unfold Table.allow
  split
  · assumption
  · simp [Table.ask, lookupKey]

/-- The word placed is the word the next step fetches, in every state. -/
theorem fetch_placeWord (s : State) (w : Word) : fetch (placeWord s w) = .ok w := by
  have hx : permIn .x (fetchToken s).perms = true ∧ (fetchToken s).base + s.pc ≤ (fetchToken s).limit := by
    unfold fetchToken
    split
    · simp [loaderCode, permIn, permsX]
    · split
      · rename_i h; simpa using h
      · simp [loaderCode, permIn, permsX]
  rw [fetch_eq_ok]
  refine ⟨(fetchToken s).base + s.pc, ⟨fetchToken s, ?_, ?_, hx.1, hx.2, rfl⟩, ?_⟩
  · exact setCr_crAt_self s 14 _
  · have hv : (placeWord s w).view = State.view { s.setCr 14 (some (fetchToken s)) with
        mem := Memory.writeWord s.mem ((fetchToken s).base + s.pc) w } := rfl
    unfold valid
    rw [hv]
    simp only [placeWord, ask_allow_self, Bool.and_self]
  · exact (readWord_writeWord_self ..).symm

/-- A step runs the word `withFetchWord` placed. -/
theorem step_withFetchWord (s : State) (nbits w : Nat) :
    step (s.withFetchWord nbits w) =
      runWord (BitVec.ofNat 32 (w % 2 ^ nbits)) (s.withFetchWord nbits w) := by
  unfold step
  rw [show fetch (s.withFetchWord nbits w) = .ok _ from fetch_placeWord s _]

end Sys2Proof.Machine
end

