-- ==== Sys2Proof/Laws/Stops.lean ====
section
/-! SUPPORT. Which operations stop with FAULT alone, and what an executed instruction's stop makes of a step. -/

namespace Sys2Proof.Machine

/-- The operation answers or raises FAULT; it has no other stop. -/
def OnlyFault {α : Type} (x : Res α) : Prop := ∀ e, x = .error e → e = .fault .fault

theorem onlyFault_ok {α : Type} (a : α) : OnlyFault (.ok a : Res α) := by
  intro e h
  cases h

theorem onlyFault_pure {α : Type} (a : α) : OnlyFault (pure a : Res α) := onlyFault_ok a

theorem onlyFault_raise {α : Type} : OnlyFault (raise .fault : Res α) := by
  intro e h
  cases h
  rfl

theorem onlyFault_check (b : Bool) : OnlyFault (check b) := by
  intro e
  cases b <;> simp [eq_comm]

theorem onlyFault_bind {α β : Type} {x : Res α} {f : α → Res β} (hx : OnlyFault x) (hf : ∀ a, OnlyFault (f a)) :
    OnlyFault (x >>= f) := by
  intro e h
  cases x with
  | error e' =>
    rw [error_bind] at h
    cases h
    exact hx _ rfl
  | ok a => exact hf a e h

theorem onlyFault_nextPc (s : State) : OnlyFault (nextPc s) :=
  onlyFault_bind (onlyFault_check _) fun _ => onlyFault_pure _

theorem onlyFault_advance (s : State) : OnlyFault (advance s) :=
  onlyFault_bind (onlyFault_nextPc s) fun _ => onlyFault_pure _

theorem onlyFault_jump (s : State) (d : Int) : OnlyFault (jump s d) :=
  onlyFault_bind (onlyFault_check _) fun _ => onlyFault_pure _

theorem onlyFault_checkAccess (s : State) (c : CRVal) (p : Perm) (off : Nat) :
    OnlyFault (checkAccess s c p off) := by
  intro e h
  rcases checkAccess_eq s c p off with ⟨a, h'⟩ | h' <;> rw [h'] at h <;> cases h
  rfl

theorem onlyFault_mLoadWord (s : State) (w : MemWord) : OnlyFault (mLoadWord s w) := by
  intro e h
  rcases mLoadWord_eq s w with ⟨a, h'⟩ | h' <;> rw [h'] at h <;> cases h
  rfl

theorem onlyFault_mLoad (s : State) (c : CRVal) (slot : Nat) (needL : Bool) :
    OnlyFault (mLoad s c slot needL) := by
  intro e h
  rcases mLoad_eq s c slot needL with ⟨a, h'⟩ | h' <;> rw [h'] at h <;> cases h
  rfl

theorem onlyFault_nonNull (v : CRVal) : OnlyFault (nonNull v) := by
  cases v
  · exact onlyFault_raise
  · exact onlyFault_ok _

theorem onlyFault_nsSplit (s : State) (e : Gt) : OnlyFault (nsSplit s e) := by
  unfold nsSplit
  split
  · exact onlyFault_raise
  · exact onlyFault_ok _

theorem onlyFault_mSave (s : State) (c : CRVal) (slot : Nat) (v : CRVal) : OnlyFault (mSave s c slot v) :=
  onlyFault_bind (onlyFault_checkAccess s c .s slot) fun _ => onlyFault_bind (onlyFault_nonNull v) fun _ =>
    onlyFault_bind (onlyFault_check _) fun _ => onlyFault_bind (onlyFault_check _) fun _ =>
      onlyFault_bind (onlyFault_check _) fun _ => onlyFault_pure _

theorem onlyFault_enter (s : State) (e : Gt) : OnlyFault (enter s e) :=
  onlyFault_bind (onlyFault_check _) fun _ => onlyFault_bind (onlyFault_check _) fun _ =>
    onlyFault_bind (onlyFault_nextPc s) fun _ => onlyFault_bind (onlyFault_check _) fun _ =>
      onlyFault_bind (onlyFault_nsSplit s e) fun _ => onlyFault_pure _

theorem onlyFault_applyLambda (s : State) (v : CRVal) : OnlyFault (applyLambda s v) :=
  onlyFault_bind (onlyFault_checkAccess s v .x 0) fun _ => onlyFault_bind (onlyFault_nonNull v) fun _ =>
    onlyFault_bind (onlyFault_nextPc s) fun _ => onlyFault_bind (onlyFault_check _) fun _ => onlyFault_pure _

/-- An executed instruction that answers is the step's next state. -/
theorem underCond_next {c : Cond} {s t : State} {effect : State → Res State}
    (h : condPass c s.flags = true) (ht : effect s = .ok t) : underCond c s effect = .next t :=
  (underCond_eq_next ..).mpr (.inl ⟨h, ht⟩)

theorem underCond_stop_fault {c : Cond} {s : State} {effect : State → Res State} {f : Fault}
    (h : condPass c s.flags = true) (hf : effect s = .error (.fault f)) : underCond c s effect = .fault f := by
  rw [underCond_pass h, hf, toOutcome_fault]

theorem underCond_stop_refuse {c : Cond} {s : State} {effect : State → Res State} {r : Refusal}
    (h : condPass c s.flags = true) (hr : effect s = .error (.refuse r)) :
    underCond c s effect = .refused r := by
  rw [underCond_pass h, hr, toOutcome_refuse]

/-- An executed instruction that has no stop but FAULT, and does not answer, is FAULT. -/
theorem underCond_fault {c : Cond} {s : State} {effect : State → Res State} (h : condPass c s.flags = true)
    (hf : OnlyFault (effect s)) (hn : ∀ t, effect s ≠ .ok t) : underCond c s effect = .fault .fault := by
  refine underCond_stop_fault h ?_
  cases hr : effect s with
  | ok t => exact absurd hr (hn t)
  | error e => rw [hf e hr]

/-- A skipped instruction does what a skipped word does, whatever it is (R131, R133). -/
theorem exec_skip {i : Instr} {s : State} (h : condPass i.cond s.flags = false) :
    exec i s = toOutcome (advance s) := by
  cases i <;> exact underCond_fail h _

end Sys2Proof.Machine
end

