-- ==== Sys2Proof/Laws/Effects.lean ====
section
/-! SUPPORT. One lemma for each instruction that says once when its executed form answers and with what state,
and one that says when `exec` answers. -/

namespace Sys2Proof.Machine

theorem HasNextPc_setCr (s : State) (i : CRNum) (g : CRVal) : (s.setCr i g).HasNextPc ↔ s.HasNextPc := Iff.rfl

theorem HasNextPc_setDr (s : State) (i : DRNum) (v : Word) : (s.setDr i v).HasNextPc ↔ s.HasNextPc := Iff.rfl

/-- Writing a CR other than CR15 leaves whether an entry's tests pass. -/
theorem enterable_setCr (s : State) {i : CRNum} (v : CRVal) (e cl code : Gt) (h : i ≠ 15) :
    Enterable (s.setCr i v) e cl code ↔ Enterable s e cl code := by
  simp [Enterable, valid, setCr_view s v h]

/-- Writing a CR other than CR15 leaves whether a lambda target's tests pass. -/
theorem applicable_setCr (s : State) {i : CRNum} (v : CRVal) (g : Gt) (h : i ≠ 15) :
    Applicable (s.setCr i v) g ↔ Applicable s g := by
  simp [Applicable, valid, setCr_view s v h]

theorem ne_fifteen {i : CRNum} (h : i.val < 12) : i ≠ 15 := by
  rintro rfl
  simp at h

theorem loadEffect_eq_ok (rd rs : CRNum) (slot : BitVec 15) (s t : State) :
    loadEffect rd rs slot s = .ok t ↔
      rd.val < 12 ∧ rs.val < 12 ∧ rd ≠ 6 ∧ s.HasNextPc ∧
        ∃ v, SlotHolds s (s.crAt rs) slot.toNat (rs != 6) v ∧ t = { s.setCr rd v with pc := s.pc + 1 } := by
  simp only [loadEffect, bind_eq_ok, loadToken_eq_ok, advance_eq_ok, HasNextPc_setCr, setCr_pc]
  constructor
  · rintro ⟨v, ⟨h1, h2, h3, hv⟩, hp, rfl⟩
    exact ⟨h1, h2, h3, hp, v, hv, rfl⟩
  · rintro ⟨h1, h2, h3, hp, v, hv, rfl⟩
    exact ⟨v, ⟨h1, h2, h3, hv⟩, hp, rfl⟩

theorem saveEffect_eq_ok (rd rs : CRNum) (slot : BitVec 15) (s t : State) :
    saveEffect rd rs slot s = .ok t ↔
      rd.val < 12 ∧ rs.val < 12 ∧ s.HasNextPc ∧
        ∃ a g, Accessible s (s.crAt rd) .s slot.toNat a ∧ s.crAt rs = some g ∧ valid s g = true ∧
          g.b = true ∧ s.params.fbitSave.ask s.view a = true ∧
          t = { s with mem := Memory.writeCell s.mem a (.token g), pc := s.pc + 1 } := by
  simp only [saveEffect, bind_eq_ok, ordinaryCR_eq_ok, mSave_eq_ok, advance_eq_ok, exists_const, zextImm]
  constructor
  · rintro ⟨h1, h2, _, ⟨a, g, ha, hg, hv, hb, hf, rfl⟩, hp, rfl⟩
    exact ⟨h1, h2, hp, a, g, ha, hg, hv, hb, hf, rfl⟩
  · rintro ⟨h1, h2, hp, a, g, ha, hg, hv, hb, hf, rfl⟩
    exact ⟨h1, h2, _, ⟨a, g, ha, hg, hv, hb, hf, rfl⟩, hp, rfl⟩

theorem callDirectEffect_eq_ok (rs : CRNum) (s t : State) :
    callDirectEffect rs s = .ok t ↔
      rs.val < 12 ∧ ∃ e cl code, s.crAt rs = some e ∧ Enterable s e cl code ∧ t = entered s e cl code := by
  simp [callDirectEffect, bind_eq_ok, enter_eq_ok]

theorem callClistEffect_eq_ok (rs : CRNum) (offset : BitVec 4) (s t : State) :
    callClistEffect rs offset s = .ok t ↔
      rs.val < 12 ∧ ∃ e cl code, SlotHolds s (s.crAt rs) offset.toNat true (some e) ∧ Enterable s e cl code ∧
        t = entered s e cl code := by
  simp [callClistEffect, bind_eq_ok, mLoad_eq_ok, enter_eq_ok]

theorem changeEffect_eq_ok (rd rs : CRNum) (idx : BitVec 15) (s t : State) :
    changeEffect rd rs idx s = .ok t ↔
      12 ≤ rd.val ∧ rs.val < 12 ∧ s.HasNextPc ∧
        ∃ v, SlotHolds s (s.crAt rs) idx.toNat true v ∧
          t = if rd = 12 ∨ rd = 13 then { s.setCr rd v with pc := s.pc + 1 } else switched s rd v := by
  by_cases h : rd = 12 ∨ rd = 13
  · simp only [changeEffect, bind_eq_ok, require_eq_ok, decide_eq_true_eq, ordinaryCR_eq_ok, mLoad_eq_ok,
      exists_const, h, if_true, advance_eq_ok, HasNextPc_setCr, setCr_pc, zextImm]
    constructor
    · rintro ⟨h1, h2, v, hv, hp, rfl⟩
      exact ⟨h1, h2, hp, v, hv, rfl⟩
    · rintro ⟨h1, h2, hp, v, hv, rfl⟩
      exact ⟨h1, h2, v, hv, hp, rfl⟩
  · simp only [changeEffect, bind_eq_ok, require_eq_ok, decide_eq_true_eq, ordinaryCR_eq_ok, mLoad_eq_ok,
      exists_const, h, if_false, contextSwitch_eq_ok, zextImm]
    constructor
    · rintro ⟨h1, h2, v, hv, hp, rfl⟩
      exact ⟨h1, h2, hp, v, hv, rfl⟩
    · rintro ⟨h1, h2, hp, v, hv, rfl⟩
      exact ⟨h1, h2, v, hv, hp, rfl⟩

theorem switchEffect_eq_ok (rn rs : CRNum) (s t : State) :
    switchEffect rn rs s = .ok t ↔
      (rn = 13 ∨ rn = 15) ∧ rs.val < 12 ∧ s.HasNextPc ∧
        ∃ g, s.crAt rs = some g ∧ valid s g = true ∧ s.params.sentinelOK.ask s.view (g, switchTgt rn) = true ∧
          t = { s.setCr rn (some g) with pc := s.pc + 1 } := by
  simp only [switchEffect, bind_eq_ok, require_eq_ok, Bool.or_eq_true, beq_iff_eq, ordinaryCR_eq_ok,
    nonNull_eq_ok, check_eq_ok, exists_const, advance_eq_ok, HasNextPc_setCr, setCr_pc]
  constructor
  · rintro ⟨h1, h2, g, hg, hv, hs, hp, rfl⟩
    exact ⟨h1, h2, hp, g, hg, hv, hs, rfl⟩
  · rintro ⟨h1, h2, hp, g, hg, hv, hs, rfl⟩
    exact ⟨h1, h2, g, hg, hv, hs, hp, rfl⟩

/-- TPERM Mode 1 changes context register CRs at most in its B-bit, and no other field but Z (R203, R211). -/
theorem tpermHealth_cases (bmod : Bool) (rd : CRNum) (preset : BitVec 4) (off : Nat) (s : State) :
    (∃ g ok, s.crAt rd = some g ∧
      tpermHealth bmod rd preset off s = (s.setCr rd (some (bModified bmod ok g))).setZ ok) ∨
      tpermHealth bmod rd preset off s = s.setZ false := by
  unfold tpermHealth
  split
  · rename_i g m hg _
    exact .inl ⟨g, _, hg, rfl⟩
  · exact .inr rfl

/-- TPERM Mode 2 changes context register CRd at most in its permissions, to fewer, and its B-bit, and no other
field but Z (R209, R210, R211). -/
theorem tpermRestriction_cases (bmod : Bool) (rd : CRNum) (preset : BitVec 4) (s : State) :
    (∃ g m z, s.crAt rd = some g ∧ presetMask preset = some m ∧
      tpermRestriction bmod rd preset s =
        (s.setCr rd (some (bModified bmod z { g with perms := permsInter g.perms m }))).setZ z) ∨
      tpermRestriction bmod rd preset s = s.setZ false := by
  unfold tpermRestriction
  split
  · rename_i g m hg hm
    exact .inl ⟨g, m, _, hg, hm, rfl⟩
  · exact .inr rfl

theorem tpermCheckEffect_eq_ok (rd : CRNum) (preset : BitVec 4) (offset : BitVec 15) (s t : State) :
    tpermCheckEffect rd preset offset s = .ok t ↔
      s.HasNextPc ∧
        t = { tpermHealth Config.tpermBmod rd preset offset.toNat s with pc := s.pc + 1 } := by
  rw [tpermCheckEffect, advance_eq_ok, zextImm]
  rcases tpermHealth_cases Config.tpermBmod rd preset offset.toNat s with ⟨g, ok, -, h⟩ | h <;> rw [h] <;> rfl

/-- TPERM Mode 2 writes no register on NULL and on a reserved preset (R202, R206). -/
theorem tpermWrites_eq_false (rd : CRNum) (preset : BitVec 4) (s : State) :
    tpermWrites rd preset s = false ↔ s.crAt rd = none ∨ presetMask preset = none := by
  rw [tpermWrites, Bool.and_eq_false_iff, Option.isSome_eq_false_iff, Option.isSome_eq_false_iff,
    Option.isNone_iff_eq_none, Option.isNone_iff_eq_none]

/-- The test of TPERM Mode 2 passes on CR0 to CR11, on NULL, and on a reserved preset (R202, R206, R209). -/
theorem tpermAllowed_iff (rd : CRNum) (preset : BitVec 4) (s : State) :
    (decide (rd.val < 12) || !tpermWrites rd preset s) = true ↔
      rd.val < 12 ∨ s.crAt rd = none ∨ presetMask preset = none := by
  rw [Bool.or_eq_true, decide_eq_true_eq, Bool.not_eq_true', tpermWrites_eq_false]

theorem tpermRestrictEffect_eq_ok (rd : CRNum) (preset : BitVec 4) (s t : State) :
    tpermRestrictEffect rd preset s = .ok t ↔
      (rd.val < 12 ∨ s.crAt rd = none ∨ presetMask preset = none) ∧ s.HasNextPc ∧
        t = { tpermRestriction Config.tpermBmod rd preset s with pc := s.pc + 1 } := by
  simp only [tpermRestrictEffect, bind_eq_ok, require_eq_ok, tpermAllowed_iff, exists_const, advance_eq_ok]
  rcases tpermRestriction_cases Config.tpermBmod rd preset s with ⟨g, m, z, -, -, h⟩ | h <;> rw [h] <;> rfl

theorem lambdaEffect_eq_ok (rd : CRNum) (s t : State) :
    lambdaEffect rd s = .ok t ↔
      rd.val < 12 ∧ ∃ g, s.crAt rd = some g ∧ Applicable s g ∧ t = applied s g := by
  simp [lambdaEffect, bind_eq_ok, applyLambda_eq_ok]

theorem eloadcallEffect_eq_ok (rd rs : CRNum) (slot : BitVec 15) (s t : State) :
    eloadcallEffect rd rs slot s = .ok t ↔
      rd.val < 12 ∧ rs.val < 12 ∧ rd ≠ 6 ∧
        ∃ e cl code, SlotHolds s (s.crAt rs) slot.toNat (rs != 6) (some e) ∧ Enterable s e cl code ∧
          t = entered (s.setCr rd (some e)) e cl code := by
  simp only [eloadcallEffect, bind_eq_ok, loadToken_eq_ok, nonNull_eq_ok, enter_eq_ok]
  constructor
  · rintro ⟨v, ⟨h1, h2, h3, hv⟩, e, rfl, cl, code, he, rfl⟩
    exact ⟨h1, h2, h3, e, cl, code, hv, (enterable_setCr s _ e cl code (ne_fifteen h1)).mp he, rfl⟩
  · rintro ⟨h1, h2, h3, e, cl, code, hv, he, rfl⟩
    exact ⟨_, ⟨h1, h2, h3, hv⟩, e, rfl, cl, code,
      (enterable_setCr s _ e cl code (ne_fifteen h1)).mpr he, rfl⟩

theorem xloadlambdaEffect_eq_ok (rd rs : CRNum) (slot : BitVec 15) (s t : State) :
    xloadlambdaEffect rd rs slot s = .ok t ↔
      rd.val < 12 ∧ rs.val < 12 ∧ rd ≠ 6 ∧
        ∃ g, SlotHolds s (s.crAt rs) slot.toNat (rs != 6) (some g) ∧ Applicable s g ∧
          t = applied (s.setCr rd (some g)) g := by
  simp only [xloadlambdaEffect, bind_eq_ok, loadToken_eq_ok, applyLambda_eq_ok]
  constructor
  · rintro ⟨v, ⟨h1, h2, h3, hv⟩, g, rfl, ha, rfl⟩
    exact ⟨h1, h2, h3, g, hv, (applicable_setCr s _ g (ne_fifteen h1)).mp ha, rfl⟩
  · rintro ⟨h1, h2, h3, g, hv, ha, rfl⟩
    exact ⟨_, ⟨h1, h2, h3, hv⟩, g, rfl, (applicable_setCr s _ g (ne_fifteen h1)).mpr ha, rfl⟩

theorem dreadEffect_eq_ok (rd : DRNum) (rs : CRNum) (offset : BitVec 15) (s t : State) :
    dreadEffect rd rs offset s = .ok t ↔
      rs.val < 12 ∧ s.HasNextPc ∧
        ∃ a, Accessible s (s.crAt rs) .r offset.toNat a ∧
          t = { s.setDr rd (Memory.readWord s.mem a) with pc := s.pc + 1 } := by
  simp only [dreadEffect, bind_eq_ok, ordinaryCR_eq_ok, exists_const, checkAccess_eq_ok, advance_eq_ok,
    HasNextPc_setDr, setDr_pc, zextImm]
  constructor
  · rintro ⟨h, a, ha, hp, rfl⟩
    exact ⟨h, hp, a, ha, rfl⟩
  · rintro ⟨h, hp, a, ha, rfl⟩
    exact ⟨h, a, ha, hp, rfl⟩

theorem dwriteEffect_eq_ok (rd : CRNum) (rs : DRNum) (offset : BitVec 15) (s t : State) :
    dwriteEffect rd rs offset s = .ok t ↔
      rd.val < 12 ∧ s.HasNextPc ∧
        ∃ a, Accessible s (s.crAt rd) .w offset.toNat a ∧
          t = { s with mem := Memory.writeWord s.mem a (s.drAt rs), pc := s.pc + 1 } := by
  simp only [dwriteEffect, bind_eq_ok, ordinaryCR_eq_ok, exists_const, checkAccess_eq_ok, advance_eq_ok,
    zextImm]
  constructor
  · rintro ⟨h, a, ha, hp, rfl⟩
    exact ⟨h, hp, a, ha, rfl⟩
  · rintro ⟨h, hp, a, ha, rfl⟩
    exact ⟨h, a, ha, hp, rfl⟩

@[simp] theorem bitfieldInRange_eq_ok (width : BitVec 6) (lsb : BitVec 5) (u : Unit) :
    bitfieldInRange width lsb = .ok u ↔ 1 ≤ width.toNat ∧ width.toNat + lsb.toNat ≤ 32 := by
  simp [bitfieldInRange]

theorem bfextEffect_eq_ok (rd rs : DRNum) (width : BitVec 6) (lsb : BitVec 5) (s t : State) :
    bfextEffect rd rs width lsb s = .ok t ↔
      (1 ≤ width.toNat ∧ width.toNat + lsb.toNat ≤ 32) ∧ s.HasNextPc ∧
        t = { s.setDr rd (bitfieldExtract (s.drAt rs) width.toNat lsb.toNat) with pc := s.pc + 1 } := by
  simp only [bfextEffect, bind_eq_ok, bitfieldInRange_eq_ok, exists_const, advance_eq_ok, HasNextPc_setDr,
    setDr_pc]

theorem bfinsEffect_eq_ok (rd rs : DRNum) (width : BitVec 6) (lsb : BitVec 5) (s t : State) :
    bfinsEffect rd rs width lsb s = .ok t ↔
      (1 ≤ width.toNat ∧ width.toNat + lsb.toNat ≤ 32) ∧ s.HasNextPc ∧
        t = { s.setDr rd (bitfieldInsert (s.drAt rd) (s.drAt rs) width.toNat lsb.toNat) with
              pc := s.pc + 1 } := by
  simp only [bfinsEffect, bind_eq_ok, bitfieldInRange_eq_ok, exists_const, advance_eq_ok, HasNextPc_setDr,
    setDr_pc]

theorem mcmpEffect_eq_ok (rd rs : DRNum) (s t : State) :
    mcmpEffect rd rs s = .ok t ↔
      s.HasNextPc ∧ t = { s with flags := (subFlags (s.drAt rd) (s.drAt rs)).2, pc := s.pc + 1 } :=
  advance_eq_ok _ t

theorem iaddEffect_eq_ok (rd rs : DRNum) (imm : BitVec 15) (s t : State) :
    iaddEffect rd rs imm s = .ok t ↔
      s.HasNextPc ∧ t = { setResult s rd (addFlags (s.drAt rs) (arithImm imm)) with pc := s.pc + 1 } :=
  advance_eq_ok _ t

theorem isubEffect_eq_ok (rd rs : DRNum) (imm : BitVec 15) (s t : State) :
    isubEffect rd rs imm s = .ok t ↔
      s.HasNextPc ∧ t = { setResult s rd (subFlags (s.drAt rs) (arithImm imm)) with pc := s.pc + 1 } :=
  advance_eq_ok _ t

theorem branchEffect_eq_ok (offset : BitVec 15) (s t : State) :
    branchEffect offset s = .ok t ↔
      0 ≤ branchTarget s.pc offset ∧ branchTarget s.pc offset < 2 ^ s.params.pcWidth.val ∧
        t = { s with pc := (branchTarget s.pc offset).toNat } :=
  jump_eq_ok s t _

theorem shlEffect_eq_ok (rd rs : DRNum) (amount : BitVec 15) (s t : State) :
    shlEffect rd rs amount s = .ok t ↔
      s.HasNextPc ∧
        t = { s.setDr rd ((shiftAmount amount).elim 0 fun k => s.drAt rs <<< k) with pc := s.pc + 1 } :=
  advance_eq_ok _ t

theorem shrEffect_eq_ok (rd rs : DRNum) (amount : BitVec 15) (s t : State) :
    shrEffect rd rs amount s = .ok t ↔
      s.HasNextPc ∧
        t = { s.setDr rd ((shiftAmount amount).elim 0 fun k => s.drAt rs >>> k) with pc := s.pc + 1 } :=
  advance_eq_ok _ t

/-- The context registers after Enter (R160). -/
theorem entered_crAt (s : State) (e cl code : Gt) (j : CRNum) :
    (entered s e cl code).crAt j =
      if j = 14 then withPerms code permsX else if j = 6 then withPerms cl permsL else s.crAt j := by
  show (setDomain (pushFrame s (s.pc + 1)) cl code).crAt j = _
  split
  · rename_i h
    subst h
    exact setDomain_crAt_fourteen ..
  · split
    · rename_i h6
      subst h6
      exact setDomain_crAt_six ..
    · rename_i h h6
      exact setDomain_crAt_ne _ _ _ h6 h

/-- The context registers after a lambda target is applied (R221). -/
theorem applied_crAt (s : State) (g : Gt) (j : CRNum) :
    (applied s g).crAt j = if j = 14 then withPerms g permsX else s.crAt j := by
  show ((pushFrame s (s.pc + 1)).setCr 14 _).crAt j = _
  rw [setCr_crAt, pushFrame_crAt]

/-- The context registers after a RETURN (R168). -/
theorem returned_crAt (s : State) (f : Frame) (frames : List Frame) (g5 : CRVal) (rest : List CRVal)
    (e cl code : Gt) (mask : BitVec 12) (j : CRNum) :
    (applyMask (returned s f frames g5 rest e cl code) mask).crAt j =
      if j ∈ maskableCRs ∧ mask.getLsbD j.val = true then none
      else if j = 5 then g5
      else if j = 14 then withPerms code permsX
      else if j = 6 then withPerms cl permsL else s.crAt j := by
  rw [applyMask_crAt]
  congr 1
  show ((setDomain s cl code).setCr 5 g5).crAt j = _
  rw [setCr_crAt]
  congr 1
  split
  · rename_i h
    subst h
    exact setDomain_crAt_fourteen ..
  · split
    · rename_i h6
      subst h6
      exact setDomain_crAt_six ..
    · rename_i h h6
      exact setDomain_crAt_ne _ _ _ h6 h

/-- What an instruction does when its condition passes. -/
def effectOf : Instr → State → Res State
  | .load _ rd rs slot => loadEffect rd rs slot
  | .save _ rd rs slot => saveEffect rd rs slot
  | .callDirect _ rs => callDirectEffect rs
  | .callClist _ rs offset => callClistEffect rs offset
  | .ret _ mask => retEffect mask
  | .change _ rd rs idx => changeEffect rd rs idx
  | .switch _ rn rs => switchEffect rn rs
  | .tpermRestrict _ rd preset => tpermRestrictEffect rd preset
  | .tpermCheck _ rd preset offset => tpermCheckEffect rd preset offset
  | .lambda _ rd => lambdaEffect rd
  | .eloadcall _ rd rs slot => eloadcallEffect rd rs slot
  | .xloadlambda _ rd rs slot => xloadlambdaEffect rd rs slot
  | .dread _ rd rs offset => dreadEffect rd rs offset
  | .dwrite _ rd rs offset => dwriteEffect rd rs offset
  | .bfext _ rd rs width lsb => bfextEffect rd rs width lsb
  | .bfins _ rd rs width lsb => bfinsEffect rd rs width lsb
  | .mcmp _ rd rs => mcmpEffect rd rs
  | .iadd _ rd rs imm => iaddEffect rd rs imm
  | .isub _ rd rs imm => isubEffect rd rs imm
  | .branch _ offset => branchEffect offset
  | .shl _ rd rs amount => shlEffect rd rs amount
  | .shr _ rd rs amount => shrEffect rd rs amount

/-- `exec` runs the instruction's effect under its condition, for every instruction (R131). -/
theorem exec_eq_underCond (i : Instr) (s : State) : exec i s = underCond i.cond s (effectOf i) := by
  cases i <;> rfl

/-- `exec` answers exactly by the instruction's effect, or by skipping it (R131). -/
theorem exec_eq_next (i : Instr) (s t : State) :
    exec i s = .next t ↔
      (condPass i.cond s.flags = true ∧ effectOf i s = .ok t) ∨
        (condPass i.cond s.flags = false ∧ s.HasNextPc ∧ t = { s with pc := s.pc + 1 }) := by
  rw [exec_eq_underCond, underCond_eq_next, advance_eq_ok]

end Sys2Proof.Machine
end

