-- ==== Sys2Proof/Laws/PerInstr.lean ====
section
/-! SUPPORT. Families of lemmas with one member per constructor of Instr. -/

/-- The condition of an instruction stands in bits 26:23 of its word, in every format (R91, R99). -/
def Sys2Proof.Laws.CondInPlace.Statement (i : Sys2Proof.Instr) : Prop :=
  Sys2Proof.condOf (Sys2Proof.encode i) = i.cond

namespace Sys2Proof.Laws.CondInPlace

theorem load (c : Cond) (rd rs : CRNum) (slot : BitVec 15) : Statement (.load c rd rs slot) :=
  condOf_mkWord ..
theorem save (c : Cond) (rd rs : CRNum) (slot : BitVec 15) : Statement (.save c rd rs slot) :=
  condOf_mkWord ..
theorem callDirect (c : Cond) (rs : CRNum) : Statement (.callDirect c rs) := condOf_mkWord ..
theorem callClist (c : Cond) (rs : CRNum) (offset : BitVec 4) : Statement (.callClist c rs offset) :=
  condOf_mkWord ..
theorem ret (c : Cond) (mask : BitVec 12) : Statement (.ret c mask) := condOf_returnWord ..
theorem change (c : Cond) (rd rs : CRNum) (idx : BitVec 15) : Statement (.change c rd rs idx) :=
  condOf_mkWord ..
theorem switch (c : Cond) (rn rs : CRNum) : Statement (.switch c rn rs) := condOf_mkWord ..
theorem tpermRestrict (c : Cond) (rd : CRNum) (preset : BitVec 4) :
    Statement (.tpermRestrict c rd preset) := condOf_mkWord ..
theorem tpermCheck (c : Cond) (rd : CRNum) (preset : BitVec 4) (offset : BitVec 15) :
    Statement (.tpermCheck c rd preset offset) := condOf_mkWord ..
theorem lambda (c : Cond) (rd : CRNum) : Statement (.lambda c rd) := condOf_mkWord ..
theorem eloadcall (c : Cond) (rd rs : CRNum) (slot : BitVec 15) : Statement (.eloadcall c rd rs slot) :=
  condOf_mkWord ..
theorem xloadlambda (c : Cond) (rd rs : CRNum) (slot : BitVec 15) :
    Statement (.xloadlambda c rd rs slot) := condOf_mkWord ..
theorem dread (c : Cond) (rd : DRNum) (rs : CRNum) (offset : BitVec 15) :
    Statement (.dread c rd rs offset) := condOf_mkWord ..
theorem dwrite (c : Cond) (rd : CRNum) (rs : DRNum) (offset : BitVec 15) :
    Statement (.dwrite c rd rs offset) := condOf_mkWord ..
theorem bfext (c : Cond) (rd rs : DRNum) (width : BitVec 6) (lsb : BitVec 5) :
    Statement (.bfext c rd rs width lsb) := condOf_mkWord ..
theorem bfins (c : Cond) (rd rs : DRNum) (width : BitVec 6) (lsb : BitVec 5) :
    Statement (.bfins c rd rs width lsb) := condOf_mkWord ..
theorem mcmp (c : Cond) (rd rs : DRNum) : Statement (.mcmp c rd rs) := condOf_mkWord ..
theorem iadd (c : Cond) (rd rs : DRNum) (imm : BitVec 15) : Statement (.iadd c rd rs imm) :=
  condOf_mkWord ..
theorem isub (c : Cond) (rd rs : DRNum) (imm : BitVec 15) : Statement (.isub c rd rs imm) :=
  condOf_mkWord ..
theorem branch (c : Cond) (offset : BitVec 15) : Statement (.branch c offset) := condOf_mkWord ..
theorem shl (c : Cond) (rd rs : DRNum) (amount : BitVec 15) : Statement (.shl c rd rs amount) :=
  condOf_mkWord ..
theorem shr (c : Cond) (rd rs : DRNum) (amount : BitVec 15) : Statement (.shr c rd rs amount) :=
  condOf_mkWord ..

end Sys2Proof.Laws.CondInPlace
end

