-- ==== Sys2Proof/Laws/Regions.lean ====
section
/-! SUPPORT. Regions, and what the launch premises say of a GT in a register, of a fetch and of an entry. -/

namespace Sys2Proof.Machine

/-- Two regions are apart exactly when no address is in both. -/
theorem Region.apart_iff (r q : Region) : r.Apart q ↔ ∀ a, r.Has a → ¬ q.Has a := by
  simp only [Region.Apart, Region.Has]
  constructor
  · intro h a
    omega
  · intro h
    have := h (max r.base q.base)
    omega

/-- A GT in a context register is among those the state holds. -/
theorem crAt_mem_tokensHeld {s : State} {i : CRNum} {g : Gt} (h : s.crAt i = some g) : g ∈ s.tokensHeld := by
  refine List.mem_append_left _ (List.mem_filterMap.mpr ⟨some g, ?_, rfl⟩)
  simp only [State.valuesHeld, List.mem_append, or_assoc]
  exact .inl (by rw [← h]; simp [State.crAt])

/-- Under the launch premise a word that a register's W opens is in no protected region. -/
theorem LaunchPremise_writable {s : State} {lumpRegions : List Region} (h : s.LaunchPremise lumpRegions)
    {i : CRNum} {off a : Nat} (ha : Accessible s (s.crAt i) .w off a) :
    ∀ r ∈ s.protectedRegions lumpRegions, ¬ r.Has a := by
  obtain ⟨g, hg, -, hw, hb, rfl⟩ := ha
  have hw : g.perms.w = true := hw
  intro r hr
  exact (Region.apart_iff ..).mp (h g (crAt_mem_tokensHeld hg) (by rw [hw, Bool.or_true]) r hr) _
    ⟨Nat.le_add_right .., hb⟩

/-- Where stores are kept apart from some regions, a word that a register's W or S opens is in none of them. -/
theorem StoresApartFrom_storable {s : State} {regions : List Region} (h : s.StoresApartFrom regions)
    {i : CRNum} {p : Perm} (hp : p = .w ∨ p = .s) {off a : Nat} (ha : Accessible s (s.crAt i) p off a) :
    ∀ r ∈ regions, ¬ r.Has a := by
  obtain ⟨g, hg, -, hw, hb, rfl⟩ := ha
  have hw : (g.perms.w || g.perms.s) = true := by
    rcases hp with rfl | rfl
    · exact (congrArg (· || g.perms.s) (hw : g.perms.w = true)).trans (Bool.true_or _)
    · exact (congrArg (g.perms.w || ·) (hw : g.perms.s = true)).trans (Bool.or_true _)
  intro r hr
  exact (Region.apart_iff ..).mp (h g (crAt_mem_tokensHeld hg) hw r hr) _ ⟨Nat.le_add_right .., hb⟩

/-- The first fetch of a well-formed start succeeds (R342 item 2). -/
theorem fetch_of_fetchReady {s : State} (h : s.FetchReady) : ∃ w, fetch s = .ok w := by
  obtain ⟨a, ha⟩ := h
  exact ⟨_, (fetch_eq_ok s _).mpr ⟨a, ha, rfl⟩⟩

/-- A run launched from reset fetches its first word if the code object has one, for `pc = 0` (R42, R70). -/
theorem fetchReady_of_resetPremise {s : State} {calls : Prop} (h : s.ResetPremise calls)
    (hb : ∀ g, s.crAt 14 = some g → g.base ≤ g.limit) : s.FetchReady := by
  obtain ⟨g, hg, hx, hv⟩ := h.code
  refine ⟨g.base + s.pc, g, hg, hv, by rw [hx]; rfl, ?_, rfl⟩
  rw [h.start]
  exact hb g hg

/-- The outermost RETURN of a run launched from reset is the Reboot outcome (R42, R308). -/
theorem return_of_resetPremise {s : State} {calls : Prop} (h : s.ResetPremise calls) {c : Cond}
    {mask : BitVec 12} (hc : condPass c s.flags = true) (hm : mask.getLsbD 6 = false) :
    exec (.ret c mask) s = .fault .reboot :=
  underCond_stop_fault hc (by rw [retEffect, h.frames, hm]; rfl)

/-- Item 5 of R342 gives item 3. -/
theorem holdsClist_of_runsAbstraction {s : State} (h : s.RunsAbstraction) : s.HoldsClist := by
  obtain ⟨e, cl, code, clist, run, he, -, hn, h6, hcl, -⟩ := h
  refine ⟨clist, h6, fun e' cl' code' he' hn' => ?_⟩
  cases he.symm.trans he'
  cases hn.symm.trans hn'
  exact hcl

/-- An entry leaves the state running the abstraction entered (R160, R342 item 5). -/
theorem entered_runsAbstraction {s : State} {e cl code : Gt} (h : Enterable s e cl code) :
    (entered s e cl code).RunsAbstraction := by
  have hv : (entered s e cl code).view = s.view := congrArg (View.mk · s.mem) (by simp [entered_crAt])
  refine ⟨e, cl, code, { cl with perms := permsL }, { code with perms := permsX }, rfl, h.2.1,
    by rw [hv]; exact h.2.2.2.2, ?_, rfl, ?_, rfl⟩ <;> simp [entered_crAt, withPerms]

end Sys2Proof.Machine
end

