-- ==== Sys2Proof/Tests/Slice0.lean ====
section
/-! SUPPORT. Tests of the model against the spec's worked examples and vectors (file 95_test_vectors.md, named
V<file>.<n>), and for every obligation with hypotheses a witness that meets them together. -/

namespace Sys2Proof.Tests

open Sys2Proof Sys2Proof.Machine

/-! ### Well-formedness -/

theorem test_wf_callClist_fifteen : (Instr.callClist .al 6 15).wf = false := by decide
theorem test_wf_callClist_fourteen : (Instr.callClist .al 6 14).wf = true := by decide
theorem test_wf_return_bit_six : (Instr.ret .al 0x040).wf = false := by decide
theorem test_wf_return_all_but_six : (Instr.ret .al 0xFBF).wf = true := by decide
theorem test_wf_tpermCheck_sentinel : (Instr.tpermCheck .al 5 2 0x7FFF).wf = false := by decide
theorem test_wf_tpermCheck_largest : (Instr.tpermCheck .al 5 2 0x7FFE).wf = true := by decide

/-! ### Decoding: words written out from the spec's encodings -/

/-- LOAD CR0, CR6, #4 (R145): 00000 1110 0000 0110, slot 4. -/
theorem test_decode_load :
    decode (0b00000#5 ++ 0b1110#4 ++ 0b0000#4 ++ 0b0110#4 ++ 0b000000000000100#15) = .ok (.load .al 0 6 4) := by
  decide
/-- SAVE CR1, CR2, #7 (R150). -/
theorem test_decode_save : decode 0x0F090007 = .ok (.save .al 1 2 7) := by decide
/-- CALL CR0, 0xF (V2.1): the dst field is 15. -/
theorem test_decode_callDirect :
    decode (0b00010#5 ++ 0b1110#4 ++ 0b1111#4 ++ 0b0000#4 ++ 0#15) = .ok (.callDirect .al 0) := by decide
/-- CALL CR6, 3 (V2.2). -/
theorem test_decode_callClist : decode 0x171B0000 = .ok (.callClist .al 6 3) := by decide
/-- RETURN 0x002 (R171). -/
theorem test_decode_return : decode 0x1F000002 = .ok (.ret .al 2) := by decide
/-- CHANGE CR12, CR6, 2 (V3.2). -/
theorem test_decode_change : decode 0x27630002 = .ok (.change .al 12 6 2) := by decide
/-- SWITCH CR13, CR2 (V3.10). -/
theorem test_decode_switch :
    decode (0b00101#5 ++ 0b1110#4 ++ 0b1101#4 ++ 0b0010#4 ++ 0#15) = .ok (.switch .al 13 2) := by decide
/-- TPERM CR5, RW, 8 (V5.1). -/
theorem test_decode_tpermCheck : decode 0x37290008 = .ok (.tpermCheck .al 5 2 8) := by decide
/-- TPERM CR5, R (V5.11): imm15 all ones. -/
theorem test_decode_tpermRestrict :
    decode (0b00110#5 ++ 0b1110#4 ++ 0b0101#4 ++ 0b0001#4 ++ 0b111111111111111#15) =
      .ok (.tpermRestrict .al 5 1) := by decide
/-- LAMBDA CR3 (V6.1). -/
theorem test_decode_lambda : decode 0x3F180000 = .ok (.lambda .al 3) := by decide
/-- ELOADCALL CR0, CR6, #4 (V6.8). -/
theorem test_decode_eloadcall : decode 0x47030004 = .ok (.eloadcall .al 0 6 4) := by decide
/-- XLOADLAMBDA CR1, CR6, #5 (V6.11). -/
theorem test_decode_xloadlambda : decode 0x4F0B0005 = .ok (.xloadlambda .al 1 6 5) := by decide
/-- DREAD DR1, CR5, #8 (V7.1). -/
theorem test_decode_dread : decode 0x570A8008 = .ok (.dread .al 1 5 8) := by decide
/-- DWRITE CR5, DR2, #8 (V7.9). -/
theorem test_decode_dwrite : decode 0x5F290008 = .ok (.dwrite .al 5 2 8) := by decide
/-- BFEXT DR2, DR1, #8, #4 (V8.1): width in imm15[10:5], lsb in imm15[4:0]. -/
theorem test_decode_bfext :
    decode (0b01100#5 ++ 0b1110#4 ++ 0b0010#4 ++ 0b0001#4 ++ 0b0000#4 ++ 0b001000#6 ++ 0b00100#5) =
      .ok (.bfext .al 2 1 8 4) := by decide
/-- BFINS DR3, DR2, #8, #16 (V8.9). -/
theorem test_decode_bfins : decode 0x6F190110 = .ok (.bfins .al 3 2 8 16) := by decide
/-- MCMP DR1, DR2 (V9.1). -/
theorem test_decode_mcmp : decode 0x77090000 = .ok (.mcmp .al 1 2) := by decide
/-- IADD DR1, DR1, #1 (V9.8). -/
theorem test_decode_iadd : decode 0x7F088001 = .ok (.iadd .al 1 1 1) := by decide
/-- ISUB DR1, DR1, #1: opcode 10000. -/
theorem test_decode_isub : decode 0x87088001 = .ok (.isub .al 1 1 1) := by decide
/-- BRANCHNE #-1 (R282): offset 0x7FFF, condition 0001. -/
theorem test_decode_branch :
    decode (0b10001#5 ++ 0b0001#4 ++ 0#4 ++ 0#4 ++ 0b111111111111111#15) = .ok (.branch .ne 0x7FFF) := by decide
/-- SHL DR2, DR1, #4 (R286). -/
theorem test_decode_shl : decode 0x97108004 = .ok (.shl .al 2 1 4) := by decide
/-- SHR DR2, DR1, #4 (R289). -/
theorem test_decode_shr : decode 0x9F108004 = .ok (.shr .al 2 1 4) := by decide

/-- Opcodes 20 and 31 (V0.3, V0.8). -/
theorem test_decode_undefined :
    decode 0xA7000000 = .error .undefinedOpcode ∧ decode 0xFFFFFFFF = .error .undefinedOpcode := by decide
/-- RETURN with bit 6, bit 12 or the dst field set (V2.14 to V2.16). -/
theorem test_decode_return_reserved :
    decode 0x1F000040 = .error .returnReserved ∧ decode 0x1F001000 = .error .returnReserved ∧
      decode 0x1F080000 = .error .returnReserved := by decide
/-- Non-zero unused fields (V2.7, V3.14, V6.5, V8.8, V9.7). -/
theorem test_decode_unused :
    decode 0x17780001 = .error .unusedField ∧ decode 0x2F690001 = .error .unusedField ∧
      decode 0x3F188000 = .error .unusedField ∧ decode 0x67108904 = .error .unusedField ∧
      decode 0x77090001 = .error .unusedField := by decide

/-! ### A small state -/

/-- A GT with given permissions and bounds, its B-bit set. -/
def token (perms : Perms) (base limit : Nat) (word0 : Word) : Gt :=
  { perms := perms, b := true, g := false, version := 0, mac := 0, base := base, limit := limit, kind := 0,
    stackInd := 0, word0 := word0 }

/-- The callee's E-GT `B`, the caller's `A`, and the c-list, code and data objects of the vectors' worlds. -/
def entryB : Gt := token { e := true } 0x500 0x5FF 0xB
def entryA : Gt := token { e := true } 0x600 0x6FF 0xA
def clistB : Gt := token { l := true, s := true } 0x510 0x51F 0xC
def codeB : Gt := token { x := true, r := true } 0x520 0x52F 0xD
def codeF : Gt := token { x := true } 0x400 0x40F 0xF
def dataD : Gt := token { r := true, w := true } 0x300 0x30F 0xDD
def readD : Gt := token { r := true } 0x300 0x30F 0xDE
def listS : Gt := token { l := true, s := true } 0x200 0x20F 0xE
def listL : Gt := token { l := true } 0x100 0x10F 0x1
def codeA : Gt := token { x := true } 0 15 0x2

/-- A state with a GT of every kind in a register and in the c-list of CR6. -/
def demo : State :=
  { State.reset with
    dr := #v[0, 5, 7, 0xAAAAAAAA, 0x12345678, 0, 0, 0, 0, 0, 0, 0, 0, 0, 0, 0xFFFFFFFF]
    cr := #v[some entryB, some listS, some readD, some codeF, none, some dataD, some listL, none, none, none,
      none, none, none, none, some codeA, none]
    pc := 10
    curEgt := some entryA
    mem := [(0x102, .token readD), (0x103, .token entryB), (0x104, .token entryB), (0x105, .token codeF),
      (0x10F, .token readD), (0x308, .data 0x2A)]
    params := { Params.reset with
      nsSplit := Table.const (some (clistB, codeB))
      sentinelOK := Table.const true } }

/-- The step at a word placed where it is fetched answers a state with a property. -/
def runs (s : State) (w : Nat) (p : State → Bool) : Bool :=
  match step (s.withFetchWord 32 w) with
  | .next t => p t
  | .fault _ => false
  | .refused _ => false

/-- The step at a word placed where it is fetched ends with a fault. -/
def faults (s : State) (w : Nat) (f : Fault) : Bool :=
  match step (s.withFetchWord 32 w) with
  | .next _ => false
  | .fault f' => f' == f
  | .refused _ => false

/-- The step at a word placed where it is fetched is refused. -/
def refuses (s : State) (w : Nat) (r : Refusal) : Bool :=
  match step (s.withFetchWord 32 w) with
  | .next _ => false
  | .fault _ => false
  | .refused r' => r' == r

/-! ### One step of each instruction -/

/-- V1.1, V1.6: the slot's GT, and NULL of an empty slot. -/
theorem test_load :
    runs demo 0x07030004 (fun t => t.crAt 0 == some entryB && t.pc == 11) &&
      runs demo 0x07030006 (fun t => t.crAt 0 == none) := by decide
/-- V1.7, V1.8: a privileged source, and CR6 as destination. -/
theorem test_load_stops :
    faults demo 0x07060000 .privReg && refuses demo 0x07330000 .cr6Destination := by decide
/-- V1.10: word 0x207 holds CR2's GT. -/
theorem test_save : runs demo 0x0F090007 (fun t => Memory.readCell t.mem 0x207 == .token readD) := by decide
/-- V1.14, V1.15: out of bounds, and a c-list without S. -/
theorem test_save_faults : faults demo 0x0F090010 .fault && faults demo 0x0F300001 .fault := by decide
/-- V2.1. -/
theorem test_callDirect :
    runs demo 0x17780000 (fun t =>
      t.callStack == [{ egt := .token entryA, nia := 11, mi := 0 }] && t.cr5Stack == [some dataD] &&
      t.curEgt == some entryB && t.crAt 6 == some { clistB with perms := { l := true } } &&
      t.crAt 14 == some { codeB with perms := { x := true } } && t.pc == 0) := by decide
/-- V2.5: CR6 has no E. -/
theorem test_callDirect_faults : faults demo 0x177B0000 .fault := by decide
/-- V2.2: the E-GT is written to no register. -/
theorem test_callClist :
    runs demo 0x171B0000 (fun t => t.curEgt == some entryB && t.crAt 0 == some entryB && t.pc == 0) := by decide
/-- V2.9: an empty slot. -/
theorem test_callClist_faults : faults demo 0x17330000 .fault := by decide

/-- `demo` inside one entry made from `A` at pc 10. -/
def inCallee : State :=
  { demo with callStack := [{ egt := .token entryA, nia := 11, mi := 3 }], cr5Stack := [some readD] }

/-- V2.12: CR5 is NULL, for the mask comes after its restore; CR1 is kept. -/
theorem test_return :
    runs inCallee 0x1F000020 (fun t => t.crAt 5 == none && t.crAt 1 == some listS && t.pc == 11 &&
      t.mi == 3 && t.curEgt == some entryA && t.callStack == [] && t.cr5Stack == [] &&
      t.crAt 6 == some { clistB with perms := { l := true } }) := by decide
/-- V2.10, V2.14: Reboot, and INVALID_OP. -/
theorem test_return_stops : faults demo 0x1F000000 .reboot && faults demo 0x1F000040 .invalidOp := by decide
/-- V3.2. -/
theorem test_change : runs demo 0x27630002 (fun t => t.crAt 12 == some readD && t.pc == 11) := by decide
/-- R184: the running thread's pc and registers go to its lump, and CR14 gets the GT. -/
theorem test_change_context :
    runs demo 0x27730005 (fun t => t.crAt 14 == some codeF && t.curLump == 1 && t.pc == 0 &&
      (assocFind 0 t.lumps).any fun l => l.pc == 11 && l.dr == demo.dr && l.activated) := by decide
/-- V3.10, V3.12. -/
theorem test_switch :
    runs demo 0x2F690000 (fun t => t.crAt 13 == some readD) &&
      runs demo 0x2F790000 (fun t => t.crAt 15 == some readD) := by decide
/-- V3.8, V3.9. -/
theorem test_switch_faults : faults demo 0x2F610000 .invalidOp && faults demo 0x2F290000 .invalidOp := by decide
/-- V5.1, V5.7, V5.9, V5.10: in bounds, out of bounds, and the preset CLEAR. -/
theorem test_tpermCheck :
    runs demo 0x37290008 (fun t => t.flags.z) && runs demo 0x37297FFE (fun t => !t.flags.z) &&
      runs demo 0x37280000 (fun t => t.flags.z) && runs demo 0x37280010 (fun t => !t.flags.z) := by decide
/-- V5.17: NULL in a privileged register. -/
theorem test_tpermCheck_null : runs demo 0x37688000 (fun t => !t.flags.z) := by decide
/-- V5.11, V5.12. -/
theorem test_tpermRestrict :
    runs demo 0x3728FFFF (fun t => t.crAt 5 == some { dataD with perms := { r := true } } && t.flags.z) &&
      runs demo 0x372B7FFF (fun t => t.crAt 5 == some { dataD with perms := {} } && !t.flags.z) := by decide
/-- V5.14: a reserved preset, here on CR14 too (R206). And NULL in CR13 (R202). -/
theorem test_tpermRestrict_ignored :
    runs demo 0x372E7FFF (fun t => t.crAt 5 == some dataD && !t.flags.z) &&
      runs demo 0x37767FFF (fun t => t.crAt 14 == some codeA && !t.flags.z) &&
      runs demo 0x3768FFFF (fun t => t.crAt 13 == none && !t.flags.z && t.pc == 11) := by decide
/-- V5.18: a GT in CR13. -/
theorem test_tpermRestrict_stops :
    refuses { demo with cr := demo.cr.set 13 (some readD) } 0x3768FFFF .privilegedDestination := by decide
/-- V6.1. -/
theorem test_lambda :
    runs demo 0x3F180000 (fun t => t.callStack == [{ egt := .token entryA, nia := 11, mi := 0 }] &&
      t.crAt 14 == some codeF && t.curEgt == some entryA && t.crAt 6 == some listL && t.pc == 0) := by decide
/-- V6.4. -/
theorem test_lambda_faults : faults demo 0x3F700000 .privReg := by decide
/-- V6.8; R226: into CR5, the loaded GT is what is pushed. -/
theorem test_eloadcall :
    runs demo 0x47030004 (fun t => t.crAt 0 == some entryB && t.curEgt == some entryB && t.pc == 0) &&
      runs demo 0x472B0004 (fun t => t.cr5Stack == [some entryB]) := by decide
/-- V6.9: no E. -/
theorem test_eloadcall_faults : faults demo 0x47030005 .fault := by decide
/-- V6.11. -/
theorem test_xloadlambda :
    runs demo 0x4F0B0005 (fun t => t.crAt 1 == some codeF && t.crAt 14 == some codeF &&
      t.cr5Stack == [some dataD] && t.pc == 0) := by decide
/-- V6.12: an E-GT has no X. -/
theorem test_xloadlambda_faults : faults demo 0x4F0B0004 .fault := by decide
/-- V7.1. -/
theorem test_dread : runs demo 0x570A8008 (fun t => t.drAt 1 == 0x2A && t.pc == 11) := by decide
/-- V7.4: one word beyond the limit. -/
theorem test_dread_faults : faults demo 0x570A8010 .fault := by decide
/-- V7.9. -/
theorem test_dwrite : runs demo 0x5F290008 (fun t => Memory.readWord t.mem 0x308 == 7) := by decide
/-- V7.12. -/
theorem test_dwrite_faults : faults demo 0x5F600000 .privReg := by decide
/-- V8.1, from DR4 = 0x12345678. -/
theorem test_bfext : runs demo 0x67120104 (fun t => t.drAt 2 == 0x67) := by decide
/-- V8.6, V8.7. -/
theorem test_bfext_stops :
    refuses demo 0x6710811C .bitfieldRange && refuses demo 0x67108420 .bitfieldRange := by decide
/-- V8.9, with DR2 = 7. -/
theorem test_bfins : runs demo 0x6F190110 (fun t => t.drAt 3 == 0xAA07AAAA) := by decide
/-- V9.1: 5 against 7 gives 1000; V9.2: a register against itself gives 0110. -/
theorem test_mcmp :
    runs demo 0x77090000 (fun t => t.flags == { n := true, z := false, c := false, v := false }) &&
      runs demo 0x77088000 (fun t => t.flags == { n := false, z := true, c := true, v := false }) := by decide
/-- V9.8; and 0xFFFFFFFF + 1 wraps to 0 with a carry. -/
theorem test_iadd :
    runs demo 0x7F088001 (fun t => t.drAt 1 == 6 && !t.flags.z && !t.flags.c) &&
      runs demo 0x7F0F8001 (fun t => t.drAt 1 == 0 && t.flags.z && t.flags.c && !t.flags.v) := by decide
/-- 5 - 7 borrows. -/
theorem test_isub : runs demo 0x87088007 (fun t => t.drAt 1 == 0xFFFFFFFE && t.flags.n && !t.flags.c) := by decide
/-- R282: offset -1 goes one back when Z = 0; offset -11 from pc 10 is out of range. -/
theorem test_branch : runs demo 0x88807FFF (fun t => t.pc == 9) && faults demo 0x8F007FF5 .fault := by decide
/-- R286, from DR4 = 0x12345678. -/
theorem test_shl : runs demo 0x97120004 (fun t => t.drAt 2 == 0x23456780) := by decide
/-- R289; and zeros enter at bit 31 (from DR15, by 31). -/
theorem test_shr :
    runs demo 0x9F120004 (fun t => t.drAt 2 == 0x01234567) && runs demo 0x9F17801F (fun t => t.drAt 2 == 1) := by
  decide
/-- V0.3, V0.5, V0.7, V2.18: INVALID_OP when the condition passes, skipped when it fails. -/
theorem test_conditions :
    faults demo 0xA7000000 .invalidOp && runs demo 0xA0000000 (fun t => t.pc == 11) &&
      runs demo 0xA7800000 (fun t => t.pc == 11) && runs demo 0x18000000 (fun t => t.pc == 11) := by decide
/-- V0.11: the reset state, whose CR14 is NULL, faults at its fetch (log 6). -/
theorem test_reset_fetch : step State.reset = .fault .fault := rfl

/-! ### Witnesses: each meets every hypothesis of the obligation it is named for -/

/-- `demo` with `pc + 1` the last offset of the pc range. -/
def demoLast : State := { demo with pc := 2 ^ 31 - 2 }

/-- `demo` with pc the last offset of the pc range. -/
def demoEnd : State := { demo with pc := 2 ^ 31 - 1 }

/-- What a lookup in the c-list of CR6 gives, from the operation itself. -/
theorem slotHolds_demo (slot : Nat) (needL : Bool) (v : CRVal) (h : mLoad demo (demo.crAt 6) slot needL = .ok v) :
    SlotHolds demo (demo.crAt 6) slot needL v := (mLoad_eq_ok ..).mp h

theorem not_slotHolds_none (s : State) (slot : Nat) (needL : Bool) (v : CRVal) :
    ¬ SlotHolds s none slot needL v := by
  rintro ⟨t, h, -⟩
  cases h

theorem demo_enterable : Enterable demo entryB clistB codeB := ⟨rfl, rfl, by decide, by decide, rfl⟩

theorem demo_applicable : Applicable demo codeF := ⟨rfl, rfl, by decide, by decide, by decide⟩

theorem test_witness_DecodeOfEncode :
    (Instr.callClist .al 6 14).wf = true ∧ (Instr.tpermCheck .al 5 2 0x7FFE).wf = true := by decide

theorem test_witness_EncodeOfDecode :
    decode 0x17700000 = .ok (.callClist .al 0 14) ∧ decode 0x17780000 = .ok (.callDirect .al 0) := by decide

theorem test_witness_TpermModeSelection :
    (opcodeField 0x3728FFFF = 6 ∧ immField 0x3728FFFF = 0x7FFF) ∧
      (opcodeField 0x37297FFE = 6 ∧ immField 0x37297FFE ≠ 0x7FFF) := by decide

/-- pc 15 is the last offset of CR14's code object; the word there is data 0, a LOADEQ. -/
theorem test_witness_StepRunsDecodedInstruction :
    Accessible { demo with pc := 15 } (State.crAt { demo with pc := 15 } 14) .x 15 15 ∧
      decode (Memory.readWord demo.mem 15) = .ok (.load .eq 0 0 0) :=
  ⟨(checkAccess_eq_ok ..).mp rfl, by decide⟩

/-- NULL, no X, invalid, and the first offset beyond the limit. -/
theorem test_witness_FetchFaults :
    (∀ g, State.reset.crAt 14 = some g → valid State.reset g = false) ∧
      (∀ g, (demo.setCr 14 (some dataD)).crAt 14 = some g → g.perms.x = false) ∧
      (∀ g, State.crAt { demo with params := { demo.params with sealOK := Table.const false } } 14 = some g →
        valid { demo with params := { demo.params with sealOK := Table.const false } } g = false) ∧
      (∀ g, State.crAt { demo with pc := 16 } 14 = some g → g.limit < g.base + 16) := by
  refine ⟨?_, ?_, ?_, ?_⟩ <;> intro g h <;> cases h <;> decide

theorem fetch_demo (w : Word) : fetch (placeWord demo w) = .ok w := fetch_placeWord demo w

/-- Opcode 20, RETURN's bits 6 and 12, and each unused field, executed. -/
theorem test_witness_WordsThatAreNoInstruction :
    (fetch (placeWord demo 0xA7000000) = .ok 0xA7000000#32 ∧ (opcodeField 0xA7000000).toNat = 20 ∧
      condPass (condOf 0xA7000000) (placeWord demo 0xA7000000).flags = true) ∧
    (opcodeField 0x1F000040).toNat = 3 ∧ (0x1F000040#32).getLsbD 6 = true ∧
    (opcodeField 0x1F001000).toNat = 3 ∧ (0x1F001000#32 >>> 12) % 2048 ≠ 0 ∧
    (opcodeField 0x17780001).toNat = 2 ∧ immField 0x17780001 ≠ 0 ∧
    (opcodeField 0x2F690001).toNat = 5 ∧ immField 0x2F690001 ≠ 0 ∧
    (opcodeField 0x77090001).toNat = 14 ∧ immField 0x77090001 ≠ 0 ∧
    (opcodeField 0x3F188000).toNat = 7 ∧ srcField 0x3F188000 ≠ 0 ∧
    (opcodeField 0x67108904).toNat = 12 ∧ 2048 ≤ (immField 0x67108904).toNat ∧
    (opcodeField 0x6F190900).toNat = 13 ∧ 2048 ≤ (immField 0x6F190900).toNat ∧
    (opcodeField 0x8F080001).toNat = 17 ∧ dstField 0x8F080001 ≠ 0 :=
  ⟨⟨fetch_demo _, by decide, by decide⟩, by decide⟩

/-- Opcode 20, a reserved RETURN bit and an unused field, skipped. -/
theorem test_witness_WordsThatAreNoInstruction_skipped :
    condPass (condOf 0xA0000000) (placeWord demo 0xA0000000).flags = false ∧
      (placeWord demo 0xA0000000).HasNextPc ∧ (opcodeField 0xA0000000).toNat = 20 ∧
      condPass (condOf 0x18000040) demo.flags = false ∧ condPass (condOf 0x10780001) demo.flags = false := by
  decide

theorem test_witness_FailedConditionSkips :
    condPass (Instr.cond (.load .eq 0 6 4)) demoLast.flags = false ∧ demoLast.HasNextPc := by decide

theorem test_witness_StepKeepsControlInvariant :
    inCallee.ControlInv ∧ ∃ t, step (placeWord inCallee 0x1F000000) = .next t := ⟨by decide, _, rfl⟩

theorem test_witness_StepKeepsControlInvariant_placed :
    (placeWord inCallee 0x1F000000).ControlInv := by decide

theorem test_witness_StepKeepsCanonicalForm :
    (placeWord demo 0x0F090007).FormInv ∧ ∃ t, step (placeWord demo 0x0F090007) = .next t :=
  ⟨by decide, _, rfl⟩

theorem test_witness_StepKeepsTokensLegal :
    (placeWord demo 0x17780000).LegalInv ∧ ∃ t, step (placeWord demo 0x17780000) = .next t :=
  ⟨by decide, _, rfl⟩

theorem test_witness_TuringDomainFrame :
    (opcodeField (encode (.dread .al 1 5 8))).toNat = 10 ∧ ∃ t, exec (.dread .al 1 5 8) demo = .next t :=
  ⟨by decide, _, rfl⟩

/-- One instruction that changes each of CR12 to CR15. -/
theorem test_witness_PrivilegedRegisterWriters :
    (∃ t, exec (.change .al 12 6 2) demo = .next t ∧ t.crAt 12 ≠ demo.crAt 12) ∧
      (∃ t, exec (.switch .al 13 2) demo = .next t ∧ t.crAt 13 ≠ demo.crAt 13) ∧
      (∃ t, exec (.switch .al 15 2) demo = .next t ∧ t.crAt 15 ≠ demo.crAt 15) ∧
      (∃ t, exec (.lambda .al 3) demo = .next t ∧ t.crAt 14 ≠ demo.crAt 14) :=
  ⟨⟨_, rfl, by decide⟩, ⟨_, rfl, by decide⟩, ⟨_, rfl, by decide⟩, ⟨_, rfl, by decide⟩⟩

theorem test_witness_FlagWriters :
    ∃ t, exec (.mcmp .al 1 2) demo = .next t ∧ t.flags ≠ demo.flags := ⟨_, rfl, by decide⟩

/-- `demo` launched with a thread stack and a namespace, its lumps kept right behind the data object, and the
running abstraction that of `cur_egt`. -/
def launched : State :=
  { demo with
    cr := (demo.cr.set 12 (some (token {} 0x700 0x71F 0x12))).set 15 (some (token {} 0x800 0x8FF 0x15))
    params := { demo.params with nsSplit := Table.const (some (listL, codeA)) } }

/-- A state meets the launch premise, and the region given for its lumps is what makes it fail by one word. -/
theorem test_launchPremise :
    launched.LaunchPremise [⟨0x310, 0x33F⟩] ∧ ¬ launched.LaunchPremise [⟨0x30F, 0x33F⟩] := by decide

/-- `launched` is a well-formed start for a proof about the c-list of CR6, all six items of R342 (and R61). -/
theorem test_wellFormedStart :
    launched.WellFormedStart [regionOf listL] [⟨0x310, 0x33F⟩] True :=
  have running : launched.RunsAbstraction :=
    ⟨entryA, listL, codeA, listL, codeA, rfl, rfl, rfl, rfl, rfl, rfl, rfl⟩
  { legal := by decide
    fetches := ⟨10, codeA, rfl, by decide, rfl, by decide, rfl⟩
    clist := holdsClist_of_runsAbstraction running
    depths := by decide
    running := fun _ => running
    stores := by decide
    data := test_launchPremise.1 }

/-- `launched` at `pc = 0` meets every row of R42's table. -/
theorem test_resetPremise : State.ResetPremise { launched with pc := 0 } True :=
  have running : State.RunsAbstraction { launched with pc := 0 } :=
    ⟨entryA, listL, codeA, listL, codeA, rfl, rfl, rfl, rfl, rfl, rfl, rfl⟩
  { ordinary := by decide
    clist := ⟨listL, rfl, rfl⟩
    running := holdsClist_of_runsAbstraction running
    stack := ⟨_, rfl⟩
    code := ⟨codeA, rfl, rfl, by decide⟩
    root := ⟨_, rfl⟩
    start := rfl
    entered := fun _ => running
    frames := rfl
    saved := rfl }

/-- A c-list that CR1 may SAVE to is none that item 6 keeps apart, but the word behind it is. -/
theorem test_storesApartFrom :
    launched.StoresApartFrom [⟨0x210, 0x21F⟩] ∧ ¬ launched.StoresApartFrom [regionOf listS] := by decide

/-- A DWRITE in the last word of the data object, the word behind it, and the last word of the namespace; a SAVE
in the last word of a c-list, and the word behind it. -/
theorem test_witness_MemoryWriters :
    (∃ t, exec (.save .al 1 2 15) launched = .next t ∧ t.mem ≠ launched.mem) ∧
      (∃ t, exec (.dwrite .al 5 2 15) launched = .next t ∧ t.mem ≠ launched.mem) ∧
      launched.LaunchPremise [⟨0x310, 0x33F⟩] ∧
      (∃ r ∈ launched.protectedRegions [⟨0x310, 0x33F⟩], r.Has 0x310) ∧
      (∃ r ∈ launched.protectedRegions [⟨0x310, 0x33F⟩], r.Has 0x8FF) ∧
      launched.StoresApartFrom [⟨0x210, 0x21F⟩] ∧ (⟨0x210, 0x21F⟩ : Region).Has 0x210 :=
  ⟨⟨_, rfl, by decide⟩, ⟨_, rfl, by decide⟩, test_launchPremise.1, by decide, by decide,
    test_storesApartFrom.1, by decide⟩

theorem test_witness_DataRegisterWriters :
    ∃ t, exec (.dread .al 1 5 8) demo = .next t ∧ t.drAt 1 ≠ demo.drAt 1 := ⟨_, rfl, by decide⟩

theorem test_witness_CapabilitiesHaveASource :
    (∃ t, exec (.callDirect .al 0) demo = .next t ∧ t.crAt 6 = some { clistB with perms := { l := true } }) ∧
      ∀ c rd rs idx, Instr.callDirect .al 0 = .change c rd rs idx → rd = 12 ∨ rd = 13 :=
  ⟨⟨_, rfl, rfl⟩, by intros; contradiction⟩

/-- Slot 15 is the last of CR6's c-list. -/
theorem test_witness_LoadResult :
    condPass .al demo.flags = true ∧ (0 : CRNum).val < 12 ∧ (6 : CRNum).val < 12 ∧ (0 : CRNum) ≠ 6 ∧
      SlotHolds demo (demo.crAt 6) 15 ((6 : CRNum) != 6) (some readD) ∧ demo.HasNextPc :=
  ⟨by decide, by decide, by decide, by decide, slotHolds_demo _ _ _ rfl, by decide⟩

theorem test_witness_SaveResult :
    condPass .al demo.flags = true ∧ (1 : CRNum).val < 12 ∧ (2 : CRNum).val < 12 ∧
      Accessible demo (demo.crAt 1) .s 15 0x20F ∧
      demo.crAt 2 = some readD ∧ valid demo readD = true ∧ readD.b = true ∧
      demo.params.fbitSave.ask demo.view 0x20F = true ∧ demo.HasNextPc :=
  ⟨by decide, by decide, by decide, (checkAccess_eq_ok ..).mp rfl, rfl, rfl, rfl, rfl, by decide⟩

theorem test_witness_SaveThenLoad :
    condPass .al demo.flags = true ∧ (3 : CRNum).val < 12 ∧ (1 : CRNum).val < 12 ∧ (3 : CRNum) ≠ 6 ∧
    ∃ t, exec (.save .al 1 2 7) demo = .next t ∧ demo.crAt 2 = some readD ∧ demo.crAt 1 = some listS ∧
      t.crAt 1 = some listS ∧ condPass .al t.flags = true ∧ t.HasNextPc ∧ valid t listS = true ∧
      listS.perms.l = true ∧ valid t readD = true ∧
      t.params.fbitLoad.ask t.view (.token readD) = true :=
  ⟨by decide, by decide, by decide, by decide, _, rfl, rfl, rfl, rfl, rfl, by decide, rfl, rfl, rfl, rfl⟩

/-- A NULL c-list; and CR6 as destination. -/
theorem test_witness_LoadStops :
    condPass .al demo.flags = true ∧ (0 : CRNum).val < 12 ∧ (11 : CRNum).val < 12 ∧ (0 : CRNum) ≠ 6 ∧
      (∀ v, ¬ SlotHolds demo (demo.crAt 11) 0 ((11 : CRNum) != 6) v) ∧ (6 : CRNum).val < 12 :=
  ⟨by decide, by decide, by decide, by decide, not_slotHolds_none demo 0 true, by decide⟩

/-- SAVE of NULL, and CHANGE through a NULL c-list. -/
theorem test_witness_SaveAndChangeFault :
    condPass .al demo.flags = true ∧ ((1 : CRNum).val < 12 ∧ (4 : CRNum).val < 12) ∧
      (12 ≤ (12 : CRNum).val ∧ (11 : CRNum).val < 12) ∧ demo.crAt 4 = none ∧
      (∀ a, Accessible demo (demo.crAt 1) .s 15 a → demo.params.fbitSave.ask demo.view a = true →
        ∀ g, demo.crAt 4 = some g → valid demo g = false ∨ g.b = false) ∧
      (∀ v, ¬ SlotHolds demo (demo.crAt 11) 15 true v) :=
  ⟨by decide, by decide, by decide, rfl, fun _ _ _ g h => (by cases h), not_slotHolds_none demo 15 true⟩

theorem test_witness_CallDirectResult :
    condPass .al demo.flags = true ∧ (0 : CRNum).val < 12 ∧ demo.crAt 0 = some entryB ∧
      Enterable demo entryB clistB codeB := ⟨by decide, by decide, rfl, demo_enterable⟩

/-- Slot 14, the last that CALL reaches, in a c-list that starts one word higher. -/
theorem test_witness_CallClistResult :
    condPass .al demo.flags = true ∧ (7 : CRNum).val < 12 ∧
      SlotHolds (demo.setCr 7 (some { listL with base := 0xF6 })) (some { listL with base := 0xF6 })
        (14 : BitVec 4).toNat true (some entryB) ∧
      Enterable (demo.setCr 7 (some { listL with base := 0xF6 })) entryB clistB codeB :=
  ⟨by decide, by decide, (mLoad_eq_ok ..).mp rfl, rfl, rfl, by decide, by decide, rfl⟩

theorem test_witness_CalleeInherits :
    condPass .al demo.flags = true ∧ (∃ t, exec (.callDirect .al 0) demo = .next t) ∧
      ∃ t, exec (.callClist .al 6 3) demo = .next t := ⟨by decide, ⟨_, rfl⟩, ⟨_, rfl⟩⟩

/-- A call stack that is full; and the E-GT of CR4, which is NULL. -/
theorem test_witness_CallFaults :
    condPass .al demo.flags = true ∧ (∀ e cl code, demo.crAt 4 = some e → ¬ Enterable demo e cl code) ∧
      (∀ e cl code, ¬ Enterable { inCallee with params := { inCallee.params with callStackDepth := 1 } } e cl code) ∧
      (∀ e cl code, SlotHolds demo (demo.crAt 11) (14 : BitVec 4).toNat true (some e) →
        ¬ Enterable demo e cl code) := by
  refine ⟨by decide, fun e _ _ h => ?_, fun e _ _ h => ?_, fun e _ _ h => ?_⟩
  · cases h
  · exact absurd h.2.2.2.1 (by decide)
  · exact absurd h (not_slotHolds_none demo _ true _)

theorem test_witness_ReturnResult :
    condPass .al inCallee.flags = true ∧ (0xFBF : BitVec 12).getLsbD 6 = false ∧
      inCallee.callStack = [{ egt := .token entryA, nia := 11, mi := 3 }] ∧
      inCallee.cr5Stack = [some readD] ∧ LoadsAs inCallee (.token entryA) (some entryA) ∧
      inCallee.params.nsSplit.ask inCallee.view entryA = some (clistB, codeB) :=
  ⟨by decide, by decide, rfl, rfl, (mLoadWord_eq_ok ..).mp rfl, rfl⟩

/-- Mask bit 6; an empty call stack; and a frame whose E-GT NSSplit does not divide. -/
theorem test_witness_ReturnStops :
    condPass .al demo.flags = true ∧ (0x040 : BitVec 12).getLsbD 6 = true ∧
      (0xFBF : BitVec 12).getLsbD 6 = false ∧ demo.callStack = [] ∧
      inCallee.callStack = [{ egt := .token entryA, nia := 11, mi := 3 }] ∧
      ∀ e, LoadsAs { inCallee with params := Params.reset } (.token entryA) (some e) →
        Params.reset.nsSplit.ask inCallee.view e = none :=
  ⟨by decide, by decide, by decide, rfl, rfl, fun _ _ => rfl⟩

theorem test_witness_EntryThenReturn :
    condPass .al demo.flags = true ∧ (1 : CRNum) ≠ 5 ∧
    (∃ t, exec (.callDirect .al 0) demo = .next t ∧ demo.curEgt = some entryA ∧
      condPass .al t.flags = true ∧ valid t entryA = true ∧
      t.params.fbitLoad.ask t.view (.token entryA) = true ∧
      t.params.nsSplit.ask t.view { entryA with g := false } = some (clistB, codeB)) ∧
      ∃ t, exec (.xloadlambda .al 1 6 5) demo = .next t :=
  ⟨by decide, by decide, ⟨_, rfl, rfl, rfl, rfl, rfl, rfl⟩, ⟨_, rfl⟩⟩

theorem test_witness_ChangeSystemWideResult :
    condPass .al demo.flags = true ∧ ((13 : CRNum) = 12 ∨ (13 : CRNum) = 13) ∧ (6 : CRNum).val < 12 ∧
      SlotHolds demo (demo.crAt 6) 15 true (some readD) ∧ SlotHolds demo (demo.crAt 6) 0 true none ∧
      demo.HasNextPc :=
  ⟨by decide, by decide, by decide, slotHolds_demo _ _ _ rfl, slotHolds_demo _ _ _ rfl, by decide⟩

/-- To a thread never run, and to one whose lump is listed. -/
theorem test_witness_ChangeContextSwitchResult :
    condPass .al demo.flags = true ∧ ((15 : CRNum) = 14 ∨ (15 : CRNum) = 15) ∧ (6 : CRNum).val < 12 ∧
      SlotHolds demo (demo.crAt 6) 5 true (some codeF) ∧ demo.HasNextPc ∧
      assocFind 1 demo.lumps = none ∧ assocFind 1 [(1, savedLump demo 4)] = some (savedLump demo 4) :=
  ⟨by decide, by decide, by decide, slotHolds_demo _ _ _ rfl, by decide, rfl, rfl⟩

/-- `demo` as thread 1, with the lump that `demo` as thread 0 leaves when it switches away. -/
def otherThread : State :=
  { demo with
    curLump := 1
    lumps := [(0, savedLump demo 11)]
    params := { demo.params with targetLump := Table.const 0 } }

theorem test_witness_ThreadResumes :
    condPass .al demo.flags = true ∧ ((14 : CRNum) = 14 ∨ (14 : CRNum) = 15) ∧ (6 : CRNum).val < 12 ∧
    ∃ t w, exec (.change .al 14 6 5) demo = .next t ∧
      assocFind demo.curLump otherThread.lumps = assocFind demo.curLump t.lumps ∧
      otherThread.curLump ≠ demo.curLump ∧ condPass .al otherThread.flags = true ∧
      SlotHolds otherThread (otherThread.crAt 6) 5 true (some codeF) ∧
      otherThread.params.targetLump.ask otherThread.view (14, some codeF) = demo.curLump ∧
      exec (.change .al 14 6 5) otherThread = .next w :=
  ⟨by decide, by decide, by decide, _, _, rfl, rfl, by decide, rfl, (mLoad_eq_ok ..).mp rfl, rfl, rfl⟩

theorem test_witness_SwitchResult :
    condPass .al demo.flags = true ∧ (2 : CRNum).val < 12 ∧ demo.crAt 2 = some readD ∧
      valid demo readD = true ∧ demo.HasNextPc ∧
      demo.params.sentinelOK.ask demo.view (readD, 0b101) = true ∧
      demo.params.sentinelOK.ask demo.view (readD, 0b111) = true := by decide

/-- CR12 and CR14 as target; a NULL source; and a sentinel test that fails. -/
theorem test_witness_SwitchStops :
    condPass .al demo.flags = true ∧ (12 : CRNum) ≠ 13 ∧ (12 : CRNum) ≠ 15 ∧ (14 : CRNum) ≠ 13 ∧
      (14 : CRNum) ≠ 15 ∧ (4 : CRNum).val < 12 ∧ demo.crAt 4 = none ∧ (2 : CRNum).val < 12 ∧
      Params.reset.sentinelOK.ask demo.view (readD, 0b101) = false := by decide

theorem test_witness_TpermHealthCheckResult :
    condPass .al demoLast.flags = true ∧ demoLast.HasNextPc := by decide

/-- NULL, a reserved preset, and a GT with a defined preset, in CR11 and CR5, and the first two in CR15 and CR14. -/
theorem test_witness_TpermRestrictionResult :
    condPass .al demo.flags = true ∧ (11 : CRNum).val < 12 ∧ demo.HasNextPc ∧ demo.crAt 11 = none ∧
      presetMask 10 = none ∧ demo.crAt 5 = some dataD ∧ presetMask 9 = some { l := true, s := true } ∧
      demo.crAt 15 = none ∧ demo.crAt 14 = some codeA ∧ presetMask 15 = none := by decide

theorem test_witness_TpermThenAccess :
    condPass .al demo.flags = true ∧ (5 : CRNum).val < 12 ∧
    ∃ t, exec (.tpermCheck .al 5 2 15) demo = .next t ∧ t.flags.z = true ∧
      presetMask 2 = some { r := true, w := true } ∧ t.HasNextPc :=
  ⟨by decide, by decide, _, rfl, rfl, rfl, by decide⟩

theorem test_witness_PresetTable :
    10 ≤ (10 : BitVec 4).toNat ∧ presetMask 9 = some { l := true, s := true } := by decide

theorem test_witness_LambdaResult :
    condPass .al demo.flags = true ∧ (3 : CRNum).val < 12 ∧ demo.crAt 3 = some codeF ∧
      Applicable demo codeF := ⟨by decide, by decide, rfl, demo_applicable⟩

theorem test_witness_EloadcallResult :
    condPass .al demo.flags = true ∧ (5 : CRNum).val < 12 ∧ (6 : CRNum).val < 12 ∧ (5 : CRNum) ≠ 6 ∧
      SlotHolds demo (demo.crAt 6) 4 ((6 : CRNum) != 6) (some entryB) ∧ Enterable demo entryB clistB codeB :=
  ⟨by decide, by decide, by decide, by decide, slotHolds_demo _ _ _ rfl, demo_enterable⟩

theorem test_witness_XloadlambdaResult :
    condPass .al demo.flags = true ∧ (5 : CRNum).val < 12 ∧ (6 : CRNum).val < 12 ∧ (5 : CRNum) ≠ 6 ∧
      SlotHolds demo (demo.crAt 6) 5 ((6 : CRNum) != 6) (some codeF) ∧ Applicable demo codeF :=
  ⟨by decide, by decide, by decide, by decide, slotHolds_demo _ _ _ rfl, demo_applicable⟩

/-- A GT without X in CRd; slots whose GT is of the other kind. -/
theorem test_witness_LambdaFamilyFaults :
    condPass .al demo.flags = true ∧ (0 : CRNum).val < 12 ∧ (11 : CRNum).val < 12 ∧ (0 : CRNum) ≠ 6 ∧
      (∀ g, demo.crAt 0 = some g → ¬ Applicable demo g) ∧
      (∀ e cl code, SlotHolds demo (demo.crAt 11) 0 true (some e) → ¬ Enterable demo e cl code) ∧
      (∀ g, SlotHolds demo (demo.crAt 11) 0 true (some g) → ¬ Applicable demo g) := by
  refine ⟨by decide, by decide, by decide, by decide, fun g h ha => ?_, fun e _ _ h => ?_, fun g h => ?_⟩
  · cases h
    exact absurd ha.2.1 (by decide)
  · exact absurd h (not_slotHolds_none demo 0 true _)
  · exact absurd h (not_slotHolds_none demo 0 true _)

theorem test_witness_FusedAreTheirHalves :
    condPass .al demo.flags = true ∧ demo.pc + 2 < 2 ^ demo.params.pcWidth.val ∧
      (∃ t, exec (.eloadcall .al 0 6 4) demo = .next t) ∧ ∃ t, exec (.xloadlambda .al 1 6 5) demo = .next t :=
  ⟨by decide, by decide, ⟨_, rfl⟩, ⟨_, rfl⟩⟩

/-- CR12 and CR15 as operands, CR11 as CHANGE's target, and fields just outside the register. -/
theorem test_witness_OperandsThatStop :
    condPass .al demo.flags = true ∧ 12 ≤ (12 : CRNum).val ∧ 12 ≤ (15 : CRNum).val ∧ (11 : CRNum).val < 12 ∧
      (0 : BitVec 6).toNat = 0 ∧ 32 < (33 : BitVec 6).toNat + (0 : BitVec 5).toNat ∧
      32 < (2 : BitVec 6).toNat + (31 : BitVec 5).toNat ∧
      launched.crAt 12 ≠ none ∧ launched.crAt 15 ≠ none ∧ presetMask 0 ≠ none ∧ presetMask 9 ≠ none ∧
      condPass .al launched.flags = true := by decide

theorem test_witness_DreadResult :
    condPass .al demo.flags = true ∧ (5 : CRNum).val < 12 ∧ demo.crAt 5 = some dataD ∧
      valid demo dataD = true ∧
      dataD.perms.r = true ∧ dataD.base + (15 : BitVec 15).toNat = dataD.limit ∧ demo.HasNextPc := by decide

theorem test_witness_DwriteResult :
    condPass .al demo.flags = true ∧ (5 : CRNum).val < 12 ∧ demo.crAt 5 = some dataD ∧
      valid demo dataD = true ∧
      dataD.perms.w = true ∧ dataD.base + (15 : BitVec 15).toNat = dataD.limit ∧ demo.HasNextPc := by decide

theorem test_witness_DataAccessFaults :
    condPass .al demo.flags = true ∧ (5 : CRNum).val < 12 ∧ demo.HasNextPc ∧ (11 : CRNum).val < 12 ∧
      demo.crAt 11 = none := by decide

/-- The whole register, and its top bit. -/
theorem test_witness_BfextResult :
    condPass .al demo.flags = true ∧ 1 ≤ (32 : BitVec 6).toNat ∧
      (32 : BitVec 6).toNat + (0 : BitVec 5).toNat ≤ 32 ∧ 1 ≤ (1 : BitVec 6).toNat ∧
      (1 : BitVec 6).toNat + (31 : BitVec 5).toNat ≤ 32 ∧ demo.HasNextPc := by decide

theorem test_witness_BfinsResult :
    condPass .al demoLast.flags = true ∧ 1 ≤ (32 : BitVec 6).toNat ∧
      (32 : BitVec 6).toNat + (0 : BitVec 5).toNat ≤ 32 ∧ 1 ≤ (1 : BitVec 6).toNat ∧
      (1 : BitVec 6).toNat + (31 : BitVec 5).toNat ≤ 32 ∧ demoLast.HasNextPc := by decide

theorem test_witness_BfinsThenBfext :
    condPass .al demo.flags = true ∧ 1 ≤ (32 : BitVec 6).toNat ∧
      (32 : BitVec 6).toNat + (0 : BitVec 5).toNat ≤ 32 ∧ demo.pc + 2 < 2 ^ demo.params.pcWidth.val := by decide

theorem test_witness_ShiftResult : condPass .al demoLast.flags = true ∧ demoLast.HasNextPc := by decide

theorem test_witness_ShiftThereAndBack :
    condPass .al demo.flags = true ∧ (31 : BitVec 15).toNat < 32 ∧
      (∃ t u, exec (.shl .al 2 1 31) demo = .next t ∧ exec (.shr .al 2 2 31) t = .next u) ∧
      ∃ t u, exec (.shr .al 2 1 31) demo = .next t ∧ exec (.shl .al 2 2 31) t = .next u :=
  ⟨by decide, by decide, ⟨_, _, rfl, rfl⟩, ⟨_, _, rfl, rfl⟩⟩

theorem test_witness_McmpResult : condPass .al demoLast.flags = true ∧ demoLast.HasNextPc := by decide

theorem test_witness_ConditionsAfterCompare :
    condPass .al demo.flags = true ∧ ∃ t, exec (.mcmp .al 1 2) demo = .next t := ⟨by decide, _, rfl⟩

theorem test_witness_IaddResult : condPass .al demoLast.flags = true ∧ demoLast.HasNextPc := by decide

theorem test_witness_IsubResult : condPass .ne demoLast.flags = true ∧ demoLast.HasNextPc := by decide

/-- Targets 0, -1, the last offset of the range, and one more. -/
theorem test_witness_BranchResult :
    condPass .al demo.flags = true ∧ (demo.pc : Int) + (0x7FF6#15).toInt = 0 ∧
      (demo.pc : Int) + (0x7FF5#15).toInt = -1 ∧
      (demoLast.pc : Int) + (1#15).toInt < 2 ^ demoLast.params.pcWidth.val ∧
      2 ^ demoLast.params.pcWidth.val ≤ (demoLast.pc : Int) + (2#15).toInt := by decide

/-- The last offset of the pc range: a skipped instruction, a skipped word that is none, and one that passes. -/
theorem test_witness_PcRangeFaults :
    ¬ demoEnd.HasNextPc ∧ condPass (Instr.cond (.branch .eq 1)) demoEnd.flags = false ∧
      condPass .al demoEnd.flags = true ∧
      fetch (placeWord demoEnd 0xA0000000) = .ok 0xA0000000 ∧
      ¬ (placeWord demoEnd 0xA0000000).HasNextPc ∧
      decode 0xA0000000 = .error .undefinedOpcode ∧
      condPass (condOf 0xA0000000) (placeWord demoEnd 0xA0000000).flags = false := by decide

/-- A LOAD and a DREAD that pass their own tests, at the last offset. -/
theorem test_pcRange_faults :
    exec (.load .al 0 6 4) demoEnd = .fault .fault ∧ exec (.dread .al 1 5 8) demoEnd = .fault .fault ∧
      ∃ t, exec (.load .al 0 6 4) demoLast = .next t := ⟨rfl, rfl, _, rfl⟩

end Sys2Proof.Tests
end

/-! PROOFS. The statement of 00_scope.md: a step runs what the fetched word decodes to. -/

namespace Sys2Proof.Machine

/-- Once the fetch has passed, the rest of the step is about the fetched word alone (R11). -/
theorem step_of_fetch {s : State} {w : Word} (hfetch : fetch s = .ok w) : step s = runWord w s := by
  simp only [step, hfetch]

/-- A word that decodes is run as its instruction, whose own condition `exec` tests (R11, R131). -/
theorem runWord_of_decode {w : Word} {i : Instr} (hdecode : decode w = .ok i) (s : State) :
    runWord w s = exec i s := by
  simp only [runWord, hdecode]

/-- Settles O5: the fetch answers the word at the accessible address, and that word decodes. -/
theorem stepRunsDecodedInstruction : Obligations.StepRunsDecodedInstruction := by
  intro s a i haccess hdecode
  have hfetch : fetch s = .ok (Memory.readWord s.mem a) := (fetch_eq_ok s _).mpr ⟨a, haccess, rfl⟩
  calc step s = runWord (Memory.readWord s.mem a) s := step_of_fetch hfetch
    _ = exec i s := runWord_of_decode hdecode s

end Sys2Proof.Machine

/-! PROOFS. What an instruction and a step can do, said once: every transition of the machine, by instruction. -/

namespace Sys2Proof.Machine

/-- Writing a CR with the value it holds changes nothing. -/
theorem setCr_crAt_eq_self (s : State) (i : CRNum) : s.setCr i (s.crAt i) = s := by
  simp [State.setCr, State.crAt]

/-- The privileged registers are CR12 to CR15 (R23). -/
theorem privileged_cases {j : CRNum} (h : 12 ≤ j.val) : j = 12 ∨ j = 13 ∨ j = 14 ∨ j = 15 := by
  revert j
  decide

/-- What writing NULL to a register keeps, RETURN's mask keeps (R168). -/
theorem applyMask_preserves {P : State → Prop} (hnull : ∀ t j, P t → P (t.setCr j none)) {s : State} (h : P s)
    (mask : BitVec 12) : P (applyMask s mask) := by
  refine List.foldlRecOn maskableCRs _ h fun t ht j _ => ?_
  split
  · exact hnull t j ht
  · exact ht

/-- No decoded TPERM carries the B-modifier, so the GT keeps its B-bit (R110, R211). -/
theorem bModified_tpermBmod (pass : Bool) (g : Gt) : bModified Config.tpermBmod pass g = g := by
  simp [bModified, Config.tpermBmod]

/-- What instruction `i` can do to state `s`: one constructor for each way an instruction answers, with what its
tests say of the values written. `transition_of_exec` ties it to `exec`. -/
inductive Transition (s : State) : Instr → State → Prop
  /-- The condition fails (R131). -/
  | skipped {i : Instr} (hpc : s.HasNextPc) : Transition s i { s with pc := s.pc + 1 }
  | load {c : Cond} {rd rs : CRNum} {slot : BitVec 15} {v : CRVal} (hpc : s.HasNextPc) (hrd : rd.val < 12)
      (hv : SlotHolds s (s.crAt rs) slot.toNat (rs != 6) v) :
      Transition s (.load c rd rs slot) { s.setCr rd v with pc := s.pc + 1 }
  | save {c : Cond} {rd rs : CRNum} {slot : BitVec 15} {a : Nat} {g : Gt} (hpc : s.HasNextPc)
      (ha : Accessible s (s.crAt rd) .s slot.toNat a) (hg : s.crAt rs = some g) :
      Transition s (.save c rd rs slot) { s with mem := Memory.writeCell s.mem a (.token g), pc := s.pc + 1 }
  | callDirect {c : Cond} {rs : CRNum} {e cl code : Gt} (he : s.crAt rs = some e)
      (hen : Enterable s e cl code) : Transition s (.callDirect c rs) (entered s e cl code)
  | callClist {c : Cond} {rs : CRNum} {offset : BitVec 4} {e cl code : Gt}
      (he : SlotHolds s (s.crAt rs) offset.toNat true (some e)) (hen : Enterable s e cl code) :
      Transition s (.callClist c rs offset) (entered s e cl code)
  | ret {c : Cond} {mask : BitVec 12} {f : Frame} {frames : List Frame} {g5 : CRVal} {rest : List CRVal}
      {e cl code : Gt} (hframes : s.callStack = f :: frames) (hcr5 : s.cr5Stack = g5 :: rest)
      (he : LoadsAs s f.egt (some e)) (hsplit : s.params.nsSplit.ask s.view e = some (cl, code)) :
      Transition s (.ret c mask) (applyMask (returned s f frames g5 rest e cl code) mask)
  | changeSystemWide {c : Cond} {rd rs : CRNum} {idx : BitVec 15} {v : CRVal} (hpc : s.HasNextPc)
      (hrd : rd = 12 ∨ rd = 13) (hv : SlotHolds s (s.crAt rs) idx.toNat true v) :
      Transition s (.change c rd rs idx) { s.setCr rd v with pc := s.pc + 1 }
  | changeThread {c : Cond} {rd rs : CRNum} {idx : BitVec 15} {v : CRVal} (hpc : s.HasNextPc)
      (hrd : rd = 14 ∨ rd = 15) (hv : SlotHolds s (s.crAt rs) idx.toNat true v) :
      Transition s (.change c rd rs idx) (switched s rd v)
  | switch {c : Cond} {rn rs : CRNum} {g : Gt} (hpc : s.HasNextPc) (hrn : rn = 13 ∨ rn = 15)
      (hg : s.crAt rs = some g) : Transition s (.switch c rn rs) { s.setCr rn (some g) with pc := s.pc + 1 }
  | tpermRestrict {c : Cond} {rd : CRNum} {preset : BitVec 4} {g : Gt} {m : Perms} {z : Bool}
      (hpc : s.HasNextPc) (hrd : rd.val < 12) (hg : s.crAt rd = some g) :
      Transition s (.tpermRestrict c rd preset)
        { (s.setCr rd (some { g with perms := permsInter g.perms m })).setZ z with pc := s.pc + 1 }
  /-- TPERM Mode 2 on NULL or with a reserved preset (R202, R206). -/
  | tpermIgnored {c : Cond} {rd : CRNum} {preset : BitVec 4} (hpc : s.HasNextPc) :
      Transition s (.tpermRestrict c rd preset) { s.setZ false with pc := s.pc + 1 }
  | tpermCheck {c : Cond} {rd : CRNum} {preset : BitVec 4} {offset : BitVec 15} {z : Bool}
      (hpc : s.HasNextPc) : Transition s (.tpermCheck c rd preset offset) { s.setZ z with pc := s.pc + 1 }
  | lambda {c : Cond} {rd : CRNum} {g : Gt} (hg : s.crAt rd = some g) (ha : Applicable s g) :
      Transition s (.lambda c rd) (applied s g)
  | eloadcall {c : Cond} {rd rs : CRNum} {slot : BitVec 15} {e cl code : Gt} (hrd : rd.val < 12)
      (he : SlotHolds s (s.crAt rs) slot.toNat (rs != 6) (some e)) (hen : Enterable s e cl code) :
      Transition s (.eloadcall c rd rs slot) (entered (s.setCr rd (some e)) e cl code)
  | xloadlambda {c : Cond} {rd rs : CRNum} {slot : BitVec 15} {g : Gt} (hrd : rd.val < 12)
      (hg : SlotHolds s (s.crAt rs) slot.toNat (rs != 6) (some g)) (ha : Applicable s g) :
      Transition s (.xloadlambda c rd rs slot) (applied (s.setCr rd (some g)) g)
  | dread {c : Cond} {rd : DRNum} {rs : CRNum} {offset : BitVec 15} {x : Word} (hpc : s.HasNextPc) :
      Transition s (.dread c rd rs offset) { s.setDr rd x with pc := s.pc + 1 }
  | dwrite {c : Cond} {rd : CRNum} {rs : DRNum} {offset : BitVec 15} {a : Nat} (hpc : s.HasNextPc)
      (ha : Accessible s (s.crAt rd) .w offset.toNat a) :
      Transition s (.dwrite c rd rs offset)
        { s with mem := Memory.writeWord s.mem a (s.drAt rs), pc := s.pc + 1 }
  | bfext {c : Cond} {rd rs : DRNum} {width : BitVec 6} {lsb : BitVec 5} {x : Word} (hpc : s.HasNextPc) :
      Transition s (.bfext c rd rs width lsb) { s.setDr rd x with pc := s.pc + 1 }
  | bfins {c : Cond} {rd rs : DRNum} {width : BitVec 6} {lsb : BitVec 5} {x : Word} (hpc : s.HasNextPc) :
      Transition s (.bfins c rd rs width lsb) { s.setDr rd x with pc := s.pc + 1 }
  | mcmp {c : Cond} {rd rs : DRNum} {f : Flags} (hpc : s.HasNextPc) :
      Transition s (.mcmp c rd rs) { s with flags := f, pc := s.pc + 1 }
  | iadd {c : Cond} {rd rs : DRNum} {imm : BitVec 15} {r : Word × Flags} (hpc : s.HasNextPc) :
      Transition s (.iadd c rd rs imm) { setResult s rd r with pc := s.pc + 1 }
  | isub {c : Cond} {rd rs : DRNum} {imm : BitVec 15} {r : Word × Flags} (hpc : s.HasNextPc) :
      Transition s (.isub c rd rs imm) { setResult s rd r with pc := s.pc + 1 }
  | branch {c : Cond} {offset : BitVec 15} {n : Nat} (hn : n < 2 ^ s.params.pcWidth.val) :
      Transition s (.branch c offset) { s with pc := n }
  | shl {c : Cond} {rd rs : DRNum} {amount : BitVec 15} {x : Word} (hpc : s.HasNextPc) :
      Transition s (.shl c rd rs amount) { s.setDr rd x with pc := s.pc + 1 }
  | shr {c : Cond} {rd rs : DRNum} {amount : BitVec 15} {x : Word} (hpc : s.HasNextPc) :
      Transition s (.shr c rd rs amount) { s.setDr rd x with pc := s.pc + 1 }

/-- CHANGE is the write of a system-wide register or the switch of a thread, by its destination (R181). -/
theorem transition_of_changeEffect {c : Cond} {rd rs : CRNum} {idx : BitVec 15} {s t : State}
    (h : changeEffect rd rs idx s = .ok t) : Transition s (.change c rd rs idx) t := by
  obtain ⟨h12, -, hpc, v, hv, rfl⟩ := (changeEffect_eq_ok ..).mp h
  by_cases hrd : rd = 12 ∨ rd = 13
  · rw [if_pos hrd]
    exact .changeSystemWide hpc hrd hv
  · rw [if_neg hrd]
    exact .changeThread hpc ((or_assoc.mpr (privileged_cases h12)).resolve_left hrd) hv

/-- TPERM Mode 2 writes an ordinary register or Z alone (R202, R206, R209). -/
theorem transition_of_tpermRestrictEffect {c : Cond} {rd : CRNum} {preset : BitVec 4} {s t : State}
    (h : tpermRestrictEffect rd preset s = .ok t) : Transition s (.tpermRestrict c rd preset) t := by
  obtain ⟨hallowed, hpc, rfl⟩ := (tpermRestrictEffect_eq_ok ..).mp h
  rcases tpermRestriction_cases Config.tpermBmod rd preset s with ⟨g, m, z, hg, hm, heq⟩ | heq
  · have hrd : rd.val < 12 := by simpa [hg, hm] using hallowed
    rw [heq, bModified_tpermBmod]
    exact .tpermRestrict hpc hrd hg
  · rw [heq]
    exact .tpermIgnored hpc

/-- TPERM Mode 1 writes its register back as it was, so only Z can change (R203). -/
theorem transition_of_tpermCheckEffect {c : Cond} {rd : CRNum} {preset : BitVec 4} {offset : BitVec 15}
    {s t : State} (h : tpermCheckEffect rd preset offset s = .ok t) :
    Transition s (.tpermCheck c rd preset offset) t := by
  obtain ⟨hpc, rfl⟩ := (tpermCheckEffect_eq_ok ..).mp h
  rcases tpermHealth_cases Config.tpermBmod rd preset offset.toNat s with ⟨g, ok, hg, heq⟩ | heq
  · rw [heq, bModified_tpermBmod, ← hg, setCr_crAt_eq_self]
    exact .tpermCheck hpc
  · rw [heq]
    exact .tpermCheck hpc

/-- An executed instruction's effect is one of its transitions. -/
theorem transition_of_effectOf {i : Instr} {s t : State} (h : effectOf i s = .ok t) : Transition s i t := by
  cases i with
  | load c rd rs slot =>
    obtain ⟨hrd, -, -, hpc, v, hv, rfl⟩ := (loadEffect_eq_ok ..).mp h
    exact .load hpc hrd hv
  | save c rd rs slot =>
    obtain ⟨-, -, hpc, a, g, ha, hg, -, -, -, rfl⟩ := (saveEffect_eq_ok ..).mp h
    exact .save hpc ha hg
  | callDirect c rs =>
    obtain ⟨-, e, cl, code, he, hen, rfl⟩ := (callDirectEffect_eq_ok ..).mp h
    exact .callDirect he hen
  | callClist c rs offset =>
    obtain ⟨-, e, cl, code, he, hen, rfl⟩ := (callClistEffect_eq_ok ..).mp h
    exact .callClist he hen
  | ret c mask =>
    obtain ⟨-, f, frames, g5, rest, e, cl, code, hframes, hcr5, he, hsplit, rfl⟩ := (retEffect_eq_ok ..).mp h
    exact .ret hframes hcr5 he hsplit
  | change c rd rs idx => exact transition_of_changeEffect h
  | switch c rn rs =>
    obtain ⟨hrn, -, hpc, g, hg, -, -, rfl⟩ := (switchEffect_eq_ok ..).mp h
    exact .switch hpc hrn hg
  | tpermRestrict c rd preset => exact transition_of_tpermRestrictEffect h
  | tpermCheck c rd preset offset => exact transition_of_tpermCheckEffect h
  | lambda c rd =>
    obtain ⟨-, g, hg, ha, rfl⟩ := (lambdaEffect_eq_ok ..).mp h
    exact .lambda hg ha
  | eloadcall c rd rs slot =>
    obtain ⟨hrd, -, -, e, cl, code, he, hen, rfl⟩ := (eloadcallEffect_eq_ok ..).mp h
    exact .eloadcall hrd he hen
  | xloadlambda c rd rs slot =>
    obtain ⟨hrd, -, -, g, hg, ha, rfl⟩ := (xloadlambdaEffect_eq_ok ..).mp h
    exact .xloadlambda hrd hg ha
  | dread c rd rs offset =>
    obtain ⟨-, hpc, a, -, rfl⟩ := (dreadEffect_eq_ok ..).mp h
    exact .dread hpc
  | dwrite c rd rs offset =>
    obtain ⟨-, hpc, a, ha, rfl⟩ := (dwriteEffect_eq_ok ..).mp h
    exact .dwrite hpc ha
  | bfext c rd rs width lsb =>
    obtain ⟨-, hpc, rfl⟩ := (bfextEffect_eq_ok ..).mp h
    exact .bfext hpc
  | bfins c rd rs width lsb =>
    obtain ⟨-, hpc, rfl⟩ := (bfinsEffect_eq_ok ..).mp h
    exact .bfins hpc
  | mcmp c rd rs =>
    obtain ⟨hpc, rfl⟩ := (mcmpEffect_eq_ok ..).mp h
    exact .mcmp hpc
  | iadd c rd rs imm =>
    obtain ⟨hpc, rfl⟩ := (iaddEffect_eq_ok ..).mp h
    exact .iadd hpc
  | isub c rd rs imm =>
    obtain ⟨hpc, rfl⟩ := (isubEffect_eq_ok ..).mp h
    exact .isub hpc
  | branch c offset =>
    obtain ⟨hlow, hhigh, rfl⟩ := (branchEffect_eq_ok ..).mp h
    exact .branch ((Int.toNat_lt hlow).mpr (by exact_mod_cast hhigh))
  | shl c rd rs amount =>
    obtain ⟨hpc, rfl⟩ := (shlEffect_eq_ok ..).mp h
    exact .shl hpc
  | shr c rd rs amount =>
    obtain ⟨hpc, rfl⟩ := (shrEffect_eq_ok ..).mp h
    exact .shr hpc

/-- An instruction that answers makes one of its transitions. -/
theorem transition_of_exec {i : Instr} {s t : State} (h : exec i s = .next t) : Transition s i t := by
  rcases (exec_eq_next ..).mp h with ⟨-, heffect⟩ | ⟨-, hpc, rfl⟩
  · exact transition_of_effectOf heffect
  · exact .skipped hpc

/-- A step that answers makes the transition of some instruction: a skipped word that is none does what any
skipped instruction does (R133). -/
theorem transition_of_step {s t : State} (h : step s = .next t) : ∃ i, Transition s i t := by
  obtain ⟨w, -, hrun⟩ := (step_eq_next ..).mp h
  rcases (runWord_eq_next ..).mp hrun with ⟨i, -, hexec⟩ | ⟨r, -, -, hadvance⟩
  · exact ⟨i, transition_of_exec hexec⟩
  · obtain ⟨hpc, rfl⟩ := (advance_eq_ok ..).mp hadvance
    exact ⟨.branch .nv 0, .skipped hpc⟩

end Sys2Proof.Machine

/-! PROOFS. The control invariant: the pc range and the stacks (R26, R27, R36, R37). -/

namespace Sys2Proof.Machine

/-- The invariant reads no register and no word of memory, so advancing inside the pc range keeps it. -/
theorem controlInv_advanced {s : State} (h : s.ControlInv) (hpc : s.HasNextPc) (dr : Vector Word 16)
    (cr : Vector CRVal 16) (flags : Flags) (mem : Memory) :
    State.ControlInv { s with dr := dr, cr := cr, flags := flags, mem := mem, pc := s.pc + 1 } :=
  ⟨hpc, h.2⟩

/-- Pushing a frame where there is room keeps the invariant, for its NIA is inside the pc range (R36). -/
theorem controlInv_pushed {s : State} (h : s.ControlInv) (hpc : s.HasNextPc)
    (hroom : s.callStack.length < s.params.callStackDepth) (cr : Vector CRVal 16) (curEgt : CRVal) :
    State.ControlInv { pushFrame s (s.pc + 1) with cr := cr, curEgt := curEgt, pc := 0 } := by
  obtain ⟨-, hdepth, -, hnia, hlumps⟩ := h
  exact ⟨Nat.two_pow_pos _, congrArg (· + 1) hdepth, hroom, List.forall_mem_cons.mpr ⟨hpc, hnia⟩, hlumps⟩

theorem controlInv_entered {s : State} {e cl code : Gt} (h : s.ControlInv) (hen : Enterable s e cl code) :
    (entered s e cl code).ControlInv := by
  obtain ⟨-, -, hpc, hroom, -⟩ := hen
  exact controlInv_pushed h hpc hroom _ _

theorem controlInv_applied {s : State} {g : Gt} (h : s.ControlInv) (ha : Applicable s g) :
    (applied s g).ControlInv := by
  obtain ⟨-, -, -, hpc, hroom⟩ := ha
  exact controlInv_pushed h hpc hroom _ _

/-- RETURN pops both stacks and takes its pc from the frame (R168). -/
theorem controlInv_returned {s : State} {f : Frame} {frames : List Frame} {g5 : CRVal} {rest : List CRVal}
    (h : s.ControlInv) (hframes : s.callStack = f :: frames) (hcr5 : s.cr5Stack = g5 :: rest) (e cl code : Gt)
    (mask : BitVec 12) : (applyMask (returned s f frames g5 rest e cl code) mask).ControlInv := by
  obtain ⟨-, hdepth, hroom, hnia, hlumps⟩ := h
  rw [hframes] at hdepth hroom hnia
  rw [hcr5] at hdepth
  obtain ⟨hf, hframes⟩ := List.forall_mem_cons.mp hnia
  exact applyMask_preserves (fun _ _ ht => ht) ⟨hf, Nat.succ.inj hdepth, Nat.le_of_succ_le hroom, hframes, hlumps⟩
    mask

/-- Saving the running thread keeps every lump's pc inside the pc range (R40, R184). -/
theorem lumpsSaved_pc_lt {s : State} (h : s.ControlInv) (hpc : s.HasNextPc) :
    ∀ e ∈ lumpsSaved s, e.2.pc < 2 ^ s.params.pcWidth.val := by
  obtain ⟨-, -, -, -, hlumps⟩ := h
  intro e he
  rcases mem_assocSet he with rfl | he
  · exact hpc
  · exact hlumps e he

/-- The pc a thread is loaded with is a saved one, or 0 (R184). -/
theorem lumpAt_pc_lt {lumps : List (Nat × Lump)} {n : Nat} (h : ∀ e ∈ lumps, e.2.pc < 2 ^ n) (id : Nat) :
    (lumpAt lumps id).pc < 2 ^ n := by
  rcases lumpAt_cases lumps id with ⟨e, he, heq⟩ | heq
  · exact heq ▸ h e he
  · exact heq ▸ Nat.two_pow_pos n

/-- A context switch draws the stacks within the invariant (log 9) and loads pc from a lump (R184). -/
theorem controlInv_switched {s : State} (h : s.ControlInv) (hpc : s.HasNextPc) (dst : CRNum) (v : CRVal) :
    (switched s dst v).ControlInv := by
  have hlumps := lumpsSaved_pc_lt h hpc
  refine ⟨?_, ?_, ?_, ?_, hlumps⟩
  · show (if _ then _ else _) < _
    split
    · exact lumpAt_pc_lt hlumps _
    · exact Nat.two_pow_pos _
  · simp [switched, anyThreadState]
  · simp [switched, anyThreadState]
  · intro f hf
    obtain ⟨p, -, rfl⟩ := List.mem_map.mp hf
    exact Nat.mod_lt _ (Nat.two_pow_pos _)

theorem transition_controlInv {i : Instr} {s t : State} (h : s.ControlInv) (ht : Transition s i t) :
    t.ControlInv := by
  cases ht with
  | callDirect _ hen => exact controlInv_entered h hen
  | callClist _ hen => exact controlInv_entered h hen
  | eloadcall hrd _ hen => exact controlInv_entered h ((enterable_setCr _ _ _ _ _ (ne_fifteen hrd)).mpr hen)
  | lambda _ ha => exact controlInv_applied h ha
  | xloadlambda hrd _ ha => exact controlInv_applied h ((applicable_setCr _ _ _ (ne_fifteen hrd)).mpr ha)
  | ret hframes hcr5 => exact controlInv_returned h hframes hcr5 ..
  | changeThread hpc => exact controlInv_switched h hpc ..
  | branch hn => exact ⟨hn, h.2⟩
  | _ => exact controlInv_advanced h ‹_› ..

/-- Settles O11: every transition keeps the invariant, and a step is a transition. -/
theorem stepKeepsControlInvariant : Obligations.StepKeepsControlInvariant := by
  intro s t h hstep
  obtain ⟨i, ht⟩ := transition_of_step hstep
  exact transition_controlInv h ht

end Sys2Proof.Machine

/-! PROOFS. Every GT stays legal: domain purity, E isolation and a non-zero `word0` (R31, R32, R342). -/

namespace Sys2Proof.Machine

/-- An answer looked up is listed. -/
theorem lookupKey_mem {κ ρ : Type} [DecidableEq κ] {k : κ} {r : ρ} {l : List (κ × ρ)}
    (h : lookupKey k l = some r) : (k, r) ∈ l := by
  induction l with
  | nil => cases h
  | cons e rest ih =>
    rw [lookupKey] at h
    split at h
    · rename_i hkey
      cases h
      exact hkey ▸ List.mem_cons_self
    · exact List.mem_cons_of_mem _ (ih h)

/-- What every answer of a table satisfies, an answer satisfies. -/
theorem ask_of_answers {κ ρ : Type} [DecidableEq κ] {t : Table κ ρ} {p : ρ → Bool} (h : t.Answers p) (v : View)
    (k : κ) : p (t.ask v k) = true := by
  obtain ⟨hview, halways, hother⟩ := h
  unfold Table.ask
  cases hv : lookupKey (v, k) t.atView with
  | some r => exact hview _ (lookupKey_mem hv)
  | none =>
    cases hk : lookupKey k t.always with
    | some r => exact halways _ (lookupKey_mem hk)
    | none => exact hother

/-! ### Legal values -/

theorem tokenLegal_iff (g : Gt) : tokenLegal g = true ↔ permsLegal g.perms = true ∧ g.word0 ≠ 0 := by
  simp [tokenLegal]

theorem permsLegal_iff (a : Perms) :
    permsLegal a = true ↔
      ((a.r = true ∨ a.w = true ∨ a.x = true) → ¬ (a.l = true ∨ a.s = true ∨ a.e = true)) ∧
        (a.e = true → ¬ (a.l = true ∨ a.s = true)) := by
  simp [permsLegal, imp_iff_not_or, and_assoc]

/-- Fewer permissions are still legal (R32, R209). -/
theorem permsLegal_inter {a : Perms} (m : Perms) (h : permsLegal a = true) :
    permsLegal (permsInter a m) = true := by
  rw [permsLegal_iff] at h ⊢
  simp only [permsInter, Bool.and_eq_true]
  grind

theorem tokenLegal_restricted {g : Gt} (m : Perms) (h : tokenLegal g = true) :
    tokenLegal { g with perms := permsInter g.perms m } = true := by
  rw [tokenLegal_iff] at h ⊢
  exact ⟨permsLegal_inter m h.1, h.2⟩

/-- A free value is drawn legal (log 9). -/
theorem tokenLegal_legalised (g : Gt) : tokenLegal (legalised g) = true := by
  rw [tokenLegal_iff, legalised]
  constructor
  · dsimp only
    split
    · assumption
    · rfl
  · dsimp only
    split
    · decide
    · assumption

theorem crLegal_map_legalised (v : CRVal) : crLegal (v.map legalised) = true := by
  cases v with
  | none => rfl
  | some g => exact tokenLegal_legalised g

theorem wordLegal_legalisedWord (w : MemWord) : wordLegal (legalisedWord w) = true := by
  cases w with
  | data x => rfl
  | token g => exact tokenLegal_legalised g

theorem wordLegal_pack {v : CRVal} (h : crLegal v = true) : wordLegal (pack v) = true := by
  cases v with
  | none => rfl
  | some g => exact h

/-! ### What a legal state answers -/

/-- A word of memory is listed and legal, or is plain data. -/
theorem wordLegal_readCell {s : State} (h : s.LegalInv) (a : Nat) : wordLegal (Memory.readCell s.mem a) = true := by
  obtain ⟨-, -, -, -, hmem, -⟩ := h
  rcases readCell_cases s.mem a with ⟨c, hc, heq⟩ | heq
  · exact heq ▸ hmem c hc
  · rw [heq]
    rfl

/-- A stored word that is not 0 expands to a legal GT, a plain one with itself as `word0` (R140; log 20). -/
theorem tokenLegal_expandWord {s : State} (h : s.LegalInv) {w : MemWord} (hw : wordLegal w = true)
    (hne : w ≠ .data 0) : tokenLegal (expandWord s w) = true := by
  obtain ⟨-, -, -, -, -, -, hexpand, -⟩ := h
  cases w with
  | token g => exact hw
  | data x => exact (tokenLegal_iff _).mpr ⟨ask_of_answers hexpand s.view x, fun hx => hne (congrArg _ hx)⟩

/-- What a legal stored word loads as is legal; the G-bit plays no part (R140). -/
theorem crLegal_of_loadsAs {s : State} (h : s.LegalInv) {w : MemWord} {v : CRVal} (hw : wordLegal w = true)
    (hv : LoadsAs s w v) : crLegal v = true := by
  rcases hv with ⟨-, rfl⟩ | ⟨hne, -, -, rfl⟩
  · rfl
  · exact tokenLegal_expandWord h hw hne

theorem crLegal_of_slotHolds {s : State} (h : s.LegalInv) {c : CRVal} {slot : Nat} {needL : Bool} {v : CRVal}
    (hv : SlotHolds s c slot needL v) : crLegal v = true := by
  obtain ⟨t, -, -, -, -, hload⟩ := hv
  exact crLegal_of_loadsAs h (wordLegal_readCell h _) hload

theorem crLegal_of_crAt {s : State} (h : s.LegalInv) {i : CRNum} {g : Gt} (hg : s.crAt i = some g) :
    crLegal (some g) = true := by
  obtain ⟨hcr, -⟩ := h
  exact hg ▸ hcr i

/-- NSSplit's two answers have a `word0`, so they are legal with the permissions the machine gives them (R160). -/
theorem crLegal_of_nsSplit {s : State} (h : s.LegalInv) {e cl code : Gt}
    (hsplit : s.params.nsSplit.ask s.view e = some (cl, code)) :
    crLegal (withPerms cl permsL) = true ∧ crLegal (withPerms code permsX) = true := by
  obtain ⟨-, -, -, -, -, -, -, hanswers⟩ := h
  have hlegal := ask_of_answers hanswers s.view e
  rw [hsplit] at hlegal
  simpa [splitLegal, crLegal, withPerms, tokenLegal, permsLegal, permsL, permsX] using hlegal

/-! ### What keeps every GT legal -/

theorem legalInv_setCr {s : State} (h : s.LegalInv) (i : CRNum) {v : CRVal} (hv : crLegal v = true) :
    (s.setCr i v).LegalInv := by
  obtain ⟨hcr, hrest⟩ := h
  refine ⟨fun j => ?_, hrest⟩
  rw [setCr_crAt]
  split
  · exact hv
  · exact hcr j

theorem legalInv_setCurEgt {s : State} (h : s.LegalInv) {v : CRVal} (hv : crLegal v = true) :
    State.LegalInv { s with curEgt := v } := by
  obtain ⟨hcr, -, hrest⟩ := h
  exact ⟨hcr, hv, hrest⟩

/-- A write of legal content keeps memory legal, whether the entry is set or removed. -/
theorem legalInv_writeCell {s : State} (h : s.LegalInv) (a : Nat) {w : MemWord} (hw : wordLegal w = true) :
    State.LegalInv { s with mem := Memory.writeCell s.mem a w } := by
  obtain ⟨hcr, hegt, hframes, hcr5, hmem, hrest⟩ := h
  refine ⟨hcr, hegt, hframes, hcr5, fun c hc => ?_, hrest⟩
  simp only [Memory.writeCell] at hc
  split at hc
  · exact hmem c (List.mem_filter.mp hc).1
  · rcases mem_assocSet hc with rfl | hc
    · exact hw
    · exact hmem c hc

/-- A frame holds the running abstraction's E-GT, and `cr5_stack` the value of CR5 (R36, R37). -/
theorem legalInv_pushFrame {s : State} (h : s.LegalInv) (nia : Nat) : (pushFrame s nia).LegalInv := by
  obtain ⟨hcr, hegt, hframes, hcr5, hrest⟩ := h
  exact ⟨hcr, hegt, List.forall_mem_cons.mpr ⟨wordLegal_pack hegt, hframes⟩,
    List.forall_mem_cons.mpr ⟨hcr 5, hcr5⟩, hrest⟩

theorem legalInv_setDomain {s : State} (h : s.LegalInv) {cl code : Gt}
    (hdomain : crLegal (withPerms cl permsL) = true ∧ crLegal (withPerms code permsX) = true) :
    (setDomain s cl code).LegalInv :=
  legalInv_setCr (legalInv_setCr h 6 hdomain.1) 14 hdomain.2

theorem legalInv_entered {s : State} (h : s.LegalInv) {e cl code : Gt} (he : crLegal (some e) = true)
    (hen : Enterable s e cl code) : (entered s e cl code).LegalInv := by
  obtain ⟨-, -, -, -, hsplit⟩ := hen
  exact legalInv_setCurEgt (legalInv_setDomain (legalInv_pushFrame h _) (crLegal_of_nsSplit h hsplit)) he

/-- The lambda target keeps its `word0` and becomes X-only (R221). -/
theorem legalInv_applied {s : State} (h : s.LegalInv) {g : Gt} (hg : crLegal (some g) = true) :
    (applied s g).LegalInv := by
  have hword0 : g.word0 ≠ 0 := ((tokenLegal_iff g).mp hg).2
  exact legalInv_setCr (legalInv_pushFrame h _) 14 ((tokenLegal_iff _).mpr ⟨rfl, hword0⟩)

theorem legalInv_returned {s : State} (h : s.LegalInv) {f : Frame} {frames : List Frame} {g5 : CRVal}
    {rest : List CRVal} {e cl code : Gt} (hframes : s.callStack = f :: frames)
    (hcr5 : s.cr5Stack = g5 :: rest) (he : LoadsAs s f.egt (some e))
    (hsplit : s.params.nsSplit.ask s.view e = some (cl, code)) (mask : BitVec 12) :
    (applyMask (returned s f frames g5 rest e cl code) mask).LegalInv := by
  obtain ⟨-, -, hstack, hstack5, -⟩ := id h
  rw [hframes, List.forall_mem_cons] at hstack
  rw [hcr5, List.forall_mem_cons] at hstack5
  obtain ⟨hcr, -, -, -, hrest⟩ :=
    legalInv_setCr (legalInv_setDomain h (crLegal_of_nsSplit h hsplit)) 5 hstack5.1
  have hreturned : (returned s f frames g5 rest e cl code).LegalInv :=
    ⟨hcr, crLegal_of_loadsAs h hstack.1 he, hstack.2, hstack5.2, hrest⟩
  exact applyMask_preserves (P := State.LegalInv) (fun _ j ht => legalInv_setCr ht j rfl) hreturned mask

/-! ### The context switch -/

theorem lumpLegal_savedLump {s : State} (h : s.LegalInv) (pc : Nat) : lumpLegal (savedLump s pc) := by
  obtain ⟨hcr, -⟩ := h
  exact ⟨fun i => savedLump_cr s pc i ▸ hcr _, hcr 14, hcr 15⟩

theorem lumpLegal_unwrittenLump (id : Nat) : lumpLegal (unwrittenLump id) :=
  ⟨fun i => by simp [unwrittenLump, crLegal_map_legalised], crLegal_map_legalised _, crLegal_map_legalised _⟩

theorem lumpLegal_lumpsSaved {s : State} (h : s.LegalInv) : ∀ e ∈ lumpsSaved s, lumpLegal e.2 := by
  obtain ⟨-, -, -, -, -, hlumps, -⟩ := id h
  intro e he
  rcases mem_assocSet he with rfl | he
  · exact lumpLegal_savedLump h _
  · exact hlumps e he

theorem lumpLegal_lumpAt {lumps : List (Nat × Lump)} (h : ∀ e ∈ lumps, lumpLegal e.2) (id : Nat) :
    lumpLegal (lumpAt lumps id) := by
  rcases lumpAt_cases lumps id with ⟨e, he, heq⟩ | heq
  · exact heq ▸ h e he
  · exact heq ▸ lumpLegal_unwrittenLump id

/-- A register is one of CR0 to CR11, or one of CR12 to CR15. -/
theorem crNum_cases (j : CRNum) :
    (∃ k : Fin 12, j = ⟨k.val, by omega⟩) ∨ j = 12 ∨ j = 13 ∨ j = 14 ∨ j = 15 := by
  by_cases hj : j.val < 12
  · exact .inl ⟨⟨j.val, hj⟩, rfl⟩
  · exact .inr (privileged_cases (Nat.le_of_not_lt hj))

/-- The registers loaded from a legal lump are legal, and CR12 and CR13 stay as they were (R24, R184). -/
theorem crLegal_loadLump {s : State} {l : Lump} (hcr : ∀ i, crLegal (s.crAt i) = true) (hl : lumpLegal l)
    (j : CRNum) : crLegal ((loadLump s l).crAt j) = true := by
  obtain ⟨hlow, h14, h15⟩ := hl
  rcases crNum_cases j with ⟨k, rfl⟩ | rfl | rfl | rfl | rfl
  · exact loadLump_crAt_low s l k ▸ hlow k
  · exact hcr 12
  · exact hcr 13
  · exact h14
  · exact h15

/-- The thread state loaded from a legal lump is legal, with the free values drawn so (log 9). -/
theorem legalInv_anyThreadState_loadLump {s : State} (h : s.LegalInv) {l : Lump} (hl : lumpLegal l) :
    (anyThreadState (loadLump s l)).LegalInv := by
  obtain ⟨hcr, -, -, -, hrest⟩ := h
  refine ⟨crLegal_loadLump hcr hl, crLegal_map_legalised _, fun f hf => ?_, fun v hv => ?_, hrest⟩
  · obtain ⟨p, -, rfl⟩ := List.mem_map.mp hf
    exact wordLegal_legalisedWord _
  · obtain ⟨p, -, rfl⟩ := List.mem_map.mp hv
    exact crLegal_map_legalised _

theorem legalInv_switched {s : State} (h : s.LegalInv) (dst : CRNum) {v : CRVal} (hv : crLegal v = true) :
    (switched s dst v).LegalInv := by
  have hlumps := lumpLegal_lumpsSaved h
  obtain ⟨hcr, hegt, hframes, hcr5, hmem, -, hparams⟩ := h
  have hsaved : State.LegalInv { s with lumps := lumpsSaved s, curLump := switchTarget s dst v } :=
    ⟨hcr, hegt, hframes, hcr5, hmem, hlumps, hparams⟩
  exact legalInv_setCr (legalInv_anyThreadState_loadLump hsaved (lumpLegal_lumpAt hlumps _)) dst hv

theorem transition_legalInv {i : Instr} {s t : State} (h : s.LegalInv) (ht : Transition s i t) : t.LegalInv := by
  cases ht with
  | load _ _ hv => exact legalInv_setCr h _ (crLegal_of_slotHolds h hv)
  | save _ _ hg => exact legalInv_writeCell h _ (crLegal_of_crAt h hg)
  | callDirect he hen => exact legalInv_entered h (crLegal_of_crAt h he) hen
  | callClist he hen => exact legalInv_entered h (crLegal_of_slotHolds h he) hen
  | ret hframes hcr5 he hsplit => exact legalInv_returned h hframes hcr5 he hsplit _
  | changeSystemWide _ _ hv => exact legalInv_setCr h _ (crLegal_of_slotHolds h hv)
  | changeThread _ _ hv => exact legalInv_switched h _ (crLegal_of_slotHolds h hv)
  | switch _ _ hg => exact legalInv_setCr h _ (crLegal_of_crAt h hg)
  | tpermRestrict _ _ hg => exact legalInv_setCr h _ (tokenLegal_restricted _ (crLegal_of_crAt h hg))
  | lambda hg => exact legalInv_applied h (crLegal_of_crAt h hg)
  | eloadcall hrd he hen =>
    have hlegal := crLegal_of_slotHolds h he
    exact legalInv_entered (legalInv_setCr h _ hlegal) hlegal
      ((enterable_setCr _ _ _ _ _ (ne_fifteen hrd)).mpr hen)
  | xloadlambda _ hg =>
    have hlegal := crLegal_of_slotHolds h hg
    exact legalInv_applied (legalInv_setCr h _ hlegal) hlegal
  | dwrite => exact legalInv_writeCell h _ rfl
  | _ => exact h

/-- Settles O13: every transition keeps the GTs legal, and a step is a transition. -/
theorem stepKeepsTokensLegal : Obligations.StepKeepsTokensLegal := by
  intro s t h hstep
  obtain ⟨i, ht⟩ := transition_of_step hstep
  exact transition_legalInv h ht

end Sys2Proof.Machine

/-! PROOFS. Which instructions write each kind of state (R21, R23, R29, R61). -/

namespace Sys2Proof.Machine

/-! ### Privileged registers -/

theorem ne_of_lt_of_le {i j : CRNum} (hi : i.val < 12) (hj : 12 ≤ j.val) : j ≠ i := by
  rintro rfl
  omega

theorem setCr_crAt_privileged (s : State) {i j : CRNum} (v : CRVal) (hi : i.val < 12) (hj : 12 ≤ j.val) :
    (s.setCr i v).crAt j = s.crAt j := setCr_crAt_ne s v (ne_of_lt_of_le hi hj)

/-- Enter writes CR14 of the privileged registers (R160). -/
theorem entered_crAt_privileged (s : State) (e cl code : Gt) {j : CRNum} (hj : 12 ≤ j.val) (h14 : j ≠ 14) :
    (entered s e cl code).crAt j = s.crAt j := by
  rw [entered_crAt, if_neg h14, if_neg (ne_of_lt_of_le (by decide) hj)]

/-- Applying a lambda target writes CR14 alone (R221). -/
theorem applied_crAt_ne (s : State) (g : Gt) {j : CRNum} (h14 : j ≠ 14) : (applied s g).crAt j = s.crAt j := by
  rw [applied_crAt, if_neg h14]

/-- RETURN writes CR14 of the privileged registers: its mask and CR5 are below them (R168). -/
theorem returned_crAt_privileged (s : State) (f : Frame) (frames : List Frame) (g5 : CRVal) (rest : List CRVal)
    (e cl code : Gt) (mask : BitVec 12) {j : CRNum} (hj : 12 ≤ j.val) (h14 : j ≠ 14) :
    (applyMask (returned s f frames g5 rest e cl code) mask).crAt j = s.crAt j := by
  have hmask : ¬ (j ∈ maskableCRs ∧ mask.getLsbD j.val = true) := by
    rw [mem_maskableCRs]
    omega
  rw [returned_crAt, if_neg hmask, if_neg (ne_of_lt_of_le (by decide) hj), if_neg h14,
    if_neg (ne_of_lt_of_le (by decide) hj)]

/-- A context switch keeps the system-wide CR12 and CR13 (R24, R184). -/
theorem switched_crAt_systemWide (s : State) {dst : CRNum} (v : CRVal) (hdst : dst = 14 ∨ dst = 15) {j : CRNum}
    (hj : j = 12 ∨ j = 13) : (switched s dst v).crAt j = s.crAt j := by
  have hne : j ≠ dst := by
    rcases hj with rfl | rfl <;> rcases hdst with rfl | rfl <;> decide
  rw [switched, setCr_crAt_ne _ _ hne, anyThreadState_crAt]
  rcases hj with rfl | rfl
  · exact loadLump_crAt_twelve ..
  · exact loadLump_crAt_thirteen ..

/-- A privileged register that changes is written by CHANGE or SWITCH of it or by a context switch, or is CR14
written by an entry or a return. -/
theorem privileged_written {i : Instr} {s t : State} (ht : Transition s i t) {j : CRNum} (hj : 12 ≤ j.val)
    (hne : t.crAt j ≠ s.crAt j) :
    ((j = 12 ∨ j = 13) ∧ ∃ c rs idx, i = .change c j rs idx) ∨
    ((j = 13 ∨ j = 15) ∧ ∃ c rs, i = .switch c j rs) ∨
    ((j = 14 ∨ j = 15) ∧ ∃ c rd rs idx, (rd = 14 ∨ rd = 15) ∧ i = .change c rd rs idx) ∨
    (j = 14 ∧ ((∃ c rs, i = .callDirect c rs) ∨ (∃ c rs offset, i = .callClist c rs offset) ∨
      (∃ c mask, i = .ret c mask) ∨ (∃ c rd, i = .lambda c rd) ∨
      (∃ c rd rs slot, i = .eloadcall c rd rs slot) ∨ (∃ c rd rs slot, i = .xloadlambda c rd rs slot))) := by
  cases ht with
  | load _ hrd => exact absurd (setCr_crAt_privileged s _ hrd hj) hne
  | tpermRestrict _ hrd => exact absurd (setCr_crAt_privileged s _ hrd hj) hne
  | changeSystemWide _ hrd =>
    obtain rfl := by_contra fun hji => hne (setCr_crAt_ne s _ hji)
    exact .inl ⟨hrd, _, _, _, rfl⟩
  | switch _ hrn =>
    obtain rfl := by_contra fun hji => hne (setCr_crAt_ne s _ hji)
    exact .inr (.inl ⟨hrn, _, _, rfl⟩)
  | changeThread _ hrd =>
    have hthread := (or_assoc.mpr (privileged_cases hj)).resolve_left
      fun hsystem => hne (switched_crAt_systemWide s _ hrd hsystem)
    exact .inr (.inr (.inl ⟨hthread, _, _, _, _, hrd, rfl⟩))
  | callDirect =>
    have h14 : j = 14 := by_contra fun h => hne (entered_crAt_privileged s _ _ _ hj h)
    exact .inr (.inr (.inr ⟨h14, by simp⟩))
  | callClist =>
    have h14 : j = 14 := by_contra fun h => hne (entered_crAt_privileged s _ _ _ hj h)
    exact .inr (.inr (.inr ⟨h14, by simp⟩))
  | ret =>
    have h14 : j = 14 := by_contra fun h => hne (returned_crAt_privileged s _ _ _ _ _ _ _ _ hj h)
    exact .inr (.inr (.inr ⟨h14, by simp⟩))
  | lambda =>
    have h14 : j = 14 := by_contra fun h => hne (applied_crAt_ne s _ h)
    exact .inr (.inr (.inr ⟨h14, by simp⟩))
  | eloadcall hrd =>
    have h14 : j = 14 := by_contra fun h =>
      hne ((entered_crAt_privileged _ _ _ _ hj h).trans (setCr_crAt_privileged s _ hrd hj))
    exact .inr (.inr (.inr ⟨h14, by simp⟩))
  | xloadlambda hrd =>
    have h14 : j = 14 := by_contra fun h => hne ((applied_crAt_ne _ _ h).trans (setCr_crAt_privileged s _ hrd hj))
    exact .inr (.inr (.inr ⟨h14, by simp⟩))
  | _ => exact absurd rfl hne

/-- Settles O15: of the ways a privileged register is written, those that fit each of CR12 to CR15. -/
theorem privilegedRegisterWriters : Obligations.PrivilegedRegisterWriters := by
  intro i s t hexec
  have hwritten {j : CRNum} := privileged_written (j := j) (transition_of_exec hexec)
  refine ⟨fun h12 => ?_, fun h13 => ?_, fun h15 => ?_, fun h14 => ?_⟩
  · simpa using hwritten (by decide) h12
  · simpa using hwritten (by decide) h13
  · simpa [or_comm] using hwritten (by decide) h15
  · simpa using hwritten (by decide) h14

/-! ### Flags -/

/-- Settles O16: entries, loads, stores and every other write of a register leave the flags. -/
theorem flagWriters : Obligations.FlagWriters := by
  intro i s t hexec hne
  cases transition_of_exec hexec with
  | mcmp | iadd | isub | ret => simp
  | tpermRestrict | tpermIgnored | tpermCheck => simp
  | changeThread _ hrd => rcases hrd with rfl | rfl <;> simp
  | _ => exact absurd rfl hne

/-! ### Data registers -/

/-- A write of one data register changes no other. -/
theorem eq_of_setDr_drAt_ne {s : State} {i j : DRNum} {x : Word} (h : (s.setDr i x).drAt j ≠ s.drAt j) : i = j :=
  by_contra fun hij => h (setDr_drAt_ne s x (Ne.symm hij))

/-- Settles O18: the seven writers write their own DRd, and a context switch loads them all. -/
theorem dataRegisterWriters : Obligations.DataRegisterWriters := by
  intro i s t j hexec hne
  cases transition_of_exec hexec with
  | dread | bfext | bfins | iadd | isub | shl | shr =>
    obtain rfl := eq_of_setDr_drAt_ne hne
    simp
  | changeThread _ hrd => rcases hrd with rfl | rfl <;> simp
  | ret => exact absurd (congrArg (·[j.val]) (applyMask_dr ..)) hne
  | _ => exact absurd rfl hne

/-! ### Memory -/

/-- Memory changes by a SAVE through S or a DWRITE through W, in the one word at the address its test gives. -/
theorem memory_written {i : Instr} {s t : State} (ht : Transition s i t) :
    t.mem = s.mem ∨
    (∃ c rd rs slot a w, i = .save c rd rs slot ∧ Accessible s (s.crAt rd) .s slot.toNat a ∧
      t.mem = Memory.writeCell s.mem a w) ∨
    (∃ c rd rs offset a w, i = .dwrite c rd rs offset ∧ Accessible s (s.crAt rd) .w offset.toNat a ∧
      t.mem = Memory.writeCell s.mem a w) := by
  cases ht with
  | save _ ha => exact .inr (.inl ⟨_, _, _, _, _, .token _, rfl, ha, rfl⟩)
  | dwrite _ ha => exact .inr (.inr ⟨_, _, _, _, _, _, rfl, ha, rfl⟩)
  | ret => exact .inl (applyMask_mem ..)
  | _ => exact .inl rfl

theorem sameMemoryExcept_writeCell (m : Memory) (a : Nat) (w : MemWord) :
    SameMemoryExcept m (Memory.writeCell m a w) a := fun _ hb => readCell_writeCell_ne m w hb

/-- A write outside a region leaves the region's words. -/
theorem readCell_writeCell_of_not_has {r : Region} {a b : Nat} (ha : ¬ r.Has a) (hb : r.Has b) (m : Memory)
    (w : MemWord) : Memory.readCell (Memory.writeCell m a w) b = Memory.readCell m b :=
  readCell_writeCell_ne m w fun heq => ha (heq ▸ hb)

/-- Settles O17: the one word written is at an address that W or S opens, which the premises keep apart. -/
theorem memoryWriters : Obligations.MemoryWriters := by
  intro i s t hexec
  rcases memory_written (transition_of_exec hexec) with hmem |
    ⟨c, rd, rs, slot, a, w, rfl, ha, hmem⟩ | ⟨c, rd, rs, offset, a, w, rfl, ha, hmem⟩ <;> rw [hmem]
  · exact ⟨absurd rfl, fun _ _ _ _ _ _ _ => rfl, fun _ _ _ _ _ _ => rfl⟩
  · refine ⟨fun _ => ?_, fun _ _ hsave => absurd rfl (hsave c rd rs slot), fun regions hapart r hr b hb => ?_⟩
    · obtain ⟨g, hg, -, -, -, rfl⟩ := ha
      exact .inl ⟨_, _, _, _, g, rfl, hg, sameMemoryExcept_writeCell s.mem _ w⟩
    · exact readCell_writeCell_of_not_has (StoresApartFrom_storable hapart (.inr rfl) ha r hr) hb ..
  · refine ⟨fun _ => ?_, fun _ hlaunch _ r hr b hb => ?_, fun regions hapart r hr b hb => ?_⟩
    · obtain ⟨g, hg, -, -, -, rfl⟩ := ha
      exact .inr ⟨_, _, _, _, g, rfl, hg, sameMemoryExcept_writeCell s.mem _ w⟩
    · exact readCell_writeCell_of_not_has (LaunchPremise_writable hlaunch ha r hr) hb ..
    · exact readCell_writeCell_of_not_has (StoresApartFrom_storable hapart (.inl rfl) ha r hr) hb ..

end Sys2Proof.Machine

/-! PROOFS. The whole next state of entries, returns and context switches, SAVE then LOAD, skips and reset. -/

namespace Sys2Proof.Machine

/-- An executed instruction whose effect answers takes the machine there (R131). -/
theorem exec_of_effectOf {i : Instr} {s t : State} (hc : condPass i.cond s.flags = true)
    (ht : effectOf i s = .ok t) : exec i s = .next t :=
  (exec_eq_next ..).mpr (.inl ⟨hc, ht⟩)

/-- An instruction that answers under a passing condition does so by its effect (R131). -/
theorem effectOf_of_exec {i : Instr} {s t : State} (ht : exec i s = .next t)
    (hc : condPass i.cond s.flags = true) : effectOf i s = .ok t := by
  rcases (exec_eq_next ..).mp ht with ⟨-, heffect⟩ | ⟨hskip, -⟩
  · exact heffect
  · exact absurd (hc.symm.trans hskip) (by decide)

/-! ### Skips and reset -/

/-- Settles O8: a skip is an advance of pc, whatever the instruction. -/
theorem failedConditionSkips : Obligations.FailedConditionSkips := by
  intro i s hskip hpc
  rw [exec_skip hskip, advance_ok hpc, toOutcome_ok]

/-- Settles O10, by evaluation of the reset state. -/
theorem resetMeetsTheInvariants : Obligations.ResetMeetsTheInvariants :=
  ⟨rfl, rfl, rfl, by decide, ⟨reset_mem_wf, .nil⟩, by decide⟩

/-! ### SAVE, then LOAD -/

/-- A stored GT loads as itself, with its permissions and B-bit, its G-bit reset (R65, R140). -/
theorem loadsAs_token {s : State} {g : Gt} (hvalid : valid s g = true)
    (hfbit : s.params.fbitLoad.ask s.view (.token g) = true) :
    LoadsAs s (.token g) (some { g with g := false }) :=
  .inr ⟨MemWord.noConfusion, hvalid, hfbit, rfl⟩

/-- Settles O22: SAVE leaves the GT's record in the slot, which LOAD reads at the same address. -/
theorem saveThenLoad : Obligations.SaveThenLoad := by
  intro c c' rd rs rd' rs' slot s t u g k hc hsave hg hk hmem hk' hc' hrd' hrs' h6 hpc hvk hl hvg hfbit
  obtain ⟨-, -, -, a, g', ⟨k', hk'', -, -, hbound, rfl⟩, hg', -, -, -, rfl⟩ :=
    (saveEffect_eq_ok ..).mp (effectOf_of_exec hsave hc)
  cases hg.symm.trans hg'
  cases hk.symm.trans hk''
  have hcell : Memory.readCell u.mem (k.base + slot.toNat) = .token g := by
    rw [hmem]
    exact readCell_writeCell_self s.mem (k.base + slot.toNat) (.token g)
  have hslot : SlotHolds u (u.crAt rs') slot.toNat (rs' != 6) (some { g with g := false }) :=
    ⟨k, hk', hvk, fun hneeds => hl (bne_iff_ne.mp hneeds), hbound, hcell ▸ loadsAs_token hvg hfbit⟩
  exact ⟨_, exec_of_effectOf hc' ((loadEffect_eq_ok ..).mpr ⟨hrd', hrs', h6, hpc, _, hslot, rfl⟩),
    setCr_crAt_self ..⟩

/-! ### Entries -/

/-- What Enter leaves of the context registers: CR6 and CR14 the callee's, the others as they were (R160). -/
theorem entered_crs (s : State) (e cl code : Gt) :
    (entered s e cl code).crAt 6 = some { cl with perms := { l := true } } ∧
      (entered s e cl code).crAt 14 = some { code with perms := { x := true } } ∧
      ∀ j, j ≠ 6 → j ≠ 14 → (entered s e cl code).crAt j = s.crAt j :=
  ⟨entered_crAt .., entered_crAt .., fun j h6 h14 => by rw [entered_crAt, if_neg h14, if_neg h6]⟩

/-- Settles O25: the E-GT that Enter enters is CRs's. -/
theorem callDirectResult : Obligations.CallDirectResult := by
  intro c rs s e cl code hc hrs he hen
  exact ⟨entered s e cl code,
    exec_of_effectOf hc ((callDirectEffect_eq_ok ..).mpr ⟨hrs, e, cl, code, he, hen, rfl⟩), rfl, entered_crs ..⟩

/-- Settles O26: the E-GT that Enter enters is the slot's. -/
theorem callClistResult : Obligations.CallClistResult := by
  intro c rs offset s e cl code hc hrs he hen
  exact ⟨entered s e cl code,
    exec_of_effectOf hc ((callClistEffect_eq_ok ..).mpr ⟨hrs, e, cl, code, he, hen, rfl⟩), rfl, entered_crs ..⟩

/-- CR5 as a load into CRd leaves it, which is what an entry behind the load pushes (R226). -/
theorem setCr_crAt_five (s : State) (rd : CRNum) (v : CRVal) :
    (s.setCr rd v).crAt 5 = if rd = 5 then v else s.crAt 5 := by
  rw [setCr_crAt]
  exact if_congr eq_comm rfl rfl

/-- Settles O42: Enter on the state with CRd loaded. -/
theorem eloadcallResult : Obligations.EloadcallResult := by
  intro c rd rs slot s e cl code hc hrd hrs h6 he hen
  obtain ⟨hcr6, hcr14, hrest⟩ := entered_crs (s.setCr rd (some e)) e cl code
  have h14 : rd ≠ 14 := (ne_of_lt_of_le hrd (by decide)).symm
  refine ⟨entered (s.setCr rd (some e)) e cl code,
    exec_of_effectOf hc ((eloadcallEffect_eq_ok ..).mpr ⟨hrd, hrs, h6, e, cl, code, he, hen, rfl⟩), ?_,
    (hrest rd h6 h14).trans (setCr_crAt_self ..), hcr6, hcr14,
    fun j hrd h6 h14 => (hrest j h6 h14).trans (setCr_crAt_ne s _ hrd)⟩
  rw [← setCr_crAt_five]
  rfl

/-- Settles O41: the state applied to CRd's GT. -/
theorem lambdaResult : Obligations.LambdaResult := by
  intro c rd s g hc hrd hg ha
  exact ⟨applied s g, exec_of_effectOf hc ((lambdaEffect_eq_ok ..).mpr ⟨hrd, g, hg, ha, rfl⟩), rfl,
    applied_crAt .., fun _ => applied_crAt_ne s g⟩

/-- Settles O43: the lambda target applied to the state with CRd loaded. -/
theorem xloadlambdaResult : Obligations.XloadlambdaResult := by
  intro c rd rs slot s g hc hrd hrs h6 hg ha
  have h14 : rd ≠ 14 := (ne_of_lt_of_le hrd (by decide)).symm
  refine ⟨applied (s.setCr rd (some g)) g,
    exec_of_effectOf hc ((xloadlambdaEffect_eq_ok ..).mpr ⟨hrd, hrs, h6, g, hg, ha, rfl⟩), ?_,
    (applied_crAt_ne _ g h14).trans (setCr_crAt_self ..), applied_crAt ..,
    fun j hrd h14 => (applied_crAt_ne _ g h14).trans (setCr_crAt_ne s _ hrd)⟩
  rw [← setCr_crAt_five]
  rfl

/-! ### RETURN -/

/-- A register that the mask does not make NULL is the popped CR5, the caller's CR14 or CR6, or unchanged (R168). -/
theorem returned_crAt_unmasked (s : State) (f : Frame) (frames : List Frame) (g5 : CRVal) (rest : List CRVal)
    (e cl code : Gt) {mask : BitVec 12} {j : CRNum} (h : j ∈ maskableCRs → mask.getLsbD j.val = false) :
    (applyMask (returned s f frames g5 rest e cl code) mask).crAt j =
      if j = 5 then g5
      else if j = 14 then withPerms code permsX
      else if j = 6 then withPerms cl permsL else s.crAt j := by
  rw [returned_crAt, if_neg]
  rintro ⟨hmem, hmask⟩
  exact Bool.eq_false_iff.mp (h hmem) hmask

/-- Settles O29: the mask is applied to the state returned to, and names CR0 to CR11 but CR6. -/
theorem returnResult : Obligations.ReturnResult := by
  intro c mask s f frames g5 rest e cl code hc h6 hframes hcr5 he hsplit
  have hexec : exec (.ret c mask) s = .next (applyMask (returned s f frames g5 rest e cl code) mask) :=
    exec_of_effectOf hc ((retEffect_eq_ok ..).mpr
      ⟨h6, f, frames, g5, rest, e, cl, code, hframes, hcr5, he, hsplit, rfl⟩)
  have hunmasked {j : CRNum} := returned_crAt_unmasked s f frames g5 rest e cl code (mask := mask) (j := j)
  have hprivileged {j : CRNum} := returned_crAt_privileged s f frames g5 rest e cl code mask (j := j)
  refine ⟨_, hexec, ?_, fun j hj hm => ?_, fun h5 => hunmasked fun _ => h5, hunmasked (absurd · (by decide)),
    hunmasked (absurd · (by decide)), fun j hj h5 h6 hm => ?_, hprivileged (by decide) (by decide),
    hprivileged (by decide) (by decide), hprivileged (by decide) (by decide)⟩
  · rw [applyMask_eq]
    rfl
  · have hne : j ≠ 6 := by
      rintro rfl
      exact Bool.eq_false_iff.mp h6 hm
    rw [returned_crAt, if_pos ⟨(mem_maskableCRs j).mpr ⟨hj, hne⟩, hm⟩]
  · have h14 : j ≠ 14 := (ne_of_lt_of_le hj (by decide)).symm
    rw [hunmasked fun _ => hm, if_neg h5, if_neg h14, if_neg h6]

/-! ### The context switch -/

/-- The running thread's lump is the saved one, and the other lumps are as they were (R184). -/
theorem assocFind_lumpsSaved (s : State) (id : Nat) :
    assocFind id (lumpsSaved s) =
      if id = s.curLump then some (savedLump s (s.pc + 1)) else assocFind id s.lumps :=
  assocFind_set ..

theorem lumpAt_of_some {lumps : List (Nat × Lump)} {id : Nat} {l : Lump} (h : assocFind id lumps = some l) :
    lumpAt lumps id = l := by
  rw [lumpAt, h, Option.getD_some]

theorem lumpAt_of_none {lumps : List (Nat × Lump)} {id : Nat} (h : assocFind id lumps = none) :
    lumpAt lumps id = unwrittenLump id := by
  rw [lumpAt, h, Option.getD_none]

/-- A register other than the destination is loaded from the target's lump (R184). -/
theorem switched_crAt_ne (s : State) {dst j : CRNum} (v : CRVal) (h : j ≠ dst) :
    (switched s dst v).crAt j = (loadLump { s with lumps := lumpsSaved s, curLump := switchTarget s dst v }
      (lumpAt (lumpsSaved s) (switchTarget s dst v))).crAt j :=
  setCr_crAt_ne _ v h

/-- CR0 to CR11, the data registers and pc are loaded from the target's lump (R184). -/
theorem switched_loads (s : State) {dst : CRNum} (v : CRVal) (hdst : 12 ≤ dst.val) {l : Lump}
    (hl : lumpAt (lumpsSaved s) (switchTarget s dst v) = l) :
    (∀ j : Fin 12, (switched s dst v).crAt ⟨j.val, by omega⟩ = l.cr[j.val]) ∧ (switched s dst v).dr = l.dr ∧
      (switched s dst v).pc = if l.activated then l.pc else 0 := by
  subst hl
  exact ⟨fun j => (switched_crAt_ne s v (ne_of_lt_of_le j.isLt hdst).symm).trans (loadLump_crAt_low ..), rfl, rfl⟩

/-- A slot holds one value (R141). -/
theorem slotHolds_unique {s : State} {c : CRVal} {slot : Nat} {needL : Bool} {v v' : CRVal}
    (h : SlotHolds s c slot needL v) (h' : SlotHolds s c slot needL v') : v = v' :=
  Except.ok.inj (((mLoad_eq_ok ..).mpr h).symm.trans ((mLoad_eq_ok ..).mpr h'))

theorem twelve_le_of_thread {rd : CRNum} (h : rd = 14 ∨ rd = 15) : 12 ≤ rd.val := by
  rcases h with rfl | rfl <;> decide

/-- CHANGE of CR14 or CR15 is a context switch with what its slot holds (R181, R184). -/
theorem changeEffect_thread_eq_ok {rd rs : CRNum} {idx : BitVec 15} {s t : State} (h : rd = 14 ∨ rd = 15) :
    changeEffect rd rs idx s = .ok t ↔
      rs.val < 12 ∧ s.HasNextPc ∧ ∃ v, SlotHolds s (s.crAt rs) idx.toNat true v ∧ t = switched s rd v := by
  have hsystem : ¬ (rd = 12 ∨ rd = 13) := by
    rcases h with rfl | rfl <;> decide
  simp only [changeEffect_eq_ok, if_neg hsystem, twelve_le_of_thread h, true_and]

/-- Settles O33: the fields of the state switched to, read from the lumps after the save. -/
theorem changeContextSwitchResult : Obligations.ChangeContextSwitchResult := by
  intro c rd rs idx s v hc hrd hrs hslot hpc
  have h12 := twelve_le_of_thread hrd
  refine ⟨switched s rd v,
    exec_of_effectOf hc ((changeEffect_thread_eq_ok hrd).mpr ⟨hrs, hpc, v, hslot, rfl⟩),
    ⟨savedLump s (s.pc + 1), (assocFind_lumpsSaved ..).trans (if_pos rfl), savedLump_cr s _, rfl, rfl, rfl, rfl,
      rfl⟩,
    fun id hid => (assocFind_lumpsSaved ..).trans (if_neg hid), rfl, fun l hl => ?_, fun hnone => ?_,
    setCr_crAt_self .., switched_crAt_systemWide s v hrd (.inl rfl), switched_crAt_systemWide s v hrd (.inr rfl),
    rfl, rfl⟩
  · obtain rfl := lumpAt_of_some hl
    obtain ⟨hlow, hdr, hpc⟩ := switched_loads s v h12 rfl
    refine ⟨hlow, hdr, hpc, ?_, ?_⟩ <;> rintro rfl <;> exact switched_crAt_ne s v (by decide)
  · obtain ⟨-, -, hpc⟩ := switched_loads s v h12 (lumpAt_of_none hnone)
    exact hpc

/-- Settles O34: the second switch loads the lump that the first one saved. -/
theorem threadResumes : Obligations.ThreadResumes := by
  intro c c' rd rs rd' rs' idx idx' s t u w v' hc hrd hleave hsame hother hc' hrd' _ hslot htarget hback
  obtain ⟨-, -, v, -, rfl⟩ := (changeEffect_thread_eq_ok hrd).mp (effectOf_of_exec hleave hc)
  obtain ⟨-, -, v'', hslot', rfl⟩ := (changeEffect_thread_eq_ok hrd').mp (effectOf_of_exec hback hc')
  obtain rfl := slotHolds_unique hslot hslot'
  have hsaved : assocFind s.curLump (lumpsSaved u) = some (savedLump s (s.pc + 1)) :=
    calc assocFind s.curLump (lumpsSaved u) = assocFind s.curLump u.lumps :=
          (assocFind_lumpsSaved ..).trans (if_neg hother.symm)
      _ = assocFind s.curLump (lumpsSaved s) := hsame
      _ = some (savedLump s (s.pc + 1)) := (assocFind_lumpsSaved ..).trans (if_pos rfl)
  have hlump : lumpAt (lumpsSaved u) (switchTarget u rd' v') = savedLump s (s.pc + 1) :=
    (congrArg (lumpAt _) htarget).trans (lumpAt_of_some hsaved)
  obtain ⟨hlow, hdr, hpc⟩ := switched_loads u v' (twelve_le_of_thread hrd') hlump
  exact ⟨hpc, hdr, htarget, fun j hj => (hlow ⟨j.val, hj⟩).trans (savedLump_cr s _ ⟨j.val, hj⟩)⟩

end Sys2Proof.Machine

/-! PROOFS. Where an instruction stops: at the end of the pc range, and by its operands (R25, R27, R302). -/

namespace Sys2Proof.Machine

/-! ### Operands that leave FAULT as the only stop -/

theorem onlyFault_require {b : Bool} (e : Stop) (h : b = true) : OnlyFault (require b e) := by
  rw [h]
  exact onlyFault_ok ()

theorem onlyFault_ordinaryCR {i : CRNum} (h : i.val < 12) : OnlyFault (ordinaryCR i) := by
  rw [ordinaryCR_ok h]
  exact onlyFault_ok ()

theorem onlyFault_contextSwitch (s : State) (dst : CRNum) (g : CRVal) : OnlyFault (contextSwitch s dst g) :=
  onlyFault_bind (onlyFault_nextPc s) fun _ => onlyFault_pure _

theorem onlyFault_loadToken {s : State} {rd rs : CRNum} (hrd : rd.val < 12) (hrs : rs.val < 12) (h6 : rd ≠ 6)
    (slot : BitVec 15) : OnlyFault (loadToken s rd rs slot) :=
  onlyFault_bind (onlyFault_ordinaryCR hrd) fun _ => onlyFault_bind (onlyFault_ordinaryCR hrs) fun _ =>
    onlyFault_bind (onlyFault_require _ (bne_iff_ne.mpr h6)) fun _ => onlyFault_mLoad _ _ _ _

/-- The operands pass every test of instruction `i` whose stop is not FAULT (R25, R144, R168, R188, R209, R253). -/
def OperandsFit (s : State) : Instr → Prop
  | .load _ rd rs _ | .eloadcall _ rd rs _ | .xloadlambda _ rd rs _ => rd.val < 12 ∧ rs.val < 12 ∧ rd ≠ 6
  | .save _ rd rs _ => rd.val < 12 ∧ rs.val < 12
  | .callDirect _ r | .callClist _ r _ | .lambda _ r | .dread _ _ r _ | .dwrite _ r _ _ => r.val < 12
  | .ret _ mask => mask.getLsbD 6 = false ∧ s.callStack ≠ []
  | .change _ rd rs _ => 12 ≤ rd.val ∧ rs.val < 12
  | .switch _ rn rs => (rn = 13 ∨ rn = 15) ∧ rs.val < 12
  | .tpermRestrict _ rd preset => rd.val < 12 ∨ s.crAt rd = none ∨ presetMask preset = none
  | .bfext _ _ _ width lsb | .bfins _ _ _ width lsb => 1 ≤ width.toNat ∧ width.toNat + lsb.toNat ≤ 32
  | .tpermCheck .. | .mcmp .. | .iadd .. | .isub .. | .branch .. | .shl .. | .shr .. => True

theorem onlyFault_bitfieldInRange {width : BitVec 6} {lsb : BitVec 5}
    (h : 1 ≤ width.toNat ∧ width.toNat + lsb.toNat ≤ 32) : OnlyFault (bitfieldInRange width lsb) := by
  rw [(bitfieldInRange_eq_ok width lsb ()).mpr h]
  exact onlyFault_ok ()

/-- RETURN with a frame to pop stops by FAULT alone (R168; log 13). -/
theorem onlyFault_retEffect {s : State} {mask : BitVec 12} (hmask : mask.getLsbD 6 = false)
    (hframes : s.callStack ≠ []) : OnlyFault (retEffect mask s) := by
  refine onlyFault_bind (onlyFault_require _ (by rw [hmask]; rfl)) fun _ => ?_
  split
  · contradiction
  · refine onlyFault_bind (onlyFault_mLoadWord _ _) fun _ => onlyFault_bind (onlyFault_nonNull _) fun _ =>
      onlyFault_bind (onlyFault_nsSplit _ _) fun _ => ?_
    split
    · exact onlyFault_raise
    · exact onlyFault_pure _

theorem onlyFault_changeEffect {s : State} {rd rs : CRNum} (hrd : 12 ≤ rd.val) (hrs : rs.val < 12)
    (idx : BitVec 15) : OnlyFault (changeEffect rd rs idx s) := by
  refine onlyFault_bind (onlyFault_require _ (decide_eq_true hrd)) fun _ =>
    onlyFault_bind (onlyFault_ordinaryCR hrs) fun _ => onlyFault_bind (onlyFault_mLoad _ _ _ _) fun v => ?_
  split
  · exact onlyFault_advance _
  · exact onlyFault_contextSwitch s rd v

/-- With operands that fit, an executed instruction has no stop but FAULT (R302). -/
theorem onlyFault_effectOf {i : Instr} {s : State} (h : OperandsFit s i) : OnlyFault (effectOf i s) := by
  cases i with
  | load =>
    obtain ⟨hrd, hrs, h6⟩ := h
    exact onlyFault_bind (onlyFault_loadToken hrd hrs h6 _) fun _ => onlyFault_advance _
  | save =>
    obtain ⟨hrd, hrs⟩ := h
    exact onlyFault_bind (onlyFault_ordinaryCR hrd) fun _ => onlyFault_bind (onlyFault_ordinaryCR hrs) fun _ =>
      onlyFault_bind (onlyFault_mSave _ _ _ _) fun _ => onlyFault_advance _
  | callDirect =>
    exact onlyFault_bind (onlyFault_ordinaryCR h) fun _ => onlyFault_bind (onlyFault_nonNull _) fun _ =>
      onlyFault_enter _ _
  | callClist =>
    exact onlyFault_bind (onlyFault_ordinaryCR h) fun _ => onlyFault_bind (onlyFault_mLoad _ _ _ _) fun _ =>
      onlyFault_bind (onlyFault_nonNull _) fun _ => onlyFault_enter _ _
  | ret => exact onlyFault_retEffect h.1 h.2
  | change => exact onlyFault_changeEffect h.1 h.2 _
  | switch =>
    obtain ⟨hrn, hrs⟩ := h
    exact onlyFault_bind (onlyFault_require _ (by simpa using hrn)) fun _ =>
      onlyFault_bind (onlyFault_ordinaryCR hrs) fun _ => onlyFault_bind (onlyFault_nonNull _) fun _ =>
        onlyFault_bind (onlyFault_check _) fun _ => onlyFault_bind (onlyFault_check _) fun _ =>
          onlyFault_advance _
  | tpermRestrict =>
    exact onlyFault_bind (onlyFault_require _ ((tpermAllowed_iff ..).mpr h)) fun _ => onlyFault_advance _
  | lambda => exact onlyFault_bind (onlyFault_ordinaryCR h) fun _ => onlyFault_applyLambda _ _
  | eloadcall =>
    obtain ⟨hrd, hrs, h6⟩ := h
    exact onlyFault_bind (onlyFault_loadToken hrd hrs h6 _) fun _ => onlyFault_bind (onlyFault_nonNull _) fun _ =>
      onlyFault_enter _ _
  | xloadlambda =>
    obtain ⟨hrd, hrs, h6⟩ := h
    exact onlyFault_bind (onlyFault_loadToken hrd hrs h6 _) fun _ => onlyFault_applyLambda _ _
  | dread =>
    exact onlyFault_bind (onlyFault_ordinaryCR h) fun _ => onlyFault_bind (onlyFault_checkAccess _ _ _ _) fun _ =>
      onlyFault_advance _
  | dwrite =>
    exact onlyFault_bind (onlyFault_ordinaryCR h) fun _ => onlyFault_bind (onlyFault_checkAccess _ _ _ _) fun _ =>
      onlyFault_advance _
  | bfext => exact onlyFault_bind (onlyFault_bitfieldInRange h) fun _ => onlyFault_advance _
  | bfins => exact onlyFault_bind (onlyFault_bitfieldInRange h) fun _ => onlyFault_advance _
  | branch => exact onlyFault_jump _ _
  | tpermCheck | mcmp | iadd | isub | shl | shr => exact onlyFault_advance _

/-! ### The end of the pc range -/

/-- The instruction computes `pc + 1`: RETURN and BRANCH, executed, do not (R27). -/
def computesNextPc : Instr → Bool
  | .ret .. | .branch .. => false
  | _ => true

theorem hasNextPc_of_transition {i : Instr} {s t : State} (ht : Transition s i t) (hi : computesNextPc i = true) :
    s.HasNextPc := by
  cases ht with
  | callDirect _ hen | callClist _ hen | eloadcall _ _ hen =>
    obtain ⟨-, -, hpc, -⟩ := hen
    exact hpc
  | lambda _ ha | xloadlambda _ _ ha =>
    obtain ⟨-, -, -, hpc, -⟩ := ha
    exact hpc
  | ret | branch => cases hi
  | _ => assumption

/-- At the last offset, an instruction that computes `pc + 1` is FAULT (R27, R302). -/
theorem exec_fault_of_not_hasNextPc {i : Instr} {s : State} (hpc : ¬ s.HasNextPc)
    (hc : condPass i.cond s.flags = true) (hi : computesNextPc i = true) (hfit : OperandsFit s i) :
    exec i s = .fault .fault := by
  rw [exec_eq_underCond]
  exact underCond_fault hc (onlyFault_effectOf hfit) fun t ht =>
    hpc (hasNextPc_of_transition (transition_of_effectOf ht) hi)

/-- Settles O60: a skip advances pc, and every form listed computes `pc + 1` with operands that fit. -/
theorem pcRangeFaults : Obligations.PcRangeFaults := by
  intro s hpc
  have hadvance : toOutcome (advance s) = .fault .fault := by rw [advance_fault hpc, toOutcome_fault]
  refine ⟨fun i hskip => (exec_skip hskip).trans hadvance, fun w r hfetch hdecode hskip => ?_, fun c hc => ?_⟩
  · rw [step_of_fetch hfetch, runWord, hdecode]
    exact (underCond_fail hskip _).trans hadvance
  · have hfault {i : Instr} (hi : i.cond = c) (hnext : computesNextPc i = true) (hfit : OperandsFit s i) :
        exec i s = .fault .fault := exec_fault_of_not_hasNextPc hpc (hi ▸ hc) hnext hfit
    exact ⟨fun rd rs slot hrd hrs => ⟨hfault rfl rfl ⟨hrd, hrs⟩, fun h6 =>
        ⟨hfault rfl rfl ⟨hrd, hrs, h6⟩, hfault rfl rfl ⟨hrd, hrs, h6⟩, hfault rfl rfl ⟨hrd, hrs, h6⟩⟩⟩,
      fun rd rs idx hrd hrs => hfault rfl rfl ⟨hrd, hrs⟩,
      fun rn rs hrn hrs => hfault rfl rfl ⟨hrn, hrs⟩,
      fun r hr => ⟨hfault rfl rfl hr, fun _ => hfault rfl rfl hr, hfault rfl rfl hr,
        fun _ _ => ⟨hfault rfl rfl hr, hfault rfl rfl hr⟩⟩,
      fun _ _ _ => hfault rfl rfl trivial,
      fun _ _ hallowed => hfault rfl rfl hallowed,
      fun _ _ _ _ hwidth hfield => ⟨hfault rfl rfl ⟨hwidth, hfield⟩, hfault rfl rfl ⟨hwidth, hfield⟩⟩,
      fun _ _ => hfault rfl rfl trivial,
      fun _ _ _ => ⟨hfault rfl rfl trivial, hfault rfl rfl trivial, hfault rfl rfl trivial,
        hfault rfl rfl trivial⟩⟩

/-! ### Operands that stop an instruction -/

/-- A stop is passed on, whatever comes behind it. -/
theorem bind_of_error {α β : Type} {x : Res α} {e : Stop} (h : x = .error e) (f : α → Res β) :
    (x >>= f) = .error e := by
  rw [h, error_bind]

theorem ordinaryCR_privReg {i : CRNum} (h : 12 ≤ i.val) : ordinaryCR i = .error (.fault .privReg) :=
  ordinaryCR_fault (Nat.not_lt_of_le h)

/-- Two ordinary operands, tested one behind the other: PRIV_REG if either is privileged (R25). -/
theorem ordinaryCR_pair_privReg {α : Type} {i j : CRNum} (h : 12 ≤ i.val ∨ 12 ≤ j.val) (f : Unit → Res α) :
    (ordinaryCR i >>= fun _ => ordinaryCR j >>= f) = .error (.fault .privReg) := by
  by_cases hi : i.val < 12
  · rw [ordinaryCR_ok hi, ok_bind]
    exact bind_of_error (ordinaryCR_privReg (h.resolve_left (Nat.not_le_of_lt hi))) f
  · exact bind_of_error (ordinaryCR_fault hi) _

theorem loadToken_privReg {rd rs : CRNum} (h : 12 ≤ rd.val ∨ 12 ≤ rs.val) (s : State) (slot : BitVec 15) :
    loadToken s rd rs slot = .error (.fault .privReg) :=
  ordinaryCR_pair_privReg h _

/-- CHANGE's destination is CR12 to CR15 and its source is not (R181). -/
theorem changeEffect_privReg {rd rs : CRNum} (h : rd.val < 12 ∨ 12 ≤ rs.val) (idx : BitVec 15) (s : State) :
    changeEffect rd rs idx s = .error (.fault .privReg) := by
  by_cases hrd : 12 ≤ rd.val
  · rw [changeEffect, decide_eq_true hrd, require_true, ok_bind]
    exact bind_of_error (ordinaryCR_privReg (h.resolve_left (Nat.not_lt_of_le hrd))) _
  · rw [changeEffect, decide_eq_false hrd, require_false, error_bind]

theorem tpermRestrictEffect_refused {rd : CRNum} {preset : BitVec 4} {s : State} (hrd : 12 ≤ rd.val)
    (hcr : s.crAt rd ≠ none) (hpreset : presetMask preset ≠ none) :
    tpermRestrictEffect rd preset s = .error (.refuse .privilegedDestination) := by
  have hrefused : (decide (rd.val < 12) || !tpermWrites rd preset s) = false := by
    rw [Bool.eq_false_iff, ne_eq, tpermAllowed_iff]
    simp [hcr, hpreset, hrd]
  rw [tpermRestrictEffect, hrefused, require_false, error_bind]

theorem bitfieldInRange_refused {width : BitVec 6} {lsb : BitVec 5}
    (h : width.toNat = 0 ∨ 32 < width.toNat + lsb.toNat) :
    bitfieldInRange width lsb = .error (.refuse .bitfieldRange) := by
  have hrange : (decide (1 ≤ width.toNat) && decide (width.toNat + lsb.toNat ≤ 32)) = false := by
    rw [Bool.eq_false_iff, ne_eq, Bool.and_eq_true, decide_eq_true_eq, decide_eq_true_eq]
    omega
  rw [bitfieldInRange, hrange, require_false]

/-- Settles O46: the operand tests stand before every other test of an instruction. -/
theorem operandsThatStop : Obligations.OperandsThatStop := by
  intro c s hc
  refine ⟨fun rd rs n h => ?_, fun rd rs n h => underCond_stop_fault hc (changeEffect_privReg h n s),
    fun r hr => ?_, fun rd rs width lsb h => ?_⟩
  · have hload := loadToken_privReg h s n
    exact ⟨underCond_stop_fault hc (bind_of_error hload _),
      underCond_stop_fault hc (ordinaryCR_pair_privReg h _),
      underCond_stop_fault hc (bind_of_error hload _), underCond_stop_fault hc (bind_of_error hload _)⟩
  · have hfault {α : Type} (f : Unit → Res α) := bind_of_error (ordinaryCR_privReg hr) f
    exact ⟨underCond_stop_fault hc (hfault _), fun _ => underCond_stop_fault hc (hfault _),
      underCond_stop_fault hc (hfault _),
      fun _ _ => ⟨underCond_stop_fault hc (hfault _), underCond_stop_fault hc (hfault _)⟩,
      underCond_stop_fault hc (hfault _), underCond_stop_fault hc (hfault _),
      fun _ hcr hpreset => underCond_stop_refuse hc (tpermRestrictEffect_refused hr hcr hpreset)⟩
  · have hrange := bitfieldInRange_refused h
    exact ⟨underCond_stop_refuse hc (bind_of_error hrange _), underCond_stop_refuse hc (bind_of_error hrange _)⟩

end Sys2Proof.Machine

/-! PROOFS. Memory access: FAULT exactly where CheckAccess fails, at a fetch and at a data access (R70, R72). -/

namespace Sys2Proof.Machine

/-- No word is accessible exactly where the value is NULL or its GT fails one of the tests (R72). -/
theorem not_accessible_iff (s : State) (v : CRVal) (p : Perm) (off : Nat) :
    (∀ a, ¬ Accessible s v p off a) ↔
      ∀ g, v = some g → valid s g = false ∨ permIn p g.perms = false ∨ g.limit < g.base + off := by
  constructor
  · intro h g hg
    by_contra hpass
    simp only [not_or, Bool.not_eq_false, Nat.not_lt] at hpass
    obtain ⟨hvalid, hperm, hbound⟩ := hpass
    exact h _ ⟨g, hg, hvalid, hperm, hbound, rfl⟩
  · rintro h a ⟨g, hg, hvalid, hperm, hbound, -⟩
    rcases h g hg with hinvalid | hmissing | hbeyond
    · exact Bool.eq_false_iff.mp hinvalid hvalid
    · exact Bool.eq_false_iff.mp hmissing hperm
    · exact Nat.not_le_of_lt hbeyond hbound

/-! ### The fetch -/

/-- A fetch that faults ends the step, before any word or condition is known (R133). -/
theorem step_of_fetch_fault {s : State} {f : Fault} (hfetch : fetch s = .error (.fault f)) :
    step s = .fault f := by
  simp only [step, hfetch]

/-- Settles O6: with no accessible word at pc, the fetch stops the step. -/
theorem fetchFaults : Obligations.FetchFaults := by
  intro s h
  exact step_of_fetch_fault (fetch_fault ((not_accessible_iff ..).mpr h))

/-! ### Data access -/

/-- With operands that fit, an executed instruction is FAULT exactly where its effect does not answer (R302). -/
theorem exec_fault_iff {i : Instr} {s : State} (hc : condPass i.cond s.flags = true) (hfit : OperandsFit s i) :
    exec i s = .fault .fault ↔ ∀ t, effectOf i s ≠ .ok t := by
  constructor
  · intro hfault t ht
    cases hfault.symm.trans (exec_of_effectOf hc ht)
  · intro hnone
    rw [exec_eq_underCond]
    exact underCond_fault hc (onlyFault_effectOf hfit) hnone

/-- An instruction that answers exactly at an accessible word is FAULT exactly where CheckAccess fails (R72). -/
theorem exec_fault_iff_access_fails {i : Instr} {s : State} {v : CRVal} {p : Perm} {off : Nat}
    {next : Nat → State} (hc : condPass i.cond s.flags = true) (hfit : OperandsFit s i)
    (hok : ∀ t, effectOf i s = .ok t ↔ ∃ a, Accessible s v p off a ∧ t = next a) :
    exec i s = .fault .fault ↔
      ∀ g, v = some g → valid s g = false ∨ permIn p g.perms = false ∨ g.limit < g.base + off := by
  rw [exec_fault_iff hc hfit, ← not_accessible_iff]
  constructor
  · intro hnone a ha
    exact hnone (next a) ((hok _).mpr ⟨a, ha, rfl⟩)
  · intro hnone t ht
    obtain ⟨a, ha, -⟩ := (hok t).mp ht
    exact hnone a ha

/-- Settles O49: inside the pc range and with an ordinary register, the access is what is left to fail. -/
theorem dataAccessFaults : Obligations.DataAccessFaults := by
  intro c r d offset s hc hr hpc
  have hexecuted {q : Prop} : (r.val < 12 ∧ s.HasNextPc ∧ q) ↔ q := by
    rw [and_iff_right hr, and_iff_right hpc]
  exact ⟨exec_fault_iff_access_fails (p := .r) hc hr fun _ => (dreadEffect_eq_ok ..).trans hexecuted,
    exec_fault_iff_access_fails (p := .w) hc hr fun _ => (dwriteEffect_eq_ok ..).trans hexecuted⟩

end Sys2Proof.Machine

/-! PROOFS. Decoding and encoding: each is the other's inverse, and which words are no instruction (R91 to R108). -/

namespace Sys2Proof

/-! ### A word is written from its fields -/

/-- The five fields of R91 cover the word, so a word with these fields is the one written from them (R121). -/
theorem mkWord_eq {w : Word} {op : BitVec 5} {dst src : BitVec 4} {imm : BitVec 15}
    (hop : (opcodeField w).toNat = op.toNat) (hdst : dstField w = dst) (hsrc : srcField w = src)
    (himm : immField w = imm) : mkWord op (condOf w) dst src imm = w := by
  obtain rfl := BitVec.eq_of_toNat_eq hop
  subst hdst hsrc himm
  have to23 : opcodeField w ++ condField w = w.extractLsb' 23 9 :=
    BitVec.extractLsb'_append_extractLsb'_eq_extractLsb' rfl
  have to19 : w.extractLsb' 23 9 ++ dstField w = w.extractLsb' 19 13 :=
    BitVec.extractLsb'_append_extractLsb'_eq_extractLsb' rfl
  have to15 : w.extractLsb' 19 13 ++ srcField w = w.extractLsb' 15 17 :=
    BitVec.extractLsb'_append_extractLsb'_eq_extractLsb' rfl
  have to0 : w.extractLsb' 15 17 ++ immField w = w.extractLsb' 0 32 :=
    BitVec.extractLsb'_append_extractLsb'_eq_extractLsb' rfl
  rw [mkWord, condOf, code_ofCode, to23, to19, to15, to0, BitVec.extractLsb'_eq_self]

/-- A word with RETURN's opcode and zeros in bits 22:12 is RETURN's word for its low twelve bits (R99). -/
theorem returnWord_eq {w : Word} (hop : (opcodeField w).toNat = 3) (hzeros : w.extractLsb' 12 11 = 0#11) :
    returnWord (condOf w) (w.extractLsb' 0 12) = w := by
  have hopcode : 3#5 = opcodeField w := BitVec.eq_of_toNat_eq hop.symm
  have to23 : opcodeField w ++ condField w = w.extractLsb' 23 9 :=
    BitVec.extractLsb'_append_extractLsb'_eq_extractLsb' rfl
  have to12 : w.extractLsb' 23 9 ++ w.extractLsb' 12 11 = w.extractLsb' 12 20 :=
    BitVec.extractLsb'_append_extractLsb'_eq_extractLsb' rfl
  have to0 : w.extractLsb' 12 20 ++ w.extractLsb' 0 12 = w.extractLsb' 0 32 :=
    BitVec.extractLsb'_append_extractLsb'_eq_extractLsb' rfl
  rw [returnWord, condOf, code_ofCode, hopcode, ← hzeros, to23, to12, to0, BitVec.extractLsb'_eq_self]

/-- An immediate with zeros in bits 14:11 is its width and lsb sub-fields put together (R104). -/
theorem bitfieldImm_eq {imm : BitVec 15} (hunused : bitfieldUnused imm = 0#4) :
    bitfieldImm (widthField imm) (lsbField imm) = imm := by
  have to5 : bitfieldUnused imm ++ widthField imm = imm.extractLsb' 5 10 :=
    BitVec.extractLsb'_append_extractLsb'_eq_extractLsb' rfl
  have to0 : imm.extractLsb' 5 10 ++ lsbField imm = imm.extractLsb' 0 15 :=
    BitVec.extractLsb'_append_extractLsb'_eq_extractLsb' rfl
  rw [bitfieldImm, ← hunused, to5, to0, BitVec.extractLsb'_eq_self]

/-! ### The two round trips -/

theorem ifUnusedZero_eq_ok (b : Bool) (i j : Instr) : ifUnusedZero b i = .ok j ↔ b = true ∧ i = j := by
  cases b <;> simp [ifUnusedZero]

/-- Settles O1: the decoder reads back the fields that the encoder wrote, and a well-formed instruction is on its
own side of the three splits that one opcode makes by a field's value. -/
theorem decodeOfEncode : Obligations.DecodeOfEncode := by
  intro i hwf
  cases i with
  | callClist c rs offset =>
    have hclist : offset ≠ 15#4 := by simpa [Instr.wf] using hwf
    simp [encode, decode, ifUnusedZero, hclist]
  | tpermCheck c rd preset offset =>
    have hcheck : offset ≠ 0x7FFF#15 := by simpa [Instr.wf] using hwf
    simp [encode, decode, hcheck]
  | ret c mask =>
    have hbit6 : mask.getLsbD 6 = false := by simpa [Instr.wf] using hwf
    have hword : (returnWord c mask).getLsbD 6 = false := (returnWord_getLsbD c mask 6 (by decide)).trans hbit6
    simp only [encode, decode, opcodeField_returnWord, BitVec.reduceToNat, returnWord_zeros, hword, and_self,
      if_true, condOf_returnWord, returnWord_mask]
  | _ => simp [encode, decode, ifUnusedZero]

/-- Settles O2: in each branch of the decoder, the tests made there fix the fields that the instruction does not
carry. -/
theorem encodeOfDecode : Obligations.EncodeOfDecode := by
  intro w i h
  unfold decode at h
  split at h
  -- The branch of opcode n has the tag h_(n + 1). First the opcodes whose instruction uses every field.
  case h_1 hop | h_2 hop | h_5 hop | h_9 hop | h_10 hop | h_11 hop | h_12 hop | h_16 hop | h_17 hop | h_19 hop
      | h_20 hop =>
    cases h
    exact ⟨rfl, mkWord_eq hop rfl rfl rfl⟩
  -- CALL: the dst field selects the mode (R102).
  case h_3 hop =>
    obtain ⟨himm, rfl⟩ := (ifUnusedZero_eq_ok ..).mp h
    by_cases hdst : dstField w = 15#4
    · rw [if_pos hdst]
      exact ⟨rfl, mkWord_eq hop hdst rfl (eq_of_beq himm)⟩
    · rw [if_neg hdst]
      exact ⟨bne_iff_ne.mpr hdst, mkWord_eq hop rfl rfl (eq_of_beq himm)⟩
  -- RETURN (R99).
  case h_4 hop =>
    by_cases hlegal : w.extractLsb' 12 11 = 0#11 ∧ w.getLsbD 6 = false
    · cases (if_pos hlegal).symm.trans h
      obtain ⟨hzeros, hbit6⟩ := hlegal
      exact ⟨by simpa [Instr.wf] using hbit6, returnWord_eq hop hzeros⟩
    · cases (if_neg hlegal).symm.trans h
  -- SWITCH and MCMP use no immediate.
  case h_6 hop | h_15 hop =>
    obtain ⟨himm, rfl⟩ := (ifUnusedZero_eq_ok ..).mp h
    exact ⟨rfl, mkWord_eq hop rfl rfl (eq_of_beq himm)⟩
  -- TPERM: the immediate selects the mode (R101).
  case h_7 hop =>
    by_cases himm : immField w = 0x7FFF#15
    · cases (if_pos himm).symm.trans h
      exact ⟨rfl, mkWord_eq hop rfl rfl himm⟩
    · cases (if_neg himm).symm.trans h
      exact ⟨bne_iff_ne.mpr himm, mkWord_eq hop rfl rfl rfl⟩
  -- LAMBDA uses dst alone.
  case h_8 hop =>
    obtain ⟨hunused, rfl⟩ := (ifUnusedZero_eq_ok ..).mp h
    obtain ⟨hsrc, himm⟩ := Bool.and_eq_true_iff.mp hunused
    exact ⟨rfl, mkWord_eq hop rfl (eq_of_beq hsrc) (eq_of_beq himm)⟩
  -- BFEXT and BFINS (R104).
  case h_13 hop | h_14 hop =>
    obtain ⟨hunused, rfl⟩ := (ifUnusedZero_eq_ok ..).mp h
    exact ⟨rfl, mkWord_eq hop rfl rfl (bitfieldImm_eq (eq_of_beq hunused)).symm⟩
  -- BRANCH uses the immediate alone.
  case h_18 hop =>
    obtain ⟨hunused, rfl⟩ := (ifUnusedZero_eq_ok ..).mp h
    obtain ⟨hdst, hsrc⟩ := Bool.and_eq_true_iff.mp hunused
    exact ⟨rfl, mkWord_eq hop (eq_of_beq hdst) (eq_of_beq hsrc) rfl⟩
  -- Opcodes 20 to 31 do not decode.
  case h_21 => cases h

/-! ### TPERM's mode, and the words of the spec -/

/-- TPERM's opcode leaves the mode to one test, of the immediate (R100, R101). -/
theorem decode_tperm {w : Word} (hop : opcodeField w = 6) :
    decode w = if immField w = 0x7FFF#15 then .ok (.tpermRestrict (condOf w) (regOf (dstField w)) (srcField w))
      else .ok (.tpermCheck (condOf w) (regOf (dstField w)) (srcField w) (immField w)) := by
  simp only [decode, hop]
  rfl

/-- Settles O3: the two sides of that test. -/
theorem tpermModeSelection : Obligations.TpermModeSelection := by
  intro w hop
  rw [decode_tperm hop]
  exact ⟨fun hsentinel => if_pos hsentinel, fun hoffset => if_neg hoffset⟩

/-- Settles O4, by evaluation of the decoder on each word. -/
theorem wordsOfTheSpec : Obligations.WordsOfTheSpec := by
  unfold Obligations.WordsOfTheSpec
  decide

/-! ### Words that are no instruction -/

/-- Opcodes 20 to 31 (R105). -/
theorem decode_undefinedOpcode {w : Word} (hop : 20 ≤ (opcodeField w).toNat) :
    decode w = .error .undefinedOpcode := by
  unfold decode
  split
  case h_21 => rfl
  all_goals omega

/-- The reserved bits of RETURN, bits 22:12, as the remainder by which the statements name them (R99). -/
theorem returnReserved_eq_zero_iff (w : Word) : w.extractLsb' 12 11 = 0#11 ↔ (w >>> 12) % 2048 = 0 := by
  rw [← BitVec.toNat_inj, ← BitVec.toNat_inj, BitVec.extractLsb'_toNat, BitVec.toNat_umod,
    BitVec.toNat_ushiftRight]
  rfl

/-- RETURN with a reserved bit or mask bit 6 set (R108). -/
theorem decode_returnReserved {w : Word} (hop : (opcodeField w).toNat = 3)
    (hbad : (w >>> 12) % 2048 ≠ 0 ∨ w.getLsbD 6 = true) : decode w = .error .returnReserved := by
  have hreserved : ¬ (w.extractLsb' 12 11 = 0#11 ∧ w.getLsbD 6 = false) := by
    rw [returnReserved_eq_zero_iff]
    rintro ⟨hzeros, hbit6⟩
    rcases hbad with hset | hset
    · exact hset hzeros
    · exact Bool.eq_false_iff.mp hbit6 hset
  simp only [decode, hop, if_neg hreserved]

/-- The immediate of a bit-field instruction uses bits 14:11 exactly from 2048 on (R104). -/
theorem bitfieldUnused_eq_zero_iff (imm : BitVec 15) : bitfieldUnused imm = 0#4 ↔ imm.toNat < 2048 := by
  have hlt := imm.isLt
  rw [bitfieldUnused, ← BitVec.toNat_inj, BitVec.extractLsb'_toNat, Nat.shiftRight_eq_div_pow]
  simp only [BitVec.toNat_ofNat]
  omega

/-- The word sets a bit of a field that its opcode does not use (R97, R107). -/
def UnusedSet (w : Word) : Prop :=
  (((opcodeField w).toNat = 2 ∨ (opcodeField w).toNat = 5 ∨ (opcodeField w).toNat = 14) ∧ immField w ≠ 0) ∨
  ((opcodeField w).toNat = 7 ∧ (srcField w ≠ 0 ∨ immField w ≠ 0)) ∨
  (((opcodeField w).toNat = 12 ∨ (opcodeField w).toNat = 13) ∧ 2048 ≤ (immField w).toNat) ∨
  ((opcodeField w).toNat = 17 ∧ (dstField w ≠ 0 ∨ srcField w ≠ 0))

theorem decode_unusedField {w : Word} (h : UnusedSet w) : decode w = .error .unusedField := by
  rcases h with ⟨hop, himm⟩ | ⟨hop, hset⟩ | ⟨hop, himm⟩ | ⟨hop, hset⟩
  · have htest : (immField w == 0) = false := beq_false_of_ne himm
    rcases hop with hop | hop | hop <;> simp only [decode, hop, htest] <;> rfl
  · have htest : (srcField w == 0 && immField w == 0) = false :=
      Bool.and_eq_false_iff.mpr (hset.imp beq_false_of_ne beq_false_of_ne)
    simp only [decode, hop, htest]
    rfl
  · have htest : (bitfieldUnused (immField w) == 0) = false :=
      beq_false_of_ne fun h => Nat.not_lt_of_le himm ((bitfieldUnused_eq_zero_iff _).mp h)
    rcases hop with hop | hop <;> simp only [decode, hop, htest] <;> rfl
  · have htest : (dstField w == 0 && srcField w == 0) = false :=
      Bool.and_eq_false_iff.mpr (hset.imp beq_false_of_ne beq_false_of_ne)
    simp only [decode, hop, htest]
    rfl

end Sys2Proof

namespace Sys2Proof.Machine

/-- A fetched word that does not decode is stopped by name or skipped (R133). -/
theorem step_of_reject {s : State} {w : Word} {r : Reject} (hfetch : fetch s = .ok w)
    (hdecode : decode w = .error r) : step s = runReject r (condOf w) s := by
  rw [step_of_fetch hfetch, runWord, hdecode]

/-- Settles O7: each class of words is one reason of the decoder's, and each reason has one stop. -/
theorem wordsThatAreNoInstruction : Obligations.WordsThatAreNoInstruction := by
  intro s w hfetch op undefinedWord badReturn unusedSet
  have hundefined (h : undefinedWord) : step s = runReject .undefinedOpcode (condOf w) s :=
    step_of_reject hfetch (decode_undefinedOpcode h)
  have hreturn : badReturn → step s = runReject .returnReserved (condOf w) s :=
    fun ⟨hop, hbad⟩ => step_of_reject hfetch (decode_returnReserved hop hbad)
  have hunused (h : unusedSet) : step s = runReject .unusedField (condOf w) s :=
    step_of_reject hfetch (decode_unusedField h)
  refine ⟨fun hpass => ⟨fun h => ?_, fun h => ?_⟩, fun hfail h hpc => ?_⟩
  · rcases h with h | h
    · exact (hundefined h).trans (underCond_stop_fault hpass rfl)
    · exact (hreturn h).trans (underCond_stop_fault hpass rfl)
  · exact (hunused h).trans (underCond_stop_refuse hpass rfl)
  · have hskip (r : Reject) : runReject r (condOf w) s = .next { s with pc := s.pc + 1 } := by
      rw [runReject, underCond_fail hfail, advance_ok hpc, toOutcome_ok]
    rcases h with h | h | h
    · exact (hundefined h).trans (hskip _)
    · exact (hreturn h).trans (hskip _)
    · exact (hunused h).trans (hskip _)

end Sys2Proof.Machine

/-! PROOFS. BFEXT and BFINS, bit by bit (R250, R251, R254). -/

namespace Sys2Proof.Machine

/-- `mask(width)` is the ones below bit `width` (R250). -/
theorem getLsbD_fieldMask (width k : Nat) :
    (fieldMask width).getLsbD k = (decide (k < 32) && decide (k < width)) := by
  rw [fieldMask, BitVec.getLsbD_ofNat, Nat.testBit_two_pow_sub_one]

/-- BFEXT's result is the field shifted down and masked: BFEXT_SIGNED is off (R251; log 17). -/
theorem bitfieldExtract_eq (x : Word) (width lsb : Nat) :
    bitfieldExtract x width lsb = (x >>> lsb) &&& fieldMask width := rfl

/-- Each bit of BFEXT's result, for a field inside the register (R251). -/
theorem getLsbD_bitfieldExtract (x : Word) {width lsb : Nat} (hfield : width + lsb ≤ 32) (k : Nat) :
    (bitfieldExtract x width lsb).getLsbD k = (decide (k < width) && x.getLsbD (lsb + k)) := by
  rw [bitfieldExtract_eq, BitVec.getLsbD_and, BitVec.getLsbD_ushiftRight, getLsbD_fieldMask]
  by_cases hk : k < width
  · have hk32 : k < 32 := by omega
    simp [hk, hk32]
  · simp [hk]

/-- The mask of BFINS is the ones inside the field (R254). -/
theorem getLsbD_fieldMask_shiftLeft {width lsb : Nat} (hfield : width + lsb ≤ 32) (k : Nat) :
    (fieldMask width <<< lsb).getLsbD k = decide (lsb ≤ k ∧ k < lsb + width) := by
  rw [BitVec.getLsbD_shiftLeft, getLsbD_fieldMask, Bool.eq_iff_iff]
  simp only [Bool.and_eq_true, Bool.not_eq_true', decide_eq_true_eq, decide_eq_false_iff_not]
  omega

/-- Each bit of BFINS's result, for a field inside the register (R254). -/
theorem getLsbD_bitfieldInsert (old x : Word) {width lsb : Nat} (hfield : width + lsb ≤ 32) (k : Nat) :
    (bitfieldInsert old x width lsb).getLsbD k =
      if lsb ≤ k ∧ k < lsb + width then x.getLsbD (k - lsb) else old.getLsbD k := by
  simp only [bitfieldInsert, BitVec.getLsbD_or, BitVec.getLsbD_and, BitVec.getLsbD_not,
    getLsbD_fieldMask_shiftLeft hfield, BitVec.getLsbD_shiftLeft]
  by_cases hin : lsb ≤ k ∧ k < lsb + width
  · have hk32 : k < 32 := by omega
    simp [hin, hk32]
  · by_cases hk32 : k < 32
    · simp [hin, hk32]
    · simp [hin, hk32, BitVec.getLsbD_of_ge old k (Nat.le_of_not_lt hk32)]

/-- Settles O50: the written register is the extracted field, read bit by bit. -/
theorem bfextResult : Obligations.BfextResult := by
  intro c rd rs width lsb s hc hwidth hfield hpc
  refine ⟨_, exec_of_effectOf hc ((bfextEffect_eq_ok ..).mpr ⟨⟨hwidth, hfield⟩, hpc, rfl⟩), rfl, fun k => ?_,
    fun j hj => setDr_drAt_ne s _ hj⟩
  rw [← getLsbD_bitfieldExtract (s.drAt rs) hfield k]
  exact congrArg (·.getLsbD k) (setDr_drAt_self s rd _)

/-- Settles O51: the written register is the old one with the field inserted, read bit by bit. -/
theorem bfinsResult : Obligations.BfinsResult := by
  intro c rd rs width lsb s hc hwidth hfield hpc
  refine ⟨_, exec_of_effectOf hc ((bfinsEffect_eq_ok ..).mpr ⟨⟨hwidth, hfield⟩, hpc, rfl⟩), rfl, fun k => ?_,
    fun j hj => setDr_drAt_ne s _ hj⟩
  rw [← getLsbD_bitfieldInsert (s.drAt rd) (s.drAt rs) hfield k]
  exact congrArg (·.getLsbD k) (setDr_drAt_self s rd _)

end Sys2Proof.Machine

/-! PROOFS. How RETURN stops: its own mask first, then the call stack, then the frame (R108, R167, R168). -/

namespace Sys2Proof.Machine

theorem retEffect_invalidOp {mask : BitVec 12} (hbit6 : mask.getLsbD 6 = true) (s : State) :
    retEffect mask s = .error (.fault .invalidOp) := by
  rw [retEffect, hbit6]
  rfl

/-- An empty call stack is the Reboot outcome, whatever else the mask is (R167). -/
theorem retEffect_reboot {mask : BitVec 12} {s : State} (hbit6 : mask.getLsbD 6 = false)
    (hempty : s.callStack = []) : retEffect mask s = .error (.fault .reboot) := by
  rw [retEffect, hbit6, hempty]
  rfl

/-- Settles O30: with a frame to pop, RETURN would answer only through an E-GT that loads and that NSSplit
divides. -/
theorem returnStops : Obligations.ReturnStops := by
  intro c mask s hc
  refine ⟨fun hbit6 => underCond_stop_fault hc (retEffect_invalidOp hbit6 s),
    fun hbit6 hempty => underCond_stop_fault hc (retEffect_reboot hbit6 hempty),
    fun f frames hbit6 hframes hnone => ?_⟩
  have hfit : OperandsFit s (.ret c mask) := ⟨hbit6, by rw [hframes]; exact List.cons_ne_nil f frames⟩
  refine (exec_fault_iff (i := .ret c mask) hc hfit).mpr fun t ht => ?_
  obtain ⟨-, f', frames', g5, rest, e, cl, code, hframes', -, hloads, hsplit, -⟩ := (retEffect_eq_ok ..).mp ht
  obtain ⟨rfl, -⟩ := List.cons.inj (hframes.symm.trans hframes')
  cases (hnone e hloads).symm.trans hsplit

end Sys2Proof.Machine

/-! PROOFS. The condition codes, and what they mean after a compare (R130, R260, R262). -/

namespace Sys2Proof.Machine

/-! ### When a condition passes -/

/-- The passes-when column of R130's table. -/
def PassesWhen (f : Flags) : Cond → Prop
  | .eq => f.z = true
  | .ne => f.z = false
  | .cs => f.c = true
  | .cc => f.c = false
  | .mi => f.n = true
  | .pl => f.n = false
  | .vs => f.v = true
  | .vc => f.v = false
  | .hi => f.c = true ∧ f.z = false
  | .ls => f.c = false ∨ f.z = true
  | .ge => f.n = f.v
  | .lt => f.n ≠ f.v
  | .gt => f.z = false ∧ f.n = f.v
  | .le => f.z = true ∨ f.n ≠ f.v
  | .al => True
  | .nv => False

/-- The condition test is that column, row by row. -/
theorem condPass_iff (c : Cond) (f : Flags) : condPass c f = true ↔ PassesWhen f c := by
  cases c <;> simp [condPass, PassesWhen]

/-- Settles O9: each code names its condition by evaluation, and `condPass_iff` says when it passes. -/
theorem conditionTable : Obligations.ConditionTable :=
  ⟨fun _ => rfl, fun f =>
    ⟨condPass_iff .eq f, condPass_iff .ne f, condPass_iff .cs f, condPass_iff .cc f,
      condPass_iff .mi f, condPass_iff .pl f, condPass_iff .vs f, condPass_iff .vc f,
      condPass_iff .hi f, condPass_iff .ls f, condPass_iff .ge f, condPass_iff .lt f,
      condPass_iff .gt f, condPass_iff .le f, rfl, rfl⟩⟩

/-! ### The flags of a difference, as facts about integers -/

/-- Read as signed, the wrapped difference is the true one, or one turn of 2^32 from it and of the other sign. -/
theorem toInt_sub_cases (a b : Word) :
    (a - b).toInt = a.toInt - b.toInt ∨
      (b.toInt ≤ a.toInt ∧ (a - b).toInt < 0 ∧ (a - b).toInt = a.toInt - b.toInt - 2 ^ 32) ∨
      (a.toInt < b.toInt ∧ 0 ≤ (a - b).toInt ∧ (a - b).toInt = a.toInt - b.toInt + 2 ^ 32) := by
  have ha := a.le_toInt
  have ha' := a.toInt_lt
  have hb := b.le_toInt
  have hb' := b.toInt_lt
  rw [BitVec.toInt_sub, Int.bmod_def]
  omega

theorem subFlags_z_iff (a b : Word) : (subFlags a b).2.z = true ↔ a = b :=
  beq_iff_eq.trans sub_eq_zero

theorem subFlags_c_iff (a b : Word) : (subFlags a b).2.c = true ↔ b.toNat ≤ a.toNat :=
  decide_eq_true_iff

theorem subFlags_n_iff (a b : Word) : (subFlags a b).2.n = true ↔ (a - b).toInt < 0 := by
  rw [subFlags, BitVec.msb_eq_toInt, decide_eq_true_iff]

/-- The sign rule for V is the library's signed overflow of a subtraction (R260). -/
theorem subFlags_v_eq (a b : Word) : (subFlags a b).2.v = a.ssubOverflow b := by
  rw [BitVec.ssubOverflow_eq, subFlags]
  cases a.msb <;> cases b.msb <;> simp

/-- V is set exactly where the wrapped difference is not the true one. -/
theorem subFlags_v_iff (a b : Word) :
    (subFlags a b).2.v = true ↔ (a - b).toInt ≠ a.toInt - b.toInt := by
  have hlow := (a - b).le_toInt
  have hhigh := (a - b).toInt_lt
  have hwrap := toInt_sub_cases a b
  rw [subFlags_v_eq, BitVec.ssubOverflow, Bool.or_eq_true, decide_eq_true_iff, decide_eq_true_iff]
  omega

/-- N = V is the signed comparison: N is the sign of the true difference, inverted where it wraps. -/
theorem subFlags_n_eq_v_iff (a b : Word) :
    (subFlags a b).2.n = (subFlags a b).2.v ↔ b.toInt ≤ a.toInt := by
  have hwrap := toInt_sub_cases a b
  rw [Bool.eq_iff_iff, subFlags_n_iff, subFlags_v_iff]
  omega

theorem subFlags_z_eq_false_iff (a b : Word) : (subFlags a b).2.z = false ↔ a ≠ b :=
  Bool.eq_false_iff.trans (subFlags_z_iff a b).not

theorem subFlags_c_eq_false_iff (a b : Word) : (subFlags a b).2.c = false ↔ a.toNat < b.toNat :=
  Bool.eq_false_iff.trans ((subFlags_c_iff a b).not.trans Nat.not_le)

theorem subFlags_n_ne_v_iff (a b : Word) :
    (subFlags a b).2.n ≠ (subFlags a b).2.v ↔ a.toInt < b.toInt :=
  (subFlags_n_eq_v_iff a b).not.trans Int.not_le

/-! ### The ordered conditions after a compare -/

/-- An executed MCMP leaves the flags of DRd - DRs (R261). -/
theorem mcmp_flags {c : Cond} {rd rs : DRNum} {s t : State} (hc : condPass c s.flags = true)
    (ht : exec (.mcmp c rd rs) s = .next t) : t.flags = (subFlags (s.drAt rd) (s.drAt rs)).2 := by
  obtain ⟨-, rfl⟩ := (mcmpEffect_eq_ok ..).mp (effectOf_of_exec ht hc)
  rfl

/-- Settles O56: the four plain comparisons are the flags' own meanings; HI, LS, GT and LE join one of them with
Z, and a strict order is the weak one without equality. -/
theorem conditionsAfterCompare : Obligations.ConditionsAfterCompare := by
  intro c rd rs s t hc ht a b
  have hflags : t.flags = (subFlags a b).2 := mcmp_flags hc ht
  have hnat : a = b ↔ a.toNat = b.toNat := BitVec.toNat_inj.symm
  have hint : a = b ↔ a.toInt = b.toInt := BitVec.toInt_inj.symm
  simp only [hflags, condPass_iff, PassesWhen, subFlags_z_iff, subFlags_z_eq_false_iff, subFlags_c_iff,
    subFlags_c_eq_false_iff, subFlags_n_eq_v_iff, subFlags_n_ne_v_iff, true_and]
  refine ⟨?hi, ?ls, ?gt, ?le⟩
  case hi | ls => simp only [ne_eq, hnat]; omega
  case gt | le => simp only [ne_eq, hint]; omega

end Sys2Proof.Machine

/-! PROOFS. LOAD and SAVE: the next state, and where they and CHANGE stop (R140 to R149, R181). -/

namespace Sys2Proof.Machine

/-! ### The next state -/

/-- Settles O20: the state with CRd written and pc advanced. -/
theorem loadResult : Obligations.LoadResult := by
  intro c rd rs slot s v hc hrd hrs h6 hslot hpc
  exact ⟨{ s.setCr rd v with pc := s.pc + 1 },
    exec_of_effectOf hc ((loadEffect_eq_ok ..).mpr ⟨hrd, hrs, h6, hpc, v, hslot, rfl⟩), rfl,
    setCr_crAt_self s rd v, fun _ => setCr_crAt_ne s v⟩

/-- Settles O21: the state with the GT's record written at the address S opens, and pc advanced. -/
theorem saveResult : Obligations.SaveResult := by
  intro c rd rs slot s a g hc hrd hrs ha hg hvalid hb hfbit hpc
  exact ⟨{ s with mem := Memory.writeCell s.mem a (.token g), pc := s.pc + 1 },
    exec_of_effectOf hc ((saveEffect_eq_ok ..).mpr ⟨hrd, hrs, hpc, a, g, ha, hg, hvalid, hb, hfbit, rfl⟩), rfl,
    readCell_writeCell_self s.mem a (.token g), sameMemoryExcept_writeCell s.mem a (.token g)⟩

/-! ### Stops -/

/-- With operands it may name, the LOAD half is FAULT where the slot's content cannot be loaded (R141). -/
theorem loadToken_fault {s : State} {rd rs : CRNum} {slot : BitVec 15} (hrd : rd.val < 12) (hrs : rs.val < 12)
    (h6 : rd ≠ 6) (hnone : ∀ v, ¬ SlotHolds s (s.crAt rs) slot.toNat (rs != 6) v) :
    loadToken s rd rs slot = .error (.fault .fault) := by
  have hnot6 : notCR6 rd = .ok () := (notCR6_eq_ok rd ()).mpr h6
  rw [loadToken, ordinaryCR_ok hrd, ok_bind, ordinaryCR_ok hrs, ok_bind, hnot6, ok_bind]
  exact mLoad_fault hnone

/-- The LOAD half refuses CR6 as its destination, whatever the slot holds (R144). -/
theorem loadToken_cr6_refused {rs : CRNum} (hrs : rs.val < 12) (s : State) (slot : BitVec 15) :
    loadToken s 6 rs slot = .error (.refuse .cr6Destination) := by
  rw [loadToken, ordinaryCR_ok (i := 6) (by decide), ok_bind, ordinaryCR_ok hrs, ok_bind]
  rfl

/-- Settles O23: the LOAD half stands before every other part of the three forms, so its stop is theirs. -/
theorem loadStops : Obligations.LoadStops := by
  intro c rd rs slot s hc hrd hrs
  refine ⟨fun h6 hnone => ?fault, ?refused⟩
  case fault =>
    have hload := loadToken_fault hrd hrs h6 hnone
    exact ⟨underCond_stop_fault hc (bind_of_error hload _), underCond_stop_fault hc (bind_of_error hload _),
      underCond_stop_fault hc (bind_of_error hload _)⟩
  case refused =>
    rintro rfl
    have hload := loadToken_cr6_refused hrs s slot
    exact ⟨underCond_stop_refuse hc (bind_of_error hload _), underCond_stop_refuse hc (bind_of_error hload _),
      underCond_stop_refuse hc (bind_of_error hload _)⟩

/-- Settles O24: an answer of SAVE or CHANGE would have passed the tests that are said to fail. -/
theorem saveAndChangeFault : Obligations.SaveAndChangeFault := by
  intro c rd rs slot s hc hrs
  refine ⟨fun hrd hfails => ?save, fun hrd hnone => ?change⟩
  case save =>
    refine (exec_fault_iff (i := .save c rd rs slot) hc ⟨hrd, hrs⟩).mpr fun t ht => ?_
    obtain ⟨-, -, -, a, g, ha, hg, hvalid, hb, hfbit, -⟩ := (saveEffect_eq_ok ..).mp ht
    rcases hfails a ha hfbit g hg with hinvalid | hunset
    · exact Bool.eq_false_iff.mp hinvalid hvalid
    · exact Bool.eq_false_iff.mp hunset hb
  case change =>
    refine (exec_fault_iff (i := .change c rd rs slot) hc ⟨hrd, hrs⟩).mpr fun t ht => ?_
    obtain ⟨-, -, -, v, hv, -⟩ := (changeEffect_eq_ok ..).mp ht
    exact hnone v hv

end Sys2Proof.Machine

/-! PROOFS. CALL: what the callee sees, where CALL stops, and the RETURN that matches an entry (R160 to R170). -/

namespace Sys2Proof.Machine

/-! ### What an entry does -/

/-- An executed CALL, in either mode, is Enter on an E-GT that passes its tests (R160 to R162). -/
theorem call_enters {c : Cond} {rs : CRNum} {i : Instr} {s t : State}
    (hi : i = .callDirect c rs ∨ ∃ offset, i = .callClist c rs offset) (hc : condPass c s.flags = true)
    (hexec : exec i s = .next t) : ∃ e cl code, Enterable s e cl code ∧ t = entered s e cl code := by
  rcases hi with rfl | ⟨offset, rfl⟩
  · obtain ⟨-, e, cl, code, -, hen, rfl⟩ := (callDirectEffect_eq_ok ..).mp (effectOf_of_exec hexec hc)
    exact ⟨e, cl, code, hen, rfl⟩
  · obtain ⟨-, e, cl, code, -, hen, rfl⟩ := (callClistEffect_eq_ok ..).mp (effectOf_of_exec hexec hc)
    exact ⟨e, cl, code, hen, rfl⟩

/-- Both stacks are as `pushFrame` leaves them, the frame's NIA behind the entry (R36, R37, R160, R221). -/
def StacksPushed (s t : State) : Prop :=
  t.callStack = (pushFrame s (s.pc + 1)).callStack ∧ t.cr5Stack = (pushFrame s (s.pc + 1)).cr5Stack

theorem stacksPushed_entered (s : State) (e cl code : Gt) : StacksPushed s (entered s e cl code) := ⟨rfl, rfl⟩

theorem stacksPushed_applied (s : State) (g : Gt) : StacksPushed s (applied s g) := ⟨rfl, rfl⟩

/-- A load ahead of an entry is not seen in what the entry pushes, unless it loads CR5 (R226). -/
theorem StacksPushed.of_setCr {s t : State} {rd : CRNum} {v : CRVal} (h5 : rd ≠ 5)
    (h : StacksPushed (s.setCr rd v) t) : StacksPushed s t := by
  obtain ⟨hframes, hcr5⟩ := h
  rw [pushFrame_cr5Stack, setCr_crAt_five, if_neg h5] at hcr5
  exact ⟨hframes, hcr5⟩

/-- Every executed entry pushes both stacks; the fused forms that load CR5 are left out (R160, R221, R225, R228). -/
theorem entry_pushes {i : Instr} {c : Cond} {rd rs : CRNum} {offset : BitVec 4} {slot : BitVec 15} {s t : State}
    (hi : i = .callDirect c rs ∨ i = .callClist c rs offset ∨ i = .lambda c rd ∨
      (rd ≠ 5 ∧ (i = .eloadcall c rd rs slot ∨ i = .xloadlambda c rd rs slot)))
    (hc : condPass c s.flags = true) (hexec : exec i s = .next t) : StacksPushed s t := by
  rcases hi with hcall | hcall | rfl | ⟨h5, rfl | rfl⟩
  · obtain ⟨e, cl, code, -, rfl⟩ := call_enters (.inl hcall) hc hexec
    exact stacksPushed_entered s e cl code
  · obtain ⟨e, cl, code, -, rfl⟩ := call_enters (.inr ⟨offset, hcall⟩) hc hexec
    exact stacksPushed_entered s e cl code
  · obtain ⟨-, g, -, -, rfl⟩ := (lambdaEffect_eq_ok ..).mp (effectOf_of_exec hexec hc)
    exact stacksPushed_applied s g
  · obtain ⟨-, -, -, e, cl, code, -, -, rfl⟩ := (eloadcallEffect_eq_ok ..).mp (effectOf_of_exec hexec hc)
    exact (stacksPushed_entered _ e cl code).of_setCr h5
  · obtain ⟨-, -, -, g, -, -, rfl⟩ := (xloadlambdaEffect_eq_ok ..).mp (effectOf_of_exec hexec hc)
    exact (stacksPushed_applied _ g).of_setCr h5

/-! ### The callee, the caller again, and the stops -/

/-- Settles O27: the callee sees the state entered, of which both modes make the same. -/
theorem calleeInherits : Obligations.CalleeInherits := by
  intro c rs i s t hi hc hexec
  obtain ⟨e, cl, code, ⟨-, -, -, -, hsplit⟩, rfl⟩ := call_enters hi hc hexec
  obtain ⟨hcr6, hcr14, hrest⟩ := entered_crs s e cl code
  exact ⟨fun _ => rfl, hrest, ⟨e, cl, code, rfl, hsplit, hcr6, hcr14⟩, rfl, rfl, rfl, rfl⟩

/-- Settles O31: RETURN pops what the entry pushed, and the pushed E-GT loads as itself. -/
theorem entryThenReturn : Obligations.EntryThenReturn := by
  intro i c c' rd rs offset slot s t u a cl code hi hc hexec ha hframes hcr5 hc' hvalid hfbit hsplit
  obtain ⟨hpushed, hpushed5⟩ := entry_pushes hi hc hexec
  have hload : LoadsAs u (pack s.curEgt) (some { a with g := false }) := by
    rw [ha]
    exact loadsAs_token hvalid hfbit
  obtain ⟨v, hret, hv, -, hv5, hv6, hv14, -⟩ := returnResult c' 0 u _ _ _ _ _ cl code hc' rfl
    (hframes.trans hpushed) (hcr5.trans hpushed5) hload hsplit
  refine ⟨v, hret, ?pc, hv5 rfl, ?callStack, ?cr5Stack, ?mi, ?curEgt, hv6, hv14, ?dr, ?mem⟩
  all_goals rw [hv]

/-- Settles O28: a CALL that answered would have entered an E-GT that its register or slot holds. -/
theorem callFaults : Obligations.CallFaults := by
  intro c rs s hc hrs
  refine ⟨fun hnone => ?direct, fun offset hnone => ?clist⟩
  case direct =>
    refine (exec_fault_iff (i := .callDirect c rs) hc hrs).mpr fun t ht => ?_
    obtain ⟨-, e, cl, code, he, hen, -⟩ := (callDirectEffect_eq_ok ..).mp ht
    exact hnone e cl code he hen
  case clist =>
    refine (exec_fault_iff (i := .callClist c rs offset) hc hrs).mpr fun t ht => ?_
    obtain ⟨-, e, cl, code, he, hen, -⟩ := (callClistEffect_eq_ok ..).mp ht
    exact hnone e cl code he hen

end Sys2Proof.Machine

/-! PROOFS. CHANGE of a system-wide register and SWITCH: the next state, and where SWITCH stops (R181 to R189). -/

namespace Sys2Proof.Machine

/-! ### CHANGE of CR12 or CR13 -/

theorem twelve_le_of_systemWide {rd : CRNum} (h : rd = 12 ∨ rd = 13) : 12 ≤ rd.val := by
  rcases h with rfl | rfl <;> decide

/-- CHANGE of CR12 or CR13 writes what its slot holds and advances pc (R181, R185). -/
theorem changeEffect_systemWide_eq_ok {rd rs : CRNum} {idx : BitVec 15} {s t : State} (h : rd = 12 ∨ rd = 13) :
    changeEffect rd rs idx s = .ok t ↔
      rs.val < 12 ∧ s.HasNextPc ∧
        ∃ v, SlotHolds s (s.crAt rs) idx.toNat true v ∧ t = { s.setCr rd v with pc := s.pc + 1 } := by
  simp only [changeEffect_eq_ok, if_pos h, twelve_le_of_systemWide h, true_and]

/-- Settles O32: the state with CRd written and pc advanced. -/
theorem changeSystemWideResult : Obligations.ChangeSystemWideResult := by
  intro c rd rs idx s v hc hrd hrs hslot hpc
  exact ⟨{ s.setCr rd v with pc := s.pc + 1 },
    exec_of_effectOf hc ((changeEffect_systemWide_eq_ok hrd).mpr ⟨hrs, hpc, v, hslot, rfl⟩), rfl,
    setCr_crAt_self s rd v, fun _ => setCr_crAt_ne s v⟩

/-! ### SWITCH -/

/-- The two targets that SWITCH accepts, as the sentinel test is asked about them (R103, R188). -/
theorem switchTgt_eq {rn : CRNum} (h : rn = 13 ∨ rn = 15) : switchTgt rn = if rn = 13 then 0b101 else 0b111 := by
  rcases h with rfl | rfl <;> decide

/-- SWITCH tests its target before its source (R188, R189). -/
theorem switchEffect_invalidOp {rn : CRNum} (h13 : rn ≠ 13) (h15 : rn ≠ 15) (rs : CRNum) (s : State) :
    switchEffect rn rs s = .error (.fault .invalidOp) := by
  have htarget : (rn == 13 || rn == 15) = false := by
    rw [beq_false_of_ne h13, beq_false_of_ne h15, Bool.or_false]
  rw [switchEffect, htarget, require_false, error_bind]

/-- Settles O35: the state with the target written and pc advanced. -/
theorem switchResult : Obligations.SwitchResult := by
  intro c rn rs s g hc hrs hg hvalid hpc hpasses
  have htarget : rn = 13 ∨ rn = 15 := hpasses.imp And.left And.left
  have hsentinel : s.params.sentinelOK.ask s.view (g, switchTgt rn) = true := by
    rw [switchTgt_eq htarget]
    rcases hpasses with ⟨rfl, hok⟩ | ⟨rfl, hok⟩
    · exact hok
    · exact hok
  exact ⟨{ s.setCr rn (some g) with pc := s.pc + 1 },
    exec_of_effectOf hc ((switchEffect_eq_ok ..).mpr ⟨htarget, hrs, hpc, g, hg, hvalid, hsentinel, rfl⟩), rfl,
    setCr_crAt_self s rn (some g), fun _ => setCr_crAt_ne s (some g)⟩

/-- Settles O36: another target fails the first test; with CR13 or CR15 an answer of SWITCH would have passed the
tests of its source that are said to fail. -/
theorem switchStops : Obligations.SwitchStops := by
  intro c rn rs s hc
  refine ⟨fun h13 h15 => ?invalidOp, fun hrn hrs hfails => ?fault⟩
  case invalidOp => exact underCond_stop_fault hc (switchEffect_invalidOp h13 h15 rs s)
  case fault =>
    refine (exec_fault_iff (i := .switch c rn rs) hc ⟨hrn, hrs⟩).mpr fun t ht => ?_
    obtain ⟨-, -, -, g, hg, hvalid, hsentinel, -⟩ := (switchEffect_eq_ok ..).mp ht
    rw [switchTgt_eq hrn] at hsentinel
    rcases hfails g hg with hinvalid | hrefused
    · exact Bool.eq_false_iff.mp hinvalid hvalid
    · exact Bool.eq_false_iff.mp hrefused hsentinel

end Sys2Proof.Machine

/-! PROOFS. TPERM: the health check and the access it covers, the restriction, and the presets (R200 to R210). -/

namespace Sys2Proof.Machine

/-! ### Permission sets, read one permission at a time -/

theorem permIn_permsInter (p : Perm) (a b : Perms) :
    permIn p (permsInter a b) = true ↔ permIn p a = true ∧ permIn p b = true := by
  cases p <;> exact Bool.and_eq_true_iff

theorem forall_perm {P : Perm → Prop} : (∀ p, P p) ↔ P .r ∧ P .w ∧ P .x ∧ P .l ∧ P .s ∧ P .e := by
  refine ⟨fun h => ⟨h .r, h .w, h .x, h .l, h .s, h .e⟩, ?_⟩
  rintro ⟨hr, hw, hx, hl, hs, he⟩ p
  cases p <;> assumption

/-- A set is empty where it holds no permission (R209). -/
theorem permsEmpty_iff (a : Perms) : permsEmpty a = true ↔ ∀ p, permIn p a = false := by
  simp [forall_perm, permsEmpty, permIn, and_assoc]

theorem permsEmpty_eq_false_iff (a : Perms) : permsEmpty a = false ↔ ∃ p, permIn p a = true := by
  simp only [← Bool.not_eq_true, permsEmpty_iff, not_forall, not_not]

theorem permsSubset_iff (a b : Perms) :
    permsSubset a b = true ↔ ∀ p, permIn p a = true → permIn p b = true := by
  simp [forall_perm, permsSubset, permIn, imp_iff_not_or, and_assoc]

/-! ### The presets -/

/-- No preset mixes Turing and Church permissions, or E with L or S (R32, R207). -/
theorem permsLegal_presetMask : ∀ p : BitVec 4, ∀ m ∈ presetMask p, permsLegal m = true := by decide

/-- The codes above the ten presets are reserved (R206). -/
theorem presetMask_reserved : ∀ p : BitVec 4, 10 ≤ p.toNat → presetMask p = none := by decide

/-- Settles O40: the table is read off code by code. -/
theorem presetTable : Obligations.PresetTable :=
  ⟨by decide, presetMask_reserved, permsLegal_presetMask⟩

/-! ### Mode 1, the health check -/

/-- What Mode 1 tests: a GT with every permission of a defined preset, valid, and the offset in bounds (R202, R203,
R206). -/
def HealthPasses (s : State) (rd : CRNum) (preset : BitVec 4) (off : Nat) : Prop :=
  ∃ g m, s.crAt rd = some g ∧ presetMask preset = some m ∧
    (∀ p, permIn p m = true → permIn p g.perms = true) ∧ valid s g = true ∧ g.base + off ≤ g.limit

theorem tpermPasses_iff (s : State) (g : Gt) (m : Perms) (off : Nat) :
    tpermPasses s g m off = true ↔
      (∀ p, permIn p m = true → permIn p g.perms = true) ∧ valid s g = true ∧ g.base + off ≤ g.limit := by
  rw [tpermPasses, Bool.and_eq_true, Bool.and_eq_true, permsSubset_iff, decide_eq_true_eq, and_assoc]

/-- A decoded Mode 1 writes Z alone, with whether its checks pass (R203). -/
theorem tpermHealth_eq_setZ (rd : CRNum) (preset : BitVec 4) (off : Nat) (s : State) :
    ∃ z, tpermHealth Config.tpermBmod rd preset off s = s.setZ z ∧ (z = true ↔ HealthPasses s rd preset off) := by
  unfold tpermHealth HealthPasses
  split
  next g m hg hm =>
    refine ⟨tpermPasses s g m off, ?_, ?_⟩
    · simp only [bModified_tpermBmod, ← hg, setCr_crAt_eq_self]
    · simp [hg, hm, tpermPasses_iff]
  next hmissing =>
    exact ⟨false, rfl, Bool.false_ne_true.elim, fun ⟨g, m, hg, hm, _⟩ => (hmissing g m hg hm).elim⟩

/-- An executed Mode 1 moves Z and pc alone (R203, R205). -/
theorem tpermCheckEffect_eq_ok_setZ (rd : CRNum) (preset : BitVec 4) (offset : BitVec 15) (s t : State) :
    tpermCheckEffect rd preset offset s = .ok t ↔
      s.HasNextPc ∧ ∃ z, (z = true ↔ HealthPasses s rd preset offset.toNat) ∧
        t = { s.setZ z with pc := s.pc + 1 } := by
  obtain ⟨z, heq, hz⟩ := tpermHealth_eq_setZ rd preset offset.toNat s
  rw [tpermCheckEffect_eq_ok, heq]
  refine and_congr_right fun _ => ⟨fun ht => ⟨z, hz, ht⟩, ?_⟩
  rintro ⟨z', hz', rfl⟩
  rw [Bool.eq_iff_iff.mpr (hz'.trans hz.symm)]

/-- Settles O37: the state with Z written and pc advanced. -/
theorem tpermHealthCheckResult : Obligations.TpermHealthCheckResult := by
  intro c rd preset offset s hc hpc
  obtain ⟨z, -, hz⟩ := tpermHealth_eq_setZ rd preset offset.toNat s
  exact ⟨{ s.setZ z with pc := s.pc + 1 },
    exec_of_effectOf hc ((tpermCheckEffect_eq_ok_setZ ..).mpr ⟨hpc, z, hz, rfl⟩), rfl, hz⟩

/-- A health check that passes leaves every word it covers accessible (R204): validity reads neither Z nor pc. -/
theorem accessible_of_healthPasses {s : State} {rd : CRNum} {preset : BitVec 4} {off : Nat} {m : Perms} {p : Perm}
    (h : HealthPasses s rd preset off) (hm : presetMask preset = some m) (hp : permIn p m = true) (z : Bool)
    (pc : Nat) : ∃ a, Accessible { s.setZ z with pc := pc } (s.crAt rd) p off a := by
  obtain ⟨g, m', hg, hm', hperms, hvalid, hbound⟩ := h
  obtain rfl : m' = m := Option.some.inj (hm'.symm.trans hm)
  exact ⟨g.base + off, g, hg, hvalid, hperms p hp, hbound, rfl⟩

/-- Settles O39: Z = 1 makes EQ pass, and says that the checks of the access pass. -/
theorem tpermThenAccess : Obligations.TpermThenAccess := by
  intro c rd preset offset r s t m hc hrd hcheck hz hm hpc
  obtain ⟨-, z, hpasses, rfl⟩ := (tpermCheckEffect_eq_ok_setZ ..).mp (effectOf_of_exec hcheck hc)
  have haccess {p : Perm} (hp : permIn p m = true) := accessible_of_healthPasses (hpasses.mp hz) hm hp z (s.pc + 1)
  refine ⟨fun hr => ?read, fun hw => ?write⟩
  case read =>
    obtain ⟨a, ha⟩ := haccess (p := .r) hr
    exact ⟨_, exec_of_effectOf hz ((dreadEffect_eq_ok ..).mpr ⟨hrd, hpc, a, ha, rfl⟩)⟩
  case write =>
    obtain ⟨a, ha⟩ := haccess (p := .w) hw
    exact ⟨_, exec_of_effectOf hz ((dwriteEffect_eq_ok ..).mpr ⟨hrd, hpc, a, ha, rfl⟩)⟩

/-! ### Mode 2, the restriction -/

/-- Mode 2 on NULL or with a reserved preset sets Z to 0 and nothing else (R202, R206). -/
theorem tpermRestriction_ignored {rd : CRNum} {preset : BitVec 4} {s : State}
    (h : s.crAt rd = none ∨ presetMask preset = none) (bmod : Bool) :
    tpermRestriction bmod rd preset s = s.setZ false := by
  unfold tpermRestriction
  split
  next g m hg hm =>
    rcases h with hnull | hreserved
    · cases hg.symm.trans hnull
    · cases hm.symm.trans hreserved
  next => rfl

/-- A decoded Mode 2 on a GT keeps the permissions in the GT and the preset; Z says whether any is left (R209). -/
theorem tpermRestriction_restricts {rd : CRNum} {preset : BitVec 4} {s : State} {g : Gt} {m : Perms}
    (hg : s.crAt rd = some g) (hm : presetMask preset = some m) :
    tpermRestriction Config.tpermBmod rd preset s =
      (s.setCr rd (some { g with perms := permsInter g.perms m })).setZ (!permsEmpty (permsInter g.perms m)) := by
  simp only [tpermRestriction, hg, hm, bModified_tpermBmod]

/-- Settles O38: on a GT with a defined preset the state restricted, else the state with Z cleared. -/
theorem tpermRestrictionResult : Obligations.TpermRestrictionResult := by
  intro c rd preset s hc hallowed hpc
  refine ⟨_, exec_of_effectOf hc ((tpermRestrictEffect_eq_ok ..).mpr ⟨hallowed, hpc, rfl⟩), ?_⟩
  by_cases hignored : s.crAt rd = none ∨ presetMask preset = none
  case pos =>
    rw [tpermRestriction_ignored hignored]
    refine ⟨rfl, fun _ _ => rfl, fun _ => ⟨rfl, rfl⟩, fun g m hg hm => ?_⟩
    simp [hg, hm] at hignored
  case neg =>
    obtain ⟨hcr, hpreset⟩ := not_or.mp hignored
    obtain ⟨g, hg⟩ := Option.ne_none_iff_exists'.mp hcr
    obtain ⟨m, hm⟩ := Option.ne_none_iff_exists'.mp hpreset
    rw [tpermRestriction_restricts hg hm]
    refine ⟨rfl, fun _ => setCr_crAt_ne s _, fun h => absurd h hignored, fun g' m' hg' hm' => ?_⟩
    obtain rfl : g = g' := Option.some.inj (hg.symm.trans hg')
    obtain rfl : m = m' := Option.some.inj (hm.symm.trans hm')
    refine ⟨permsInter g.perms m, setCr_crAt_self s rd _, fun p => permIn_permsInter p g.perms m, ?_⟩
    exact (Bool.not_eq_true' _).to_iff.trans (permsEmpty_eq_false_iff _)

end Sys2Proof.Machine

/-! PROOFS. LAMBDA and the fused forms: where they stop, and the fused forms against their halves (R221 to R229). -/

namespace Sys2Proof.Machine

/-! ### Stops -/

/-- Settles O44: an answer of one of the three forms would have passed the tests of the GT that are said to fail. -/
theorem lambdaFamilyFaults : Obligations.LambdaFamilyFaults := by
  intro c rd rs slot s hc hrd hrs
  refine ⟨fun hnone => ?lambda, fun h6 hnone => ?eloadcall, fun h6 hnone => ?xloadlambda⟩
  case lambda =>
    refine (exec_fault_iff (i := .lambda c rd) hc hrd).mpr fun t ht => ?_
    obtain ⟨-, g, hg, ha, -⟩ := (lambdaEffect_eq_ok ..).mp ht
    exact hnone g hg ha
  case eloadcall =>
    refine (exec_fault_iff (i := .eloadcall c rd rs slot) hc ⟨hrd, hrs, h6⟩).mpr fun t ht => ?_
    obtain ⟨-, -, -, e, cl, code, he, hen, -⟩ := (eloadcallEffect_eq_ok ..).mp ht
    exact hnone e cl code he hen
  case xloadlambda =>
    refine (exec_fault_iff (i := .xloadlambda c rd rs slot) hc ⟨hrd, hrs, h6⟩).mpr fun t ht => ?_
    obtain ⟨-, -, -, g, hg, ha, -⟩ := (xloadlambdaEffect_eq_ok ..).mp ht
    exact hnone g hg ha

/-! ### The fused forms and their halves -/

/-- The state that an executed LOAD of `v` into CRd leaves, between the two halves of a fused form (R143). -/
def loaded (s : State) (rd : CRNum) (v : CRVal) : State := { s.setCr rd v with pc := s.pc + 1 }

theorem hasNextPc_of_add_two {s : State} (hpc : s.pc + 2 < 2 ^ s.params.pcWidth.val) : s.HasNextPc :=
  Nat.lt_of_succ_lt hpc

/-- LOAD takes the machine to the loaded state (R143). -/
theorem exec_load {c : Cond} {rd rs : CRNum} {slot : BitVec 15} {s : State} {v : CRVal}
    (hc : condPass c s.flags = true) (hrd : rd.val < 12) (hrs : rs.val < 12) (h6 : rd ≠ 6)
    (hslot : SlotHolds s (s.crAt rs) slot.toNat (rs != 6) v) (hpc : s.HasNextPc) :
    exec (.load c rd rs slot) s = .next (loaded s rd v) :=
  exec_of_effectOf hc ((loadEffect_eq_ok ..).mpr ⟨hrd, hrs, h6, hpc, v, hslot, rfl⟩)

/-- An E-GT that can be entered can still be entered one offset on, inside the pc range, with CRd loaded (R160). -/
theorem enterable_loaded {s : State} {rd : CRNum} {e cl code : Gt} (v : CRVal) (hrd : rd.val < 12)
    (hpc : s.pc + 2 < 2 ^ s.params.pcWidth.val) (h : Enterable s e cl code) : Enterable (loaded s rd v) e cl code := by
  obtain ⟨hvalid, he, -, hroom, hsplit⟩ := (enterable_setCr s v e cl code (ne_fifteen hrd)).mpr h
  exact ⟨hvalid, he, hpc, hroom, hsplit⟩

/-- A code object that can be applied can still be applied one offset on, in the same way (R221). -/
theorem applicable_loaded {s : State} {rd : CRNum} {g : Gt} (v : CRVal) (hrd : rd.val < 12)
    (hpc : s.pc + 2 < 2 ^ s.params.pcWidth.val) (h : Applicable s g) : Applicable (loaded s rd v) g := by
  obtain ⟨hvalid, hx, hbounds, -, hroom⟩ := (applicable_setCr s v g (ne_fifteen hrd)).mpr h
  exact ⟨hvalid, hx, hbounds, hpc, hroom⟩

/-- The state with the newest frame's NIA one more: what tells a pair of instructions from its fused form (R227). -/
def niaBumped (t : State) (f : Frame) (frames : List Frame) : State :=
  { t with callStack := { f with nia := f.nia + 1 } :: frames }

/-- Enter sees of the pc only what it pushes as NIA, so entering after a LOAD is entering within the fused form but for
the NIA (R160, R225). -/
theorem entered_loaded (s : State) (rd : CRNum) (v : CRVal) (e cl code : Gt) :
    entered (loaded s rd v) e cl code =
      niaBumped (entered (s.setCr rd v) e cl code) { egt := pack s.curEgt, nia := s.pc + 1, mi := s.mi } s.callStack :=
  rfl

/-- Applying a lambda target sees of the pc only what it pushes as NIA (R221, R228). -/
theorem applied_loaded (s : State) (rd : CRNum) (v : CRVal) (g : Gt) :
    applied (loaded s rd v) g =
      niaBumped (applied (s.setCr rd v) g) { egt := pack s.curEgt, nia := s.pc + 1, mi := s.mi } s.callStack :=
  rfl

/-- Settles O45: the fused form's own tests are those of its halves, the second half's made in the loaded state. -/
theorem fusedAreTheirHalves : Obligations.FusedAreTheirHalves := by
  intro c rd rs slot s t hc hpc
  refine ⟨fun hfused => ?eloadcall, fun hfused => ?xloadlambda⟩
  case eloadcall =>
    obtain ⟨hrd, hrs, h6, e, cl, code, hslot, hen, rfl⟩ :=
      (eloadcallEffect_eq_ok ..).mp (effectOf_of_exec hfused hc)
    have hcall : exec (.callDirect c rd) (loaded s rd (some e)) = .next (entered (loaded s rd (some e)) e cl code) :=
      exec_of_effectOf hc ((callDirectEffect_eq_ok ..).mpr
        ⟨hrd, e, cl, code, setCr_crAt_self s rd (some e), enterable_loaded (some e) hrd hpc hen, rfl⟩)
    exact ⟨_, _, _, exec_load hc hrd hrs h6 hslot (hasNextPc_of_add_two hpc), hcall, rfl, entered_loaded ..⟩
  case xloadlambda =>
    obtain ⟨hrd, hrs, h6, g, hslot, ha, rfl⟩ := (xloadlambdaEffect_eq_ok ..).mp (effectOf_of_exec hfused hc)
    have hlambda : exec (.lambda c rd) (loaded s rd (some g)) = .next (applied (loaded s rd (some g)) g) :=
      exec_of_effectOf hc ((lambdaEffect_eq_ok ..).mpr
        ⟨hrd, g, setCr_crAt_self s rd (some g), applicable_loaded (some g) hrd hpc ha, rfl⟩)
    exact ⟨_, _, _, exec_load hc hrd hrs h6 hslot (hasNextPc_of_add_two hpc), hlambda, rfl, applied_loaded ..⟩

end Sys2Proof.Machine

/-! PROOFS. DREAD and DWRITE: the next state (R240, R241, R244). -/

namespace Sys2Proof.Machine

/-- A GT that passes the tests of CheckAccess makes the word at its base + offset accessible (R72). -/
theorem accessible_of_gt {s : State} {v : CRVal} {g : Gt} {p : Perm} {off : Nat} (hg : v = some g)
    (hvalid : valid s g = true) (hperm : permIn p g.perms = true) (hbound : g.base + off ≤ g.limit) :
    Accessible s v p off (g.base + off) :=
  ⟨g, hg, hvalid, hperm, hbound, rfl⟩

/-- Settles O47: the state with the addressed word in DRd and pc advanced. -/
theorem dreadResult : Obligations.DreadResult := by
  intro c rd rs offset s g hc hrs hg hvalid hr hbound hpc
  have haccess : Accessible s (s.crAt rs) .r offset.toNat (g.base + offset.toNat) :=
    accessible_of_gt hg hvalid hr hbound
  exact ⟨{ s.setDr rd (Memory.readWord s.mem (g.base + offset.toNat)) with pc := s.pc + 1 },
    exec_of_effectOf hc ((dreadEffect_eq_ok ..).mpr ⟨hrs, hpc, _, haccess, rfl⟩), rfl,
    setDr_drAt_self s rd _, fun _ => setDr_drAt_ne s _⟩

/-- Settles O48: the state with DRs at the addressed word and pc advanced. -/
theorem dwriteResult : Obligations.DwriteResult := by
  intro c rd rs offset s g hc hrd hg hvalid hw hbound hpc
  have haccess : Accessible s (s.crAt rd) .w offset.toNat (g.base + offset.toNat) :=
    accessible_of_gt hg hvalid hw hbound
  exact ⟨{ s with mem := Memory.writeWord s.mem (g.base + offset.toNat) (s.drAt rs), pc := s.pc + 1 },
    exec_of_effectOf hc ((dwriteEffect_eq_ok ..).mpr ⟨hrd, hpc, _, haccess, rfl⟩), rfl,
    readWord_writeWord_self s.mem _ (s.drAt rs), sameMemoryExcept_writeCell s.mem _ (.data (s.drAt rs))⟩

end Sys2Proof.Machine

/-! PROOFS. The canonical form of memory and of the list of lumps, the model's representation (log 1). -/

namespace Sys2Proof.Machine

/-- The list of lumps changes by saving the running thread's, at a context switch (R184). -/
theorem lumps_written {i : Instr} {s t : State} (ht : Transition s i t) :
    t.lumps = s.lumps ∨ t.lumps = lumpsSaved s := by
  cases ht with
  | changeThread => exact .inr rfl
  | ret => exact .inl (applyMask_lumps ..)
  | _ => exact .inl rfl

theorem transition_memory_wf {i : Instr} {s t : State} (h : Memory.wf s.mem) (ht : Transition s i t) :
    Memory.wf t.mem := by
  rcases memory_written ht with hmem | ⟨_, _, _, _, a, w, -, -, hmem⟩ | ⟨_, _, _, _, a, w, -, -, hmem⟩ <;>
    rw [hmem]
  · exact h
  · exact writeCell_wf a w h
  · exact writeCell_wf a w h

theorem transition_lumps_sorted {i : Instr} {s t : State} (h : AssocSorted s.lumps) (ht : Transition s i t) :
    AssocSorted t.lumps := by
  rcases lumps_written ht with hlumps | hlumps <;> rw [hlumps]
  · exact h
  · exact assocSet_sorted _ _ h

/-- Settles O12: a step is a transition, which writes memory by one word and the lumps by the running thread's. -/
theorem stepKeepsCanonicalForm : Obligations.StepKeepsCanonicalForm := by
  intro s t ⟨hmem, hlumps⟩ hstep
  obtain ⟨i, ht⟩ := transition_of_step hstep
  exact ⟨transition_memory_wf hmem ht, transition_lumps_sorted hlumps ht⟩

end Sys2Proof.Machine

/-! PROOFS. Where the capabilities in the registers come from (R313, R343). -/

namespace Sys2Proof.Machine

/-! ### Attenuation, and the sources of a GT -/

/-- `g` has the region of `h`, and no permission more (R343). -/
def Attenuates (g h : Gt) : Prop :=
  g.base = h.base ∧ g.limit = h.limit ∧ ∀ p, permIn p g.perms = true → permIn p h.perms = true

theorem attenuates_refl (g : Gt) : Attenuates g g := ⟨rfl, rfl, fun _ => id⟩

theorem Attenuates.trans {g h k : Gt} (hgh : Attenuates g h) (hhk : Attenuates h k) : Attenuates g k := by
  obtain ⟨hbase, hlimit, hperms⟩ := hgh
  obtain ⟨hbase', hlimit', hperms'⟩ := hhk
  exact ⟨hbase.trans hbase', hlimit.trans hlimit', fun p hp => hperms' p (hperms p hp)⟩

/-- A restriction attenuates (R209). -/
theorem attenuates_permsInter (g : Gt) (m : Perms) : Attenuates { g with perms := permsInter g.perms m } g :=
  ⟨rfl, rfl, fun p hp => ((permIn_permsInter p _ _).mp hp).1⟩

/-- What CR14 receives of a lambda target attenuates it, for the target has X (R221). -/
theorem attenuates_permsX {g : Gt} (hx : g.perms.x = true) : Attenuates { g with perms := permsX } g :=
  ⟨rfl, rfl, by simp [forall_perm, permIn, permsX, hx]⟩

/-- A GT that state `s` offers to register `j`: one in a register, one that a stored word expands to, and for CR5
the one on top of `cr5_stack`. -/
def Offers (s : State) (j : CRNum) (h : Gt) : Prop :=
  (∃ k, s.crAt k = some h) ∨ (∃ a, h = expandWord s (Memory.readCell s.mem a)) ∨
    (j = 5 ∧ ∃ rest, s.cr5Stack = some h :: rest)

/-- `g` is one of NSSplit's answers as register `j` receives it: the c-list L-only in CR6, the code X-only in CR14
(R160). -/
def SplitInto (s : State) (j : CRNum) (g : Gt) : Prop :=
  ∃ e cl code, s.params.nsSplit.ask s.view e = some (cl, code) ∧
    ((j = 6 ∧ g = { cl with perms := permsL }) ∨ (j = 14 ∧ g = { code with perms := permsX }))

/-- `g` in register `j` attenuates what `s` offers, or is an answer of NSSplit (R313, R343). -/
def HasSource (s : State) (j : CRNum) (g : Gt) : Prop := (∃ h, Attenuates g h ∧ Offers s j h) ∨ SplitInto s j g

theorem hasSource_of_crAt {s : State} {k : CRNum} {g h : Gt} (hh : s.crAt k = some h) (hg : Attenuates g h)
    (j : CRNum) : HasSource s j g := .inl ⟨h, hg, .inl ⟨k, hh⟩⟩

/-- The GT a slot loads as is what the stored word expands to but for its G-bit, which neither the region nor the
permissions see (R140). -/
theorem hasSource_of_slotHolds {s : State} {c : CRVal} {slot : Nat} {needL : Bool} {g h : Gt}
    (hh : SlotHolds s c slot needL (some h)) (hg : Attenuates g h) (j : CRNum) : HasSource s j g := by
  obtain ⟨t, -, -, -, -, ⟨-, hnull⟩ | ⟨-, -, -, heq⟩⟩ := hh
  · cases hnull
  · cases heq
    exact .inl ⟨expandWord s _, hg.trans ⟨rfl, rfl, fun _ => id⟩, .inr (.inl ⟨t.base + slot, rfl⟩)⟩

/-! ### Every GT in a register has a source -/

/-- Every GT in a register of `t` has its source in `s`. -/
def Sourced (s t : State) : Prop := ∀ j g, t.crAt j = some g → HasSource s j g

theorem sourced_refl (s : State) : Sourced s s := fun j g hg => hasSource_of_crAt hg (attenuates_refl g) j

theorem sourced_setCr {s t : State} (h : Sourced s t) {i : CRNum} {v : CRVal}
    (hv : ∀ g, v = some g → HasSource s i g) : Sourced s (t.setCr i v) := by
  intro j g hg
  rw [setCr_crAt] at hg
  split at hg
  · rename_i hji
    exact hji ▸ hv g hg
  · exact h j g hg

/-- Writing what a slot of `s` loads as. -/
theorem sourced_setCr_slot {s : State} {c : CRVal} {slot : Nat} {needL : Bool} {v : CRVal}
    (hv : SlotHolds s c slot needL v) (i : CRNum) : Sourced s (s.setCr i v) := by
  refine sourced_setCr (sourced_refl s) fun g hg => ?_
  subst hg
  exact hasSource_of_slotHolds hv (attenuates_refl g) i

/-- Writing an attenuation of a GT in a register of `s`. -/
theorem sourced_setCr_register {s : State} {k : CRNum} {g h : Gt} (hh : s.crAt k = some h) (hg : Attenuates g h)
    (i : CRNum) : Sourced s (s.setCr i (some g)) := by
  refine sourced_setCr (sourced_refl s) fun g' hg' => ?_
  cases hg'
  exact hasSource_of_crAt hh hg i

theorem sourced_setDomain {s t : State} (h : Sourced s t) {e cl code : Gt}
    (hsplit : s.params.nsSplit.ask s.view e = some (cl, code)) : Sourced s (setDomain t cl code) := by
  refine sourced_setCr (sourced_setCr h fun g hg => ?clist) fun g hg => ?code
  case clist => exact .inr ⟨e, cl, code, hsplit, .inl ⟨rfl, (Option.some.inj hg).symm⟩⟩
  case code => exact .inr ⟨e, cl, code, hsplit, .inr ⟨rfl, (Option.some.inj hg).symm⟩⟩

/-- Enter writes no register but those of the domain (R160). -/
theorem sourced_entered {s t : State} (h : Sourced s t) {e cl code : Gt} (hen : Enterable s e cl code) :
    Sourced s (entered t e cl code) := by
  obtain ⟨-, -, -, -, hsplit⟩ := hen
  exact sourced_setDomain (t := pushFrame t (t.pc + 1)) h hsplit

/-- Applying a lambda target writes CR14 with an attenuation of it (R221). -/
theorem sourced_applied {s t : State} (h : Sourced s t) {g : Gt}
    (hg : ∀ k, Attenuates k g → HasSource s 14 k) (ha : Applicable s g) : Sourced s (applied t g) := by
  obtain ⟨-, hx, -⟩ := ha
  refine sourced_setCr (t := pushFrame t (t.pc + 1)) h fun k hk => ?_
  cases hk
  exact hg _ (attenuates_permsX hx)

/-- RETURN writes the domain's registers and CR5, the last from `cr5_stack`, and its mask only NULL (R168). -/
theorem sourced_returned {s : State} {g5 : CRVal} {rest : List CRVal} (hcr5 : s.cr5Stack = g5 :: rest)
    {e cl code : Gt} (hsplit : s.params.nsSplit.ask s.view e = some (cl, code)) (f : Frame) (frames : List Frame)
    (mask : BitVec 12) : Sourced s (applyMask (returned s f frames g5 rest e cl code) mask) := by
  have hfive : Sourced s ((setDomain s cl code).setCr 5 g5) := by
    refine sourced_setCr (sourced_setDomain (sourced_refl s) hsplit) fun g hg => ?_
    subst hg
    exact .inl ⟨g, attenuates_refl g, .inr (.inr ⟨rfl, rest, hcr5⟩)⟩
  exact applyMask_preserves (P := Sourced s) (fun _ _ ht => sourced_setCr ht fun _ hnull => nomatch hnull)
    (s := returned s f frames g5 rest e cl code) hfive mask

/-- A transition that is no context switch gives every GT in a register its source. -/
theorem transition_sourced {i : Instr} {s t : State} (ht : Transition s i t)
    (hswitch : ∀ c rd rs idx, i = .change c rd rs idx → rd = 12 ∨ rd = 13) : Sourced s t := by
  cases ht with
  | load _ _ hv => exact sourced_setCr_slot hv _
  | callDirect _ hen => exact sourced_entered (sourced_refl s) hen
  | callClist _ hen => exact sourced_entered (sourced_refl s) hen
  | ret _ hcr5 _ hsplit => exact sourced_returned hcr5 hsplit _ _ _
  | changeSystemWide _ _ hv => exact sourced_setCr_slot hv _
  | changeThread _ hrd => exact absurd (hswitch _ _ _ _ rfl) (by rcases hrd with rfl | rfl <;> decide)
  | switch _ _ hg => exact sourced_setCr_register hg (attenuates_refl _) _
  | tpermRestrict _ _ hg => exact sourced_setCr_register hg (attenuates_permsInter _ _) _
  | lambda hg ha => exact sourced_applied (sourced_refl s) (fun k hk => hasSource_of_crAt hg hk 14) ha
  | eloadcall _ he hen => exact sourced_entered (sourced_setCr_slot he _) hen
  | xloadlambda _ hg ha =>
    exact sourced_applied (sourced_setCr_slot hg _) (fun k hk => hasSource_of_slotHolds hg hk 14) ha
  | _ => exact sourced_refl s

/-- Settles O19: the two kinds of source are those the statement lists. -/
theorem capabilitiesHaveASource : Obligations.CapabilitiesHaveASource := by
  intro i s t j g hexec hg hswitch
  rcases transition_sourced (transition_of_exec hexec) hswitch j g hg with
    ⟨h, ⟨hbase, hlimit, hperms⟩, hoffers⟩ | ⟨e, cl, code, hsplit, ⟨hj, rfl⟩ | ⟨hj, rfl⟩⟩
  · exact ⟨h, hbase, hlimit, .inl ⟨hperms, hoffers⟩⟩
  · exact ⟨cl, rfl, rfl, .inr ⟨e, cl, code, hsplit, .inl ⟨hj, rfl, rfl⟩⟩⟩
  · exact ⟨code, rfl, rfl, .inr ⟨e, cl, code, hsplit, .inr ⟨hj, rfl, rfl⟩⟩⟩

end Sys2Proof.Machine

/-! PROOFS. The frame of the Turing domain, and BRANCH (R280 to R282, R291). -/

namespace Sys2Proof.Machine

/-- Settles O14: RETURN and the Church instructions have an opcode below 10, and each of the others names the fields
it writes. -/
theorem turingDomainFrame : Obligations.TuringDomainFrame := by
  intro i s t hturing hexec
  cases transition_of_exec hexec with
  | load | save | callDirect | callClist | ret | changeSystemWide | changeThread | switch | tpermRestrict
  | tpermIgnored | tpermCheck | lambda | eloadcall | xloadlambda => exact absurd hturing (by simp [encode])
  | dwrite => exact ⟨rfl, fun hother => absurd rfl (hother _ _ _ _), fun _ _ _ => rfl⟩
  | mcmp => exact ⟨rfl, fun _ => rfl, fun hother => absurd rfl (hother _ _ _)⟩
  | iadd => exact ⟨rfl, fun _ => rfl, fun _ hother => absurd rfl (hother _ _ _ _)⟩
  | isub => exact ⟨rfl, fun _ => rfl, fun _ _ hother => absurd rfl (hother _ _ _ _)⟩
  | skipped | dread | bfext | bfins | branch | shl | shr => exact ⟨rfl, fun _ => rfl, fun _ _ _ => rfl⟩

/-- Settles O59: the one test of BRANCH is that its target is inside the pc range. -/
theorem branchResult : Obligations.BranchResult := by
  intro c offset s hc target
  refine ⟨fun ⟨hlow, hhigh⟩ => ?inside, fun houtside => ?outside⟩
  case inside => exact exec_of_effectOf hc ((branchEffect_eq_ok ..).mpr ⟨hlow, hhigh, rfl⟩)
  case outside =>
    refine (exec_fault_iff (i := .branch c offset) hc trivial).mpr fun t ht => ?_
    obtain ⟨hlow, hhigh, -⟩ := (branchEffect_eq_ok ..).mp ht
    rcases houtside with hneg | hover
    · exact absurd hneg (Int.not_lt.mpr hlow)
    · exact absurd hover (Int.not_le.mpr hhigh)

end Sys2Proof.Machine

/-! PROOFS. BFINS, then BFEXT of the same field (R256). -/

namespace Sys2Proof.Machine

/-- Settles O52: BFINS leaves the condition passing and room for one more advance, and a bit that BFEXT then takes
out of the field is the bit that BFINS put there. -/
theorem bfinsThenBfext : Obligations.BfinsThenBfext := by
  intro c x y z width lsb s hc hwidth hfield hpc
  obtain ⟨t, hins, ht, hinserted, -⟩ := bfinsResult c y x width lsb s hc hwidth hfield (hasNextPc_of_add_two hpc)
  have hflags : t.flags = s.flags := by rw [ht]
  have hnext : t.HasNextPc := by
    rw [ht]
    exact hpc
  obtain ⟨u, hext, -, hextracted, -⟩ := bfextResult c z y width lsb t (hflags ▸ hc) hwidth hfield hnext
  refine ⟨t, u, hins, hext, BitVec.eq_of_getLsbD_eq fun k hk => ?_⟩
  show _ = (s.drAt x &&& fieldMask width.toNat).getLsbD k
  rw [hextracted, hinserted, BitVec.getLsbD_and, getLsbD_fieldMask]
  by_cases hin : k < width.toNat
  · simp [hin, hk]
  · simp [hin]

end Sys2Proof.Machine

/-! PROOFS. SHL and SHR, and the two in turn (R285 to R290). -/

namespace Sys2Proof.Machine

/-! ### The shifted word -/

/-- The amount used: itself below 32, and one of R287's two readings from there (log 16). -/
theorem shiftAmount_cases (amount : BitVec 15) :
    (amount.toNat < 32 ∧ shiftAmount amount = some amount.toNat) ∨
      (32 ≤ amount.toNat ∧ (shiftAmount amount = none ∨ shiftAmount amount = some (amount.toNat % 32))) := by
  unfold shiftAmount
  split
  · exact .inl ⟨‹_›, rfl⟩
  · refine .inr ⟨Nat.le_of_not_lt ‹_›, ?_⟩
    split
    · exact .inl rfl
    · exact .inr rfl

theorem shiftAmount_of_lt {amount : BitVec 15} (h : amount.toNat < 32) : shiftAmount amount = some amount.toNat :=
  if_pos h

/-- SHL's word is the product with a power of two (R285). -/
theorem toNat_shl (x : Word) (k : Nat) : (x <<< k).toNat = x.toNat * 2 ^ k % 2 ^ 32 := by
  rw [BitVec.toNat_shiftLeft, Nat.shiftLeft_eq]

/-- SHR's word is the quotient by a power of two (R288). -/
theorem toNat_shr (x : Word) (k : Nat) : (x >>> k).toNat = x.toNat / 2 ^ k := by
  rw [BitVec.toNat_ushiftRight, Nat.shiftRight_eq_div_pow]

/-- What SHL writes, for every amount: a product by 2^32 or more wraps to 0 (R285, R287). -/
theorem toNat_shlResult (x : Word) (amount : BitVec 15) :
    ((shiftAmount amount).elim 0 fun k => x <<< k).toNat = x.toNat * 2 ^ amount.toNat % 2 ^ 32 ∨
      32 ≤ amount.toNat ∧
        ((shiftAmount amount).elim 0 fun k => x <<< k).toNat = x.toNat * 2 ^ (amount.toNat % 32) % 2 ^ 32 := by
  rcases shiftAmount_cases amount with ⟨-, h⟩ | ⟨h32, h | h⟩ <;> rw [h]
  · exact .inl (toNat_shl x _)
  · exact .inl (Nat.mod_eq_zero_of_dvd (Dvd.dvd.mul_left (pow_dvd_pow 2 h32) _)).symm
  · exact .inr ⟨h32, toNat_shl x _⟩

/-- What SHR writes, for every amount: a quotient by 2^32 or more is 0 (R287, R288). -/
theorem toNat_shrResult (x : Word) (amount : BitVec 15) :
    ((shiftAmount amount).elim 0 fun k => x >>> k).toNat = x.toNat / 2 ^ amount.toNat ∨
      32 ≤ amount.toNat ∧
        ((shiftAmount amount).elim 0 fun k => x >>> k).toNat = x.toNat / 2 ^ (amount.toNat % 32) := by
  rcases shiftAmount_cases amount with ⟨-, h⟩ | ⟨h32, h | h⟩ <;> rw [h]
  · exact .inl (toNat_shr x _)
  · exact .inl (Nat.div_eq_of_lt (x.isLt.trans_le (Nat.pow_le_pow_right two_pos h32))).symm
  · exact .inr ⟨h32, toNat_shr x _⟩

/-- Settles O53: each writes DRd with its shifted word and advances pc. -/
theorem shiftResult : Obligations.ShiftResult := by
  intro c rd rs amount s hc hpc
  refine ⟨⟨_, exec_of_effectOf hc ((shlEffect_eq_ok ..).mpr ⟨hpc, rfl⟩), rfl, ?shl, fun _ => setDr_drAt_ne s _⟩,
    ⟨_, exec_of_effectOf hc ((shrEffect_eq_ok ..).mpr ⟨hpc, rfl⟩), rfl, ?shr, fun _ => setDr_drAt_ne s _⟩⟩
  case shl => exact (setDr_drAt_self s rd _).symm ▸ toNat_shlResult (s.drAt rs) amount
  case shr => exact (setDr_drAt_self s rd _).symm ▸ toNat_shrResult (s.drAt rs) amount

/-! ### There and back -/

/-- An executed SHL by less than 32 (R285). -/
theorem shl_of_exec {c : Cond} {rd rs : DRNum} {amount : BitVec 15} {s t : State}
    (hc : condPass c s.flags = true) (hlt : amount.toNat < 32) (ht : exec (.shl c rd rs amount) s = .next t) :
    t.drAt rd = s.drAt rs <<< amount.toNat ∧ t.flags = s.flags := by
  obtain ⟨-, rfl⟩ := (shlEffect_eq_ok ..).mp (effectOf_of_exec ht hc)
  rw [shiftAmount_of_lt hlt]
  exact ⟨setDr_drAt_self s rd _, rfl⟩

/-- An executed SHR by less than 32 (R288). -/
theorem shr_of_exec {c : Cond} {rd rs : DRNum} {amount : BitVec 15} {s t : State}
    (hc : condPass c s.flags = true) (hlt : amount.toNat < 32) (ht : exec (.shr c rd rs amount) s = .next t) :
    t.drAt rd = s.drAt rs >>> amount.toNat ∧ t.flags = s.flags := by
  obtain ⟨-, rfl⟩ := (shrEffect_eq_ok ..).mp (effectOf_of_exec ht hc)
  rw [shiftAmount_of_lt hlt]
  exact ⟨setDr_drAt_self s rd _, rfl⟩

/-- Up by `k` and down again keeps the bits that stayed inside the word (R290). -/
theorem toNat_shl_shr (x : Word) {k : Nat} (hk : k ≤ 32) : (x <<< k >>> k).toNat = x.toNat % 2 ^ (32 - k) := by
  have hsplit : 2 ^ 32 = 2 ^ (32 - k) * 2 ^ k := by rw [← pow_add, Nat.sub_add_cancel hk]
  rw [toNat_shr, toNat_shl, hsplit, Nat.mul_mod_mul_right, Nat.mul_div_cancel _ (Nat.two_pow_pos k)]

/-- Down by `k` and up again clears the bits that left the word (R290). -/
theorem toNat_shr_shl (x : Word) (k : Nat) : (x >>> k <<< k).toNat = x.toNat - x.toNat % 2 ^ k := by
  have hwhole : x.toNat / 2 ^ k * 2 ^ k = x.toNat - x.toNat % 2 ^ k := by
    rw [Nat.div_mul_self_eq_mod_sub_self]
  rw [toNat_shl, toNat_shr, hwhole, Nat.mod_eq_of_lt ((Nat.sub_le ..).trans_lt x.isLt)]

/-- Settles O54: the second shift runs too, for the first leaves the flags, and reads what the first wrote. -/
theorem shiftThereAndBack : Obligations.ShiftThereAndBack := by
  intro c x y z amount s t u hc hlt
  refine ⟨fun hshl hshr => ?left, fun hshr hshl => ?right⟩
  case left =>
    obtain ⟨hy, hflags⟩ := shl_of_exec hc hlt hshl
    obtain ⟨hz, -⟩ := shr_of_exec (hflags ▸ hc) hlt hshr
    rw [hz, hy, toNat_shl_shr _ hlt.le]
  case right =>
    obtain ⟨hy, hflags⟩ := shr_of_exec hc hlt hshr
    obtain ⟨hz, -⟩ := shl_of_exec (hflags ▸ hc) hlt hshl
    rw [hz, hy, toNat_shr_shl]

end Sys2Proof.Machine

/-! PROOFS. MCMP, IADD and ISUB: the value and the four flags (R260 to R268). -/

namespace Sys2Proof.Machine

/-! ### The flags of a sum, as facts about integers -/

theorem addFlags_z_iff (a b : Word) : (addFlags a b).2.z = true ↔ a + b = 0 := beq_iff_eq

theorem addFlags_c_iff (a b : Word) : (addFlags a b).2.c = true ↔ 2 ^ 32 ≤ a.toNat + b.toNat := decide_eq_true_iff

theorem addFlags_n_iff (a b : Word) : (addFlags a b).2.n = true ↔ (a + b).toInt < 0 := by
  rw [addFlags, BitVec.msb_eq_toInt, decide_eq_true_iff]

/-- The sign rule for V is the library's signed overflow of an addition (R260). -/
theorem addFlags_v_eq (a b : Word) : (addFlags a b).2.v = a.saddOverflow b := by
  rw [BitVec.saddOverflow_eq, addFlags]
  cases a.msb <;> cases b.msb <;> simp

/-- V is set exactly where the wrapped sum is not the true one. -/
theorem addFlags_v_iff (a b : Word) : (addFlags a b).2.v = true ↔ (a + b).toInt ≠ a.toInt + b.toInt := by
  have ha := a.le_toInt
  have ha' := a.toInt_lt
  have hb := b.le_toInt
  have hb' := b.toInt_lt
  rw [addFlags_v_eq, BitVec.saddOverflow, Bool.or_eq_true, decide_eq_true_iff, decide_eq_true_iff,
    BitVec.toInt_add, Int.bmod_def]
  omega

/-! ### The immediate -/

/-- The immediate is zero-extended: ARITH_IMM_SIGNED is off (R265, R266; log 17). -/
theorem arithImm_toNat (imm : BitVec 15) : (arithImm imm).toNat = imm.toNat :=
  BitVec.toNat_setWidth_of_le (b := imm) (w' := 32) (by decide)

/-- So as a signed word it is not negative. -/
theorem arithImm_toInt (imm : BitVec 15) : (arithImm imm).toInt = imm.toNat := by
  have himm := imm.isLt
  rw [BitVec.toInt_eq_toNat_of_lt (by rw [arithImm_toNat]; omega), arithImm_toNat]

/-! ### The next state -/

/-- Settles O55: the flags are those of the difference. -/
theorem mcmpResult : Obligations.McmpResult := by
  intro c rd rs s hc hpc a b
  exact ⟨_, exec_of_effectOf hc ((mcmpEffect_eq_ok ..).mpr ⟨hpc, rfl⟩), rfl, subFlags_n_iff a b, subFlags_z_iff a b,
    subFlags_c_iff a b, subFlags_v_iff a b⟩

/-- The state after IADD or ISUB with result `r`: DRd and the flags written, pc advanced (R265, R268). -/
def resultWritten (s : State) (rd : DRNum) (r : Word × Flags) : State := { setResult s rd r with pc := s.pc + 1 }

@[simp] theorem resultWritten_drAt_self (s : State) (rd : DRNum) (r : Word × Flags) :
    (resultWritten s rd r).drAt rd = r.1 := setDr_drAt_self s rd r.1

theorem resultWritten_drAt_ne (s : State) {rd j : DRNum} (r : Word × Flags) (h : j ≠ rd) :
    (resultWritten s rd r).drAt j = s.drAt j := setDr_drAt_ne s r.1 h

@[simp] theorem resultWritten_flags (s : State) (rd : DRNum) (r : Word × Flags) :
    (resultWritten s rd r).flags = r.2 := rfl

@[simp] theorem addFlags_fst (a b : Word) : (addFlags a b).1 = a + b := rfl

@[simp] theorem subFlags_fst (a b : Word) : (subFlags a b).1 = a - b := rfl

/-- Settles O57: the sum, and its flags with the immediate read as a number. -/
theorem iaddResult : Obligations.IaddResult := by
  intro c rd rs imm s hc hpc a
  refine ⟨resultWritten s rd (addFlags a (arithImm imm)),
    exec_of_effectOf hc ((iaddEffect_eq_ok ..).mpr ⟨hpc, rfl⟩), rfl, ?value,
    fun _ => resultWritten_drAt_ne s _, ?n, ?z, ?c, ?v⟩ <;>
    simp only [resultWritten_drAt_self, resultWritten_flags, addFlags_fst]
  case value => rw [BitVec.toNat_add, arithImm_toNat]
  case n => exact addFlags_n_iff ..
  case z => exact (addFlags_z_iff ..).trans BitVec.toNat_inj.symm
  case c => rw [addFlags_c_iff, arithImm_toNat]
  case v => rw [addFlags_v_iff, arithImm_toInt]

/-- Settles O58: the difference, and its flags with the immediate read as a number. -/
theorem isubResult : Obligations.IsubResult := by
  intro c rd rs imm s hc hpc a
  refine ⟨resultWritten s rd (subFlags a (arithImm imm)),
    exec_of_effectOf hc ((isubEffect_eq_ok ..).mpr ⟨hpc, rfl⟩), rfl, ?value,
    fun _ => resultWritten_drAt_ne s _, ?n, ?z, ?c, ?v⟩ <;>
    simp only [resultWritten_drAt_self, resultWritten_flags, subFlags_fst]
  case value =>
    have himm := imm.isLt
    rw [BitVec.toNat_sub, arithImm_toNat]
    omega
  case n => exact subFlags_n_iff ..
  case z => exact (subFlags_z_iff ..).trans (sub_eq_zero.symm.trans BitVec.toNat_inj.symm)
  case c => rw [subFlags_c_iff, arithImm_toNat]
  case v => rw [subFlags_v_iff, arithImm_toInt]

end Sys2Proof.Machine
